-- ==== Sys2Proof/Word.lean ====
section
/-! DEFINITION. The bit-vector types of the model: bytes of the source, 32-bit start codes and the 64-bit registers
(00_scope.md R6, 10_state.md). -/

namespace Sys2Proof

/-- One byte of the source (20_memory.md R50). -/
abbrev Byte := BitVec 8

/-- A start code (00_scope.md R6, `START_CODE_W` = 32). -/
abbrev StartCode := BitVec 32

/-- A 64-bit register or field value (00_scope.md R6, `FIELD_W` and `OFFSET_W` = 64; R7, `CNT_W` = 64). -/
abbrev Word := BitVec 64

end Sys2Proof
end

