-- ==== Sys2Proof/Syntax.lean ====
section
/-! DEFINITION. The instructions: one constructor of `Instr` for each row of spec/opcode_table.json. A start
code or a record of the stream is an instruction whose operands are its fields (30_encoding.md R96); the BitReader,
Field Model, host and consumer operations carry the operands their rules name. Names are the spec's own. -/

namespace Sys2Proof

/-- The five packet kinds, in the order of 10_state.md R28 (codes 0 to 4). -/
inductive PacketKind where
  | packHeader
  | systemHeader
  | programStreamMap
  | videoPES
  | audioPES
deriving DecidableEq, Repr

/-- The names of the field registers, spelled as 30_encoding.md R72 to R92 and 10_state.md R30 spell them. -/
inductive FieldName where
  | fixed_01
  | system_clock_reference_base_32_30
  | marker_bit_1
  | system_clock_reference_base_29_15
  | marker_bit_2
  | system_clock_reference_base_14_0
  | marker_bit_3
  | system_clock_reference_extension
  | marker_bit_4
  | program_mux_rate
  | marker_bit_5
  | marker_bit_6
  | reserved
  | pack_stuffing_length
  | header_length
  | rate_bound
  | audio_bound
  | fixed_flag
  | CSPS_flag
  | system_audio_lock_flag
  | system_video_lock_flag
  | video_bound
  | packet_rate_restriction_flag
  | reserved_bits
  | stream_id
  | fixed_11
  | P_STD_buffer_bound_scale
  | P_STD_buffer_size_bound
  | program_stream_map_length
  | current_next_indicator
  | reserved_1
  | program_stream_map_version
  | reserved_2
  | marker_bit
  | program_stream_info_length
  | elementary_stream_map_length
  | stream_type
  | elementary_stream_id
  | elementary_stream_info_length
  | CRC_32
  | PES_packet_length
  | fixed_10
  | PES_scrambling_control
  | PES_priority
  | data_alignment_indicator
  | copyright
  | original_or_copy
  | PTS_DTS_flags
  | ESCR_flag
  | ES_rate_flag
  | DSM_trick_mode_flag
  | additional_copy_info_flag
  | PES_CRC_flag
  | PES_extension_flag
  | PES_header_data_length
  | fixed_0010
  | PTS_32_30
  | PTS_marker_bit_1
  | PTS_29_15
  | PTS_marker_bit_2
  | PTS_14_0
  | PTS_marker_bit_3
  | fixed_0011
  | fixed_0001
  | DTS_32_30
  | DTS_marker_bit_1
  | DTS_29_15
  | DTS_marker_bit_2
  | DTS_14_0
  | DTS_marker_bit_3
  | ESCR_reserved
  | ESCR_base_32_30
  | ESCR_marker_bit_1
  | ESCR_base_29_15
  | ESCR_marker_bit_2
  | ESCR_base_14_0
  | ESCR_marker_bit_3
  | ESCR_extension
  | ESCR_marker_bit_4
  | ES_rate_marker_bit_1
  | ES_rate
  | ES_rate_marker_bit_2
  | trick_mode_control
  | field_id
  | intra_slice_refresh
  | frequency_truncation
  | rep_cntrl
  | trick_reserved
  | copy_info_marker_bit
  | additional_copy_info
  | previous_PES_packet_CRC
  | PES_private_data_flag
  | pack_header_field_flag
  | program_packet_sequence_counter_flag
  | P_STD_buffer_flag
  | PES_extension_reserved
  | PES_extension_flag_2
  | pack_field_length
  | seq_marker_bit_1
  | program_packet_sequence_counter
  | seq_marker_bit_2
  | MPEG1_MPEG2_identifier
  | original_stuff_length
  | P_STD_buffer_scale
  | P_STD_buffer_size
  | ext2_marker_bit
  | PES_extension_field_length
deriving DecidableEq, Repr

/-- The symbolic name of a Field Tree node (10_state.md R29): the root's kind name, a field of 30_encoding.md, one of
the two nested child names (41_field_model.md R132), a name a user of the Field Model makes up (log entry 28), or the
root of a Field Model used outside a packet (log entry 12). -/
inductive NodeName where
  | kind (k : PacketKind)
  | field (f : FieldName)
  | stream
  | es_map_entry
  | user (n : Nat)
  | standalone
deriving DecidableEq, Repr

/-- The two output ports a consumer removes records from (48_host_ops.md R255); TREE goes with EVT. -/
inductive Port where
  | evt
  | es
deriving DecidableEq, Repr

/-- The records the demux task can stand before: the context in which the bits at the cursor are decoded
(30_encoding.md R95, R102). The eight trick-mode rows share one place, their first three bits tell them apart. -/
inductive Rec where
  | packBody
  | sysFixed
  | sysStream
  | psmFixed
  | psmEsmLength
  | psmEntry
  | psmCrc
  | pesBase
  | pesPts
  | pesPtsDts
  | pesEscr
  | pesEsRate
  | pesTrick
  | pesCopyInfo
  | pesCrc
  | pesExtFlags
  | pesPrivateData
  | pesPackField
  | pesSeqCounter
  | pesPStd
  | pesExt2
deriving DecidableEq, Repr

/-- PACK.body: the 80-bit record of 30_encoding.md R72. -/
structure PackBody where
  fixed_01 : BitVec 2
  system_clock_reference_base_32_30 : BitVec 3
  marker_bit_1 : BitVec 1
  system_clock_reference_base_29_15 : BitVec 15
  marker_bit_2 : BitVec 1
  system_clock_reference_base_14_0 : BitVec 15
  marker_bit_3 : BitVec 1
  system_clock_reference_extension : BitVec 9
  marker_bit_4 : BitVec 1
  program_mux_rate : BitVec 22
  marker_bit_5 : BitVec 1
  marker_bit_6 : BitVec 1
  reserved : BitVec 5
  pack_stuffing_length : BitVec 3
deriving DecidableEq, Repr

/-- SYS.fixed: the 64-bit record of 30_encoding.md R73. -/
structure SysFixed where
  header_length : BitVec 16
  marker_bit_1 : BitVec 1
  rate_bound : BitVec 22
  marker_bit_2 : BitVec 1
  audio_bound : BitVec 6
  fixed_flag : BitVec 1
  CSPS_flag : BitVec 1
  system_audio_lock_flag : BitVec 1
  system_video_lock_flag : BitVec 1
  marker_bit_3 : BitVec 1
  video_bound : BitVec 5
  packet_rate_restriction_flag : BitVec 1
  reserved_bits : BitVec 7
deriving DecidableEq, Repr

/-- SYS.stream: the 24-bit record of 30_encoding.md R74. -/
structure SysStream where
  stream_id : BitVec 8
  fixed_11 : BitVec 2
  P_STD_buffer_bound_scale : BitVec 1
  P_STD_buffer_size_bound : BitVec 13
deriving DecidableEq, Repr

/-- PSM.fixed: the 48-bit record of 30_encoding.md R75. -/
structure PsmFixed where
  program_stream_map_length : BitVec 16
  current_next_indicator : BitVec 1
  reserved_1 : BitVec 2
  program_stream_map_version : BitVec 5
  reserved_2 : BitVec 7
  marker_bit : BitVec 1
  program_stream_info_length : BitVec 16
deriving DecidableEq, Repr

/-- PSM.esm_length: the 16-bit record of 30_encoding.md R76. -/
structure PsmEsmLength where
  elementary_stream_map_length : BitVec 16
deriving DecidableEq, Repr

/-- PSM.entry: the 32-bit record of 30_encoding.md R77. -/
structure PsmEntry where
  stream_type : BitVec 8
  elementary_stream_id : BitVec 8
  elementary_stream_info_length : BitVec 16
deriving DecidableEq, Repr

/-- PSM.crc: the 32-bit record of 30_encoding.md R78. -/
structure PsmCrc where
  CRC_32 : BitVec 32
deriving DecidableEq, Repr

/-- PES.base: the 40-bit record of 30_encoding.md R79. -/
structure PesBase where
  PES_packet_length : BitVec 16
  fixed_10 : BitVec 2
  PES_scrambling_control : BitVec 2
  PES_priority : BitVec 1
  data_alignment_indicator : BitVec 1
  copyright : BitVec 1
  original_or_copy : BitVec 1
  PTS_DTS_flags : BitVec 2
  ESCR_flag : BitVec 1
  ES_rate_flag : BitVec 1
  DSM_trick_mode_flag : BitVec 1
  additional_copy_info_flag : BitVec 1
  PES_CRC_flag : BitVec 1
  PES_extension_flag : BitVec 1
  PES_header_data_length : BitVec 8
deriving DecidableEq, Repr

/-- PES.pts: the 40-bit record of 30_encoding.md R80. -/
structure PesPts where
  fixed_0010 : BitVec 4
  PTS_32_30 : BitVec 3
  PTS_marker_bit_1 : BitVec 1
  PTS_29_15 : BitVec 15
  PTS_marker_bit_2 : BitVec 1
  PTS_14_0 : BitVec 15
  PTS_marker_bit_3 : BitVec 1
deriving DecidableEq, Repr

/-- PES.pts_dts: the 80-bit record of 30_encoding.md R81. -/
structure PesPtsDts where
  fixed_0011 : BitVec 4
  PTS_32_30 : BitVec 3
  PTS_marker_bit_1 : BitVec 1
  PTS_29_15 : BitVec 15
  PTS_marker_bit_2 : BitVec 1
  PTS_14_0 : BitVec 15
  PTS_marker_bit_3 : BitVec 1
  fixed_0001 : BitVec 4
  DTS_32_30 : BitVec 3
  DTS_marker_bit_1 : BitVec 1
  DTS_29_15 : BitVec 15
  DTS_marker_bit_2 : BitVec 1
  DTS_14_0 : BitVec 15
  DTS_marker_bit_3 : BitVec 1
deriving DecidableEq, Repr

/-- PES.escr: the 48-bit record of 30_encoding.md R82. -/
structure PesEscr where
  ESCR_reserved : BitVec 2
  ESCR_base_32_30 : BitVec 3
  ESCR_marker_bit_1 : BitVec 1
  ESCR_base_29_15 : BitVec 15
  ESCR_marker_bit_2 : BitVec 1
  ESCR_base_14_0 : BitVec 15
  ESCR_marker_bit_3 : BitVec 1
  ESCR_extension : BitVec 9
  ESCR_marker_bit_4 : BitVec 1
deriving DecidableEq, Repr

/-- PES.es_rate: the 24-bit record of 30_encoding.md R83. -/
structure PesEsRate where
  ES_rate_marker_bit_1 : BitVec 1
  ES_rate : BitVec 22
  ES_rate_marker_bit_2 : BitVec 1
deriving DecidableEq, Repr

/-- PES.trick_0: the 8-bit record of 30_encoding.md R84; `trick_mode_control` is 0, these are the five tail bits. -/
structure PesTrick0 where
  field_id : BitVec 2
  intra_slice_refresh : BitVec 1
  frequency_truncation : BitVec 2
deriving DecidableEq, Repr

/-- PES.trick_1: the 8-bit record of 30_encoding.md R84; `trick_mode_control` is 1, these are the five tail bits. -/
structure PesTrick1 where
  rep_cntrl : BitVec 5
deriving DecidableEq, Repr

/-- PES.trick_2: the 8-bit record of 30_encoding.md R84; `trick_mode_control` is 2, these are the five tail bits. -/
structure PesTrick2 where
  field_id : BitVec 2
  trick_reserved : BitVec 3
deriving DecidableEq, Repr

/-- PES.trick_3: the 8-bit record of 30_encoding.md R84; `trick_mode_control` is 3, these are the five tail bits. -/
structure PesTrick3 where
  field_id : BitVec 2
  intra_slice_refresh : BitVec 1
  frequency_truncation : BitVec 2
deriving DecidableEq, Repr

/-- PES.trick_4: the 8-bit record of 30_encoding.md R84; `trick_mode_control` is 4, these are the five tail bits. -/
structure PesTrick4 where
  rep_cntrl : BitVec 5
deriving DecidableEq, Repr

/-- PES.trick_5: the 8-bit record of 30_encoding.md R84; `trick_mode_control` is 5, these are the five tail bits. -/
structure PesTrick5 where
  trick_reserved : BitVec 5
deriving DecidableEq, Repr

/-- PES.trick_6: the 8-bit record of 30_encoding.md R84; `trick_mode_control` is 6, these are the five tail bits. -/
structure PesTrick6 where
  trick_reserved : BitVec 5
deriving DecidableEq, Repr

/-- PES.trick_7: the 8-bit record of 30_encoding.md R84; `trick_mode_control` is 7, these are the five tail bits. -/
structure PesTrick7 where
  trick_reserved : BitVec 5
deriving DecidableEq, Repr

/-- PES.copy_info: the 8-bit record of 30_encoding.md R85. -/
structure PesCopyInfo where
  copy_info_marker_bit : BitVec 1
  additional_copy_info : BitVec 7
deriving DecidableEq, Repr

/-- PES.crc: the 16-bit record of 30_encoding.md R86. -/
structure PesCrc where
  previous_PES_packet_CRC : BitVec 16
deriving DecidableEq, Repr

/-- PES.ext_flags: the 8-bit record of 30_encoding.md R87. -/
structure PesExtFlags where
  PES_private_data_flag : BitVec 1
  pack_header_field_flag : BitVec 1
  program_packet_sequence_counter_flag : BitVec 1
  P_STD_buffer_flag : BitVec 1
  PES_extension_reserved : BitVec 3
  PES_extension_flag_2 : BitVec 1
deriving DecidableEq, Repr

/-- PES.private_data: the 128-bit record of 30_encoding.md R88, sixteen bytes that are skipped and not recorded. -/
structure PesPrivateData where
  data : BitVec 128
deriving DecidableEq, Repr

/-- PES.pack_field: the 8-bit record of 30_encoding.md R89. -/
structure PesPackField where
  pack_field_length : BitVec 8
deriving DecidableEq, Repr

/-- PES.seq_counter: the 16-bit record of 30_encoding.md R90. -/
structure PesSeqCounter where
  seq_marker_bit_1 : BitVec 1
  program_packet_sequence_counter : BitVec 7
  seq_marker_bit_2 : BitVec 1
  MPEG1_MPEG2_identifier : BitVec 1
  original_stuff_length : BitVec 6
deriving DecidableEq, Repr

/-- PES.p_std: the 16-bit record of 30_encoding.md R91. -/
structure PesPStd where
  fixed_01 : BitVec 2
  P_STD_buffer_scale : BitVec 1
  P_STD_buffer_size : BitVec 13
deriving DecidableEq, Repr

/-- PES.ext2: the 8-bit record of 30_encoding.md R92. -/
structure PesExt2 where
  ext2_marker_bit : BitVec 1
  PES_extension_field_length : BitVec 7
deriving DecidableEq, Repr

/-- One constructor per row of spec/opcode_table.json, in the table's order. -/
inductive Instr where
  -- start codes (30_encoding.md R70)
  | pack
  | sys
  | psm
  | vpes
  | apes
  -- records (30_encoding.md R72 to R92)
  | packBody (r : PackBody)
  | sysFixed (r : SysFixed)
  | sysStream (r : SysStream)
  | psmFixed (r : PsmFixed)
  | psmEsmLength (r : PsmEsmLength)
  | psmEntry (r : PsmEntry)
  | psmCrc (r : PsmCrc)
  | pesBase (r : PesBase)
  | pesPts (r : PesPts)
  | pesPtsDts (r : PesPtsDts)
  | pesEscr (r : PesEscr)
  | pesEsRate (r : PesEsRate)
  | pesTrick0 (r : PesTrick0)
  | pesTrick1 (r : PesTrick1)
  | pesTrick2 (r : PesTrick2)
  | pesTrick3 (r : PesTrick3)
  | pesTrick4 (r : PesTrick4)
  | pesTrick5 (r : PesTrick5)
  | pesTrick6 (r : PesTrick6)
  | pesTrick7 (r : PesTrick7)
  | pesCopyInfo (r : PesCopyInfo)
  | pesCrc (r : PesCrc)
  | pesExtFlags (r : PesExtFlags)
  | pesPrivateData (r : PesPrivateData)
  | pesPackField (r : PesPackField)
  | pesSeqCounter (r : PesSeqCounter)
  | pesPStd (r : PesPStd)
  | pesExt2 (r : PesExt2)
  -- PES parts without an encoding (46_pes_header.md R213, 47_pes_payload_resync.md R230)
  | pesStuffing
  | pesPayload
  -- BitReader (40_bitreader.md)
  | size
  | peek (n : Nat)
  | read (n : Nat)
  | readBytes (len : Nat)
  | offset
  | readAt (len pos : Nat)
  -- Field Model (41_field_model.md)
  | decode (spec : List (NodeName × Nat))
  | decodeNested (spec : List (NodeName × Nat)) (childName : NodeName)
  | get (name : NodeName)
  | skipBytes (n : Nat)
  -- host and consumer (48_host_ops.md)
  | start
  | reset
  | cancel (level : Bool)
  | parseDetail (offset : BitVec 64) (kind : PacketKind)
  | summaryRead
  | consumerPop (port : Port)
deriving DecidableEq, Repr

end Sys2Proof
end

