-- ==== Sys2Proof/WellFormed.lean ====
section
/-! DEFINITION. Which instruction terms stand for something the hardware can be given. The field widths are in the
types already; what is left is checked here. -/

namespace Sys2Proof

/-- One entry of a `decode` list: `1 <= bitLength <= 64` (41_field_model.md R131, R136). -/
def fieldWidthOk (w : Nat) : Bool := decide (1 ≤ w) && decide (w ≤ 64)

/-- A `decode` list: every width in range and no name twice, so that `get` has one answer (10_state.md R30). -/
def fieldSpecOk (spec : List (NodeName × Nat)) : Bool :=
  spec.all (fun e => fieldWidthOk e.2) && decide (spec.map Prod.fst).Nodup

/-- Well-formed instructions. A stream-detail record has the top bit of `stream_id` set by construction of the loop
that reads it (30_encoding.md R74, 44_system_header.md R171); a bit request has 1 to 64 bits (40_bitreader.md R113). -/
def Instr.wellFormed : Instr → Bool
  | .sysStream r => r.stream_id.msb
  | .peek n => fieldWidthOk n
  | .read n => fieldWidthOk n
  | .decode spec => fieldSpecOk spec
  | .decodeNested spec _ => fieldSpecOk spec
  | .pack => true
  | .sys => true
  | .psm => true
  | .vpes => true
  | .apes => true
  | .packBody _ => true
  | .sysFixed _ => true
  | .psmFixed _ => true
  | .psmEsmLength _ => true
  | .psmEntry _ => true
  | .psmCrc _ => true
  | .pesBase _ => true
  | .pesPts _ => true
  | .pesPtsDts _ => true
  | .pesEscr _ => true
  | .pesEsRate _ => true
  | .pesTrick0 _ => true
  | .pesTrick1 _ => true
  | .pesTrick2 _ => true
  | .pesTrick3 _ => true
  | .pesTrick4 _ => true
  | .pesTrick5 _ => true
  | .pesTrick6 _ => true
  | .pesTrick7 _ => true
  | .pesCopyInfo _ => true
  | .pesCrc _ => true
  | .pesExtFlags _ => true
  | .pesPrivateData _ => true
  | .pesPackField _ => true
  | .pesSeqCounter _ => true
  | .pesPStd _ => true
  | .pesExt2 _ => true
  | .pesStuffing => true
  | .pesPayload => true
  | .size => true
  | .readBytes _ => true
  | .offset => true
  | .readAt _ _ => true
  | .get _ => true
  | .skipBytes _ => true
  | .start => true
  | .reset => true
  | .cancel _ => true
  | .parseDetail _ _ => true
  | .summaryRead => true
  | .consumerPop _ => true

end Sys2Proof
end

