-- ==== Sys2Proof/Decode.lean ====
section
/-! DEFINITION. The decoder and, after it, the encoder. Decoding depends on where the demux task stands (30_encoding.md
R102): at the loop top 32 bits are a start code, before a record the record's bits are cut into its fields by the
[hi:lo] columns of 30_encoding.md. The encoder is written from the widths and the order of the same tables. -/

namespace Sys2Proof

/-- The context the bits at the cursor are decoded in: a start code is due, or a record is. -/
inductive Ctx where
  | startCode
  | record (r : Rec)
deriving DecidableEq, Repr

/-- Why the decoder rejects a string of bytes: a 32-bit value that is no recognised start code (30_encoding.md R100),
or fewer bytes than the context needs. -/
inductive DecodeError where
  | unknownStartCode (w : StartCode)
  | truncated (c : Ctx)
deriving DecidableEq, Repr

/-! ### Bit fields and byte order -/

/-- `rec[hi:lo]` of 00_scope.md R10. -/
def fld (rec hi lo : Nat) : Nat := rec / 2 ^ lo % 2 ^ (hi - lo + 1)

/-- The unsigned value of a string of bytes, the first byte the most significant (20_memory.md R52). -/
def beNat (bs : List Byte) : Nat := bs.foldl (fun acc b => acc * 256 + b.toNat) 0

/-- The `k` bytes of a number, most significant first: the inverse of `beNat` (20_memory.md R52). -/
def beBytes : Nat → Nat → List Byte
  | 0, _ => []
  | k + 1, v => BitVec.ofNat 8 (v / 256 ^ k) :: beBytes k v

/-- One field of a record as an operand: its name, its width and the value the bits have (30_encoding.md R96). -/
structure FieldVal where
  name : NodeName
  width : Nat
  value : Word
deriving DecidableEq, Repr

/-- A field operand from a typed value. -/
def FieldVal.of (f : FieldName) {w : Nat} (v : BitVec w) : FieldVal := ⟨.field f, w, BitVec.ofNat 64 v.toNat⟩

/-- Fields placed one after the other, the first field in the most significant bits (00_scope.md R10). -/
def packFields (fs : List FieldVal) : Nat := fs.foldl (fun acc f => acc * 2 ^ f.width + f.value.toNat) 0

/-! ### Start codes -/

/-- The start code of each packet kind (30_encoding.md R70). -/
def codeOfKind : PacketKind → StartCode
  | .packHeader => 0x000001BA
  | .systemHeader => 0x000001BB
  | .programStreamMap => 0x000001BC
  | .videoPES => 0x000001E0
  | .audioPES => 0x000001C0

/-- The recognised start codes (00_scope.md R8): all 32 bits take part in the match (30_encoding.md R70). -/
def kindOfCode (w : StartCode) : Option PacketKind :=
  if w = 0x000001BA then some .packHeader
  else if w = 0x000001BB then some .systemHeader
  else if w = 0x000001BC then some .programStreamMap
  else if w = 0x000001E0 then some .videoPES
  else if w = 0x000001C0 then some .audioPES
  else none

/-- The instruction a packet kind's start code is. -/
def startInstr : PacketKind → Instr
  | .packHeader => .pack
  | .systemHeader => .sys
  | .programStreamMap => .psm
  | .videoPES => .vpes
  | .audioPES => .apes

/-! ### Records -/

/-- The width in bits of each record (30_encoding.md R72 to R92). -/
def Rec.width : Rec → Nat
  | .packBody => 80
  | .sysFixed => 64
  | .sysStream => 24
  | .psmFixed => 48
  | .psmEsmLength => 16
  | .psmEntry => 32
  | .psmCrc => 32
  | .pesBase => 40
  | .pesPts => 40
  | .pesPtsDts => 80
  | .pesEscr => 48
  | .pesEsRate => 24
  | .pesTrick => 8
  | .pesCopyInfo => 8
  | .pesCrc => 16
  | .pesExtFlags => 8
  | .pesPrivateData => 128
  | .pesPackField => 8
  | .pesSeqCounter => 16
  | .pesPStd => 16
  | .pesExt2 => 8

/-- PACK.body by the [hi:lo] column of 30_encoding.md R72. -/
def decodePackBody (rec : Nat) : PackBody where
  fixed_01 := BitVec.ofNat 2 (fld rec 79 78)
  system_clock_reference_base_32_30 := BitVec.ofNat 3 (fld rec 77 75)
  marker_bit_1 := BitVec.ofNat 1 (fld rec 74 74)
  system_clock_reference_base_29_15 := BitVec.ofNat 15 (fld rec 73 59)
  marker_bit_2 := BitVec.ofNat 1 (fld rec 58 58)
  system_clock_reference_base_14_0 := BitVec.ofNat 15 (fld rec 57 43)
  marker_bit_3 := BitVec.ofNat 1 (fld rec 42 42)
  system_clock_reference_extension := BitVec.ofNat 9 (fld rec 41 33)
  marker_bit_4 := BitVec.ofNat 1 (fld rec 32 32)
  program_mux_rate := BitVec.ofNat 22 (fld rec 31 10)
  marker_bit_5 := BitVec.ofNat 1 (fld rec 9 9)
  marker_bit_6 := BitVec.ofNat 1 (fld rec 8 8)
  reserved := BitVec.ofNat 5 (fld rec 7 3)
  pack_stuffing_length := BitVec.ofNat 3 (fld rec 2 0)

/-- SYS.fixed by the [hi:lo] column of 30_encoding.md R73. -/
def decodeSysFixed (rec : Nat) : SysFixed where
  header_length := BitVec.ofNat 16 (fld rec 63 48)
  marker_bit_1 := BitVec.ofNat 1 (fld rec 47 47)
  rate_bound := BitVec.ofNat 22 (fld rec 46 25)
  marker_bit_2 := BitVec.ofNat 1 (fld rec 24 24)
  audio_bound := BitVec.ofNat 6 (fld rec 23 18)
  fixed_flag := BitVec.ofNat 1 (fld rec 17 17)
  CSPS_flag := BitVec.ofNat 1 (fld rec 16 16)
  system_audio_lock_flag := BitVec.ofNat 1 (fld rec 15 15)
  system_video_lock_flag := BitVec.ofNat 1 (fld rec 14 14)
  marker_bit_3 := BitVec.ofNat 1 (fld rec 13 13)
  video_bound := BitVec.ofNat 5 (fld rec 12 8)
  packet_rate_restriction_flag := BitVec.ofNat 1 (fld rec 7 7)
  reserved_bits := BitVec.ofNat 7 (fld rec 6 0)

/-- SYS.stream by the [hi:lo] column of 30_encoding.md R74. -/
def decodeSysStream (rec : Nat) : SysStream where
  stream_id := BitVec.ofNat 8 (fld rec 23 16)
  fixed_11 := BitVec.ofNat 2 (fld rec 15 14)
  P_STD_buffer_bound_scale := BitVec.ofNat 1 (fld rec 13 13)
  P_STD_buffer_size_bound := BitVec.ofNat 13 (fld rec 12 0)

/-- PSM.fixed by the [hi:lo] column of 30_encoding.md R75. -/
def decodePsmFixed (rec : Nat) : PsmFixed where
  program_stream_map_length := BitVec.ofNat 16 (fld rec 47 32)
  current_next_indicator := BitVec.ofNat 1 (fld rec 31 31)
  reserved_1 := BitVec.ofNat 2 (fld rec 30 29)
  program_stream_map_version := BitVec.ofNat 5 (fld rec 28 24)
  reserved_2 := BitVec.ofNat 7 (fld rec 23 17)
  marker_bit := BitVec.ofNat 1 (fld rec 16 16)
  program_stream_info_length := BitVec.ofNat 16 (fld rec 15 0)

/-- PSM.esm_length by the [hi:lo] column of 30_encoding.md R76. -/
def decodePsmEsmLength (rec : Nat) : PsmEsmLength where
  elementary_stream_map_length := BitVec.ofNat 16 (fld rec 15 0)

/-- PSM.entry by the [hi:lo] column of 30_encoding.md R77. -/
def decodePsmEntry (rec : Nat) : PsmEntry where
  stream_type := BitVec.ofNat 8 (fld rec 31 24)
  elementary_stream_id := BitVec.ofNat 8 (fld rec 23 16)
  elementary_stream_info_length := BitVec.ofNat 16 (fld rec 15 0)

/-- PSM.crc by the [hi:lo] column of 30_encoding.md R78. -/
def decodePsmCrc (rec : Nat) : PsmCrc where
  CRC_32 := BitVec.ofNat 32 (fld rec 31 0)

/-- PES.base by the [hi:lo] column of 30_encoding.md R79. -/
def decodePesBase (rec : Nat) : PesBase where
  PES_packet_length := BitVec.ofNat 16 (fld rec 39 24)
  fixed_10 := BitVec.ofNat 2 (fld rec 23 22)
  PES_scrambling_control := BitVec.ofNat 2 (fld rec 21 20)
  PES_priority := BitVec.ofNat 1 (fld rec 19 19)
  data_alignment_indicator := BitVec.ofNat 1 (fld rec 18 18)
  copyright := BitVec.ofNat 1 (fld rec 17 17)
  original_or_copy := BitVec.ofNat 1 (fld rec 16 16)
  PTS_DTS_flags := BitVec.ofNat 2 (fld rec 15 14)
  ESCR_flag := BitVec.ofNat 1 (fld rec 13 13)
  ES_rate_flag := BitVec.ofNat 1 (fld rec 12 12)
  DSM_trick_mode_flag := BitVec.ofNat 1 (fld rec 11 11)
  additional_copy_info_flag := BitVec.ofNat 1 (fld rec 10 10)
  PES_CRC_flag := BitVec.ofNat 1 (fld rec 9 9)
  PES_extension_flag := BitVec.ofNat 1 (fld rec 8 8)
  PES_header_data_length := BitVec.ofNat 8 (fld rec 7 0)

/-- PES.pts by the [hi:lo] column of 30_encoding.md R80. -/
def decodePesPts (rec : Nat) : PesPts where
  fixed_0010 := BitVec.ofNat 4 (fld rec 39 36)
  PTS_32_30 := BitVec.ofNat 3 (fld rec 35 33)
  PTS_marker_bit_1 := BitVec.ofNat 1 (fld rec 32 32)
  PTS_29_15 := BitVec.ofNat 15 (fld rec 31 17)
  PTS_marker_bit_2 := BitVec.ofNat 1 (fld rec 16 16)
  PTS_14_0 := BitVec.ofNat 15 (fld rec 15 1)
  PTS_marker_bit_3 := BitVec.ofNat 1 (fld rec 0 0)

/-- PES.pts_dts by the [hi:lo] column of 30_encoding.md R81. -/
def decodePesPtsDts (rec : Nat) : PesPtsDts where
  fixed_0011 := BitVec.ofNat 4 (fld rec 79 76)
  PTS_32_30 := BitVec.ofNat 3 (fld rec 75 73)
  PTS_marker_bit_1 := BitVec.ofNat 1 (fld rec 72 72)
  PTS_29_15 := BitVec.ofNat 15 (fld rec 71 57)
  PTS_marker_bit_2 := BitVec.ofNat 1 (fld rec 56 56)
  PTS_14_0 := BitVec.ofNat 15 (fld rec 55 41)
  PTS_marker_bit_3 := BitVec.ofNat 1 (fld rec 40 40)
  fixed_0001 := BitVec.ofNat 4 (fld rec 39 36)
  DTS_32_30 := BitVec.ofNat 3 (fld rec 35 33)
  DTS_marker_bit_1 := BitVec.ofNat 1 (fld rec 32 32)
  DTS_29_15 := BitVec.ofNat 15 (fld rec 31 17)
  DTS_marker_bit_2 := BitVec.ofNat 1 (fld rec 16 16)
  DTS_14_0 := BitVec.ofNat 15 (fld rec 15 1)
  DTS_marker_bit_3 := BitVec.ofNat 1 (fld rec 0 0)

/-- PES.escr by the [hi:lo] column of 30_encoding.md R82. -/
def decodePesEscr (rec : Nat) : PesEscr where
  ESCR_reserved := BitVec.ofNat 2 (fld rec 47 46)
  ESCR_base_32_30 := BitVec.ofNat 3 (fld rec 45 43)
  ESCR_marker_bit_1 := BitVec.ofNat 1 (fld rec 42 42)
  ESCR_base_29_15 := BitVec.ofNat 15 (fld rec 41 27)
  ESCR_marker_bit_2 := BitVec.ofNat 1 (fld rec 26 26)
  ESCR_base_14_0 := BitVec.ofNat 15 (fld rec 25 11)
  ESCR_marker_bit_3 := BitVec.ofNat 1 (fld rec 10 10)
  ESCR_extension := BitVec.ofNat 9 (fld rec 9 1)
  ESCR_marker_bit_4 := BitVec.ofNat 1 (fld rec 0 0)

/-- PES.es_rate by the [hi:lo] column of 30_encoding.md R83. -/
def decodePesEsRate (rec : Nat) : PesEsRate where
  ES_rate_marker_bit_1 := BitVec.ofNat 1 (fld rec 23 23)
  ES_rate := BitVec.ofNat 22 (fld rec 22 1)
  ES_rate_marker_bit_2 := BitVec.ofNat 1 (fld rec 0 0)

/-- PES.trick_0 by the [hi:lo] column of 30_encoding.md R84. -/
def decodePesTrick0 (rec : Nat) : PesTrick0 where
  field_id := BitVec.ofNat 2 (fld rec 4 3)
  intra_slice_refresh := BitVec.ofNat 1 (fld rec 2 2)
  frequency_truncation := BitVec.ofNat 2 (fld rec 1 0)

/-- PES.trick_1 by the [hi:lo] column of 30_encoding.md R84. -/
def decodePesTrick1 (rec : Nat) : PesTrick1 where
  rep_cntrl := BitVec.ofNat 5 (fld rec 4 0)

/-- PES.trick_2 by the [hi:lo] column of 30_encoding.md R84. -/
def decodePesTrick2 (rec : Nat) : PesTrick2 where
  field_id := BitVec.ofNat 2 (fld rec 4 3)
  trick_reserved := BitVec.ofNat 3 (fld rec 2 0)

/-- PES.trick_3 by the [hi:lo] column of 30_encoding.md R84. -/
def decodePesTrick3 (rec : Nat) : PesTrick3 where
  field_id := BitVec.ofNat 2 (fld rec 4 3)
  intra_slice_refresh := BitVec.ofNat 1 (fld rec 2 2)
  frequency_truncation := BitVec.ofNat 2 (fld rec 1 0)

/-- PES.trick_4 by the [hi:lo] column of 30_encoding.md R84. -/
def decodePesTrick4 (rec : Nat) : PesTrick4 where
  rep_cntrl := BitVec.ofNat 5 (fld rec 4 0)

/-- PES.trick_5 by the [hi:lo] column of 30_encoding.md R84. -/
def decodePesTrick5 (rec : Nat) : PesTrick5 where
  trick_reserved := BitVec.ofNat 5 (fld rec 4 0)

/-- PES.trick_6 by the [hi:lo] column of 30_encoding.md R84. -/
def decodePesTrick6 (rec : Nat) : PesTrick6 where
  trick_reserved := BitVec.ofNat 5 (fld rec 4 0)

/-- PES.trick_7 by the [hi:lo] column of 30_encoding.md R84. -/
def decodePesTrick7 (rec : Nat) : PesTrick7 where
  trick_reserved := BitVec.ofNat 5 (fld rec 4 0)

/-- PES.copy_info by the [hi:lo] column of 30_encoding.md R85. -/
def decodePesCopyInfo (rec : Nat) : PesCopyInfo where
  copy_info_marker_bit := BitVec.ofNat 1 (fld rec 7 7)
  additional_copy_info := BitVec.ofNat 7 (fld rec 6 0)

/-- PES.crc by the [hi:lo] column of 30_encoding.md R86. -/
def decodePesCrc (rec : Nat) : PesCrc where
  previous_PES_packet_CRC := BitVec.ofNat 16 (fld rec 15 0)

/-- PES.ext_flags by the [hi:lo] column of 30_encoding.md R87. -/
def decodePesExtFlags (rec : Nat) : PesExtFlags where
  PES_private_data_flag := BitVec.ofNat 1 (fld rec 7 7)
  pack_header_field_flag := BitVec.ofNat 1 (fld rec 6 6)
  program_packet_sequence_counter_flag := BitVec.ofNat 1 (fld rec 5 5)
  P_STD_buffer_flag := BitVec.ofNat 1 (fld rec 4 4)
  PES_extension_reserved := BitVec.ofNat 3 (fld rec 3 1)
  PES_extension_flag_2 := BitVec.ofNat 1 (fld rec 0 0)

/-- PES.private_data, 30_encoding.md R88: sixteen bytes, kept as one operand. -/
def decodePesPrivateData (rec : Nat) : PesPrivateData where
  data := BitVec.ofNat 128 (fld rec 127 0)

/-- PES.pack_field by the [hi:lo] column of 30_encoding.md R89. -/
def decodePesPackField (rec : Nat) : PesPackField where
  pack_field_length := BitVec.ofNat 8 (fld rec 7 0)

/-- PES.seq_counter by the [hi:lo] column of 30_encoding.md R90. -/
def decodePesSeqCounter (rec : Nat) : PesSeqCounter where
  seq_marker_bit_1 := BitVec.ofNat 1 (fld rec 15 15)
  program_packet_sequence_counter := BitVec.ofNat 7 (fld rec 14 8)
  seq_marker_bit_2 := BitVec.ofNat 1 (fld rec 7 7)
  MPEG1_MPEG2_identifier := BitVec.ofNat 1 (fld rec 6 6)
  original_stuff_length := BitVec.ofNat 6 (fld rec 5 0)

/-- PES.p_std by the [hi:lo] column of 30_encoding.md R91. -/
def decodePesPStd (rec : Nat) : PesPStd where
  fixed_01 := BitVec.ofNat 2 (fld rec 15 14)
  P_STD_buffer_scale := BitVec.ofNat 1 (fld rec 13 13)
  P_STD_buffer_size := BitVec.ofNat 13 (fld rec 12 0)

/-- PES.ext2 by the [hi:lo] column of 30_encoding.md R92. -/
def decodePesExt2 (rec : Nat) : PesExt2 where
  ext2_marker_bit := BitVec.ofNat 1 (fld rec 7 7)
  PES_extension_field_length := BitVec.ofNat 7 (fld rec 6 0)

/-- The trick-mode byte: `trick_mode_control` [7:5] selects the tail (30_encoding.md R84). 93_implementation_defined.md
Part 3 counts selector 4 among those with a reserved tail; R84 and R204 are followed (log entry 31). -/
def decodeTrick (rec : Nat) : Instr :=
  match fld rec 7 5 with
  | 0 => .pesTrick0 (decodePesTrick0 rec)
  | 1 => .pesTrick1 (decodePesTrick1 rec)
  | 2 => .pesTrick2 (decodePesTrick2 rec)
  | 3 => .pesTrick3 (decodePesTrick3 rec)
  | 4 => .pesTrick4 (decodePesTrick4 rec)
  | 5 => .pesTrick5 (decodePesTrick5 rec)
  | 6 => .pesTrick6 (decodePesTrick6 rec)
  | _ => .pesTrick7 (decodePesTrick7 rec)

/-- A record's bits, as one number of `r.width` bits, to its instruction. No value is checked (30_encoding.md R99). -/
def decodeRecord : Rec → Nat → Instr
  | .packBody, rec => .packBody (decodePackBody rec)
  | .sysFixed, rec => .sysFixed (decodeSysFixed rec)
  | .sysStream, rec => .sysStream (decodeSysStream rec)
  | .psmFixed, rec => .psmFixed (decodePsmFixed rec)
  | .psmEsmLength, rec => .psmEsmLength (decodePsmEsmLength rec)
  | .psmEntry, rec => .psmEntry (decodePsmEntry rec)
  | .psmCrc, rec => .psmCrc (decodePsmCrc rec)
  | .pesBase, rec => .pesBase (decodePesBase rec)
  | .pesPts, rec => .pesPts (decodePesPts rec)
  | .pesPtsDts, rec => .pesPtsDts (decodePesPtsDts rec)
  | .pesEscr, rec => .pesEscr (decodePesEscr rec)
  | .pesEsRate, rec => .pesEsRate (decodePesEsRate rec)
  | .pesTrick, rec => decodeTrick rec
  | .pesCopyInfo, rec => .pesCopyInfo (decodePesCopyInfo rec)
  | .pesCrc, rec => .pesCrc (decodePesCrc rec)
  | .pesExtFlags, rec => .pesExtFlags (decodePesExtFlags rec)
  | .pesPrivateData, rec => .pesPrivateData (decodePesPrivateData rec)
  | .pesPackField, rec => .pesPackField (decodePesPackField rec)
  | .pesSeqCounter, rec => .pesSeqCounter (decodePesSeqCounter rec)
  | .pesPStd, rec => .pesPStd (decodePesPStd rec)
  | .pesExt2, rec => .pesExt2 (decodePesExt2 rec)

/-! ### The decoder -/

/-- How many bytes the context reads. -/
def Ctx.bytes : Ctx → Nat
  | .startCode => 4
  | .record r => r.width / 8

/-- The bits of one start code or record, as a number, to an instruction or a rejection by name. -/
def decodeWord : Ctx → Nat → Except DecodeError Instr
  | .startCode, w =>
    match kindOfCode (BitVec.ofNat 32 w) with
    | some k => .ok (startInstr k)
    | none => .error (.unknownStartCode (BitVec.ofNat 32 w))
  | .record r, w => .ok (decodeRecord r w)

/-- The decoder: total on any bytes; answers the instruction and the bytes after it. -/
def decode (c : Ctx) (bs : List Byte) : Except DecodeError (Instr × List Byte) :=
  if bs.length < c.bytes then .error (.truncated c)
  else
    match decodeWord c (beNat (bs.take c.bytes)) with
    | .ok i => .ok (i, bs.drop c.bytes)
    | .error e => .error e

/-! ### The encoder -/

/-- The fields of PACK.body, in stream order (30_encoding.md R72). -/
def fieldsOfPackBody (r : PackBody) : List FieldVal :=
  [.of .fixed_01 r.fixed_01, .of .system_clock_reference_base_32_30 r.system_clock_reference_base_32_30,
   .of .marker_bit_1 r.marker_bit_1,
   .of .system_clock_reference_base_29_15 r.system_clock_reference_base_29_15,
   .of .marker_bit_2 r.marker_bit_2, .of .system_clock_reference_base_14_0 r.system_clock_reference_base_14_0,
   .of .marker_bit_3 r.marker_bit_3, .of .system_clock_reference_extension r.system_clock_reference_extension,
   .of .marker_bit_4 r.marker_bit_4, .of .program_mux_rate r.program_mux_rate,
   .of .marker_bit_5 r.marker_bit_5, .of .marker_bit_6 r.marker_bit_6, .of .reserved r.reserved,
   .of .pack_stuffing_length r.pack_stuffing_length]

/-- The fields of SYS.fixed, in stream order (30_encoding.md R73). -/
def fieldsOfSysFixed (r : SysFixed) : List FieldVal :=
  [.of .header_length r.header_length, .of .marker_bit_1 r.marker_bit_1, .of .rate_bound r.rate_bound,
   .of .marker_bit_2 r.marker_bit_2, .of .audio_bound r.audio_bound, .of .fixed_flag r.fixed_flag,
   .of .CSPS_flag r.CSPS_flag, .of .system_audio_lock_flag r.system_audio_lock_flag,
   .of .system_video_lock_flag r.system_video_lock_flag, .of .marker_bit_3 r.marker_bit_3,
   .of .video_bound r.video_bound, .of .packet_rate_restriction_flag r.packet_rate_restriction_flag,
   .of .reserved_bits r.reserved_bits]

/-- The fields of SYS.stream, in stream order (30_encoding.md R74). -/
def fieldsOfSysStream (r : SysStream) : List FieldVal :=
  [.of .stream_id r.stream_id, .of .fixed_11 r.fixed_11,
   .of .P_STD_buffer_bound_scale r.P_STD_buffer_bound_scale,
   .of .P_STD_buffer_size_bound r.P_STD_buffer_size_bound]

/-- The fields of PSM.fixed, in stream order (30_encoding.md R75). -/
def fieldsOfPsmFixed (r : PsmFixed) : List FieldVal :=
  [.of .program_stream_map_length r.program_stream_map_length,
   .of .current_next_indicator r.current_next_indicator, .of .reserved_1 r.reserved_1,
   .of .program_stream_map_version r.program_stream_map_version, .of .reserved_2 r.reserved_2,
   .of .marker_bit r.marker_bit, .of .program_stream_info_length r.program_stream_info_length]

/-- The fields of PSM.esm_length, in stream order (30_encoding.md R76). -/
def fieldsOfPsmEsmLength (r : PsmEsmLength) : List FieldVal :=
  [.of .elementary_stream_map_length r.elementary_stream_map_length]

/-- The fields of PSM.entry, in stream order (30_encoding.md R77). -/
def fieldsOfPsmEntry (r : PsmEntry) : List FieldVal :=
  [.of .stream_type r.stream_type, .of .elementary_stream_id r.elementary_stream_id,
   .of .elementary_stream_info_length r.elementary_stream_info_length]

/-- The fields of PSM.crc, in stream order (30_encoding.md R78). -/
def fieldsOfPsmCrc (r : PsmCrc) : List FieldVal :=
  [.of .CRC_32 r.CRC_32]

/-- The fields of PES.base, in stream order (30_encoding.md R79). -/
def fieldsOfPesBase (r : PesBase) : List FieldVal :=
  [.of .PES_packet_length r.PES_packet_length, .of .fixed_10 r.fixed_10,
   .of .PES_scrambling_control r.PES_scrambling_control, .of .PES_priority r.PES_priority,
   .of .data_alignment_indicator r.data_alignment_indicator, .of .copyright r.copyright,
   .of .original_or_copy r.original_or_copy, .of .PTS_DTS_flags r.PTS_DTS_flags, .of .ESCR_flag r.ESCR_flag,
   .of .ES_rate_flag r.ES_rate_flag, .of .DSM_trick_mode_flag r.DSM_trick_mode_flag,
   .of .additional_copy_info_flag r.additional_copy_info_flag, .of .PES_CRC_flag r.PES_CRC_flag,
   .of .PES_extension_flag r.PES_extension_flag, .of .PES_header_data_length r.PES_header_data_length]

/-- The fields of PES.pts, in stream order (30_encoding.md R80). -/
def fieldsOfPesPts (r : PesPts) : List FieldVal :=
  [.of .fixed_0010 r.fixed_0010, .of .PTS_32_30 r.PTS_32_30, .of .PTS_marker_bit_1 r.PTS_marker_bit_1,
   .of .PTS_29_15 r.PTS_29_15, .of .PTS_marker_bit_2 r.PTS_marker_bit_2, .of .PTS_14_0 r.PTS_14_0,
   .of .PTS_marker_bit_3 r.PTS_marker_bit_3]

/-- The fields of PES.pts_dts, in stream order (30_encoding.md R81). -/
def fieldsOfPesPtsDts (r : PesPtsDts) : List FieldVal :=
  [.of .fixed_0011 r.fixed_0011, .of .PTS_32_30 r.PTS_32_30, .of .PTS_marker_bit_1 r.PTS_marker_bit_1,
   .of .PTS_29_15 r.PTS_29_15, .of .PTS_marker_bit_2 r.PTS_marker_bit_2, .of .PTS_14_0 r.PTS_14_0,
   .of .PTS_marker_bit_3 r.PTS_marker_bit_3, .of .fixed_0001 r.fixed_0001, .of .DTS_32_30 r.DTS_32_30,
   .of .DTS_marker_bit_1 r.DTS_marker_bit_1, .of .DTS_29_15 r.DTS_29_15,
   .of .DTS_marker_bit_2 r.DTS_marker_bit_2, .of .DTS_14_0 r.DTS_14_0, .of .DTS_marker_bit_3 r.DTS_marker_bit_3]

/-- The fields of PES.escr, in stream order (30_encoding.md R82). -/
def fieldsOfPesEscr (r : PesEscr) : List FieldVal :=
  [.of .ESCR_reserved r.ESCR_reserved, .of .ESCR_base_32_30 r.ESCR_base_32_30,
   .of .ESCR_marker_bit_1 r.ESCR_marker_bit_1, .of .ESCR_base_29_15 r.ESCR_base_29_15,
   .of .ESCR_marker_bit_2 r.ESCR_marker_bit_2, .of .ESCR_base_14_0 r.ESCR_base_14_0,
   .of .ESCR_marker_bit_3 r.ESCR_marker_bit_3, .of .ESCR_extension r.ESCR_extension,
   .of .ESCR_marker_bit_4 r.ESCR_marker_bit_4]

/-- The fields of PES.es_rate, in stream order (30_encoding.md R83). -/
def fieldsOfPesEsRate (r : PesEsRate) : List FieldVal :=
  [.of .ES_rate_marker_bit_1 r.ES_rate_marker_bit_1, .of .ES_rate r.ES_rate,
   .of .ES_rate_marker_bit_2 r.ES_rate_marker_bit_2]

/-- The fields of PES.trick_0, in stream order (30_encoding.md R84). -/
def fieldsOfPesTrick0 (r : PesTrick0) : List FieldVal :=
  [.of .trick_mode_control (0 : BitVec 3), .of .field_id r.field_id,
   .of .intra_slice_refresh r.intra_slice_refresh, .of .frequency_truncation r.frequency_truncation]

/-- The fields of PES.trick_1, in stream order (30_encoding.md R84). -/
def fieldsOfPesTrick1 (r : PesTrick1) : List FieldVal :=
  [.of .trick_mode_control (1 : BitVec 3), .of .rep_cntrl r.rep_cntrl]

/-- The fields of PES.trick_2, in stream order (30_encoding.md R84). -/
def fieldsOfPesTrick2 (r : PesTrick2) : List FieldVal :=
  [.of .trick_mode_control (2 : BitVec 3), .of .field_id r.field_id, .of .trick_reserved r.trick_reserved]

/-- The fields of PES.trick_3, in stream order (30_encoding.md R84). -/
def fieldsOfPesTrick3 (r : PesTrick3) : List FieldVal :=
  [.of .trick_mode_control (3 : BitVec 3), .of .field_id r.field_id,
   .of .intra_slice_refresh r.intra_slice_refresh, .of .frequency_truncation r.frequency_truncation]

/-- The fields of PES.trick_4, in stream order (30_encoding.md R84): the tail is `rep_cntrl` (log entry 31). -/
def fieldsOfPesTrick4 (r : PesTrick4) : List FieldVal :=
  [.of .trick_mode_control (4 : BitVec 3), .of .rep_cntrl r.rep_cntrl]

/-- The fields of PES.trick_5, in stream order (30_encoding.md R84). -/
def fieldsOfPesTrick5 (r : PesTrick5) : List FieldVal :=
  [.of .trick_mode_control (5 : BitVec 3), .of .trick_reserved r.trick_reserved]

/-- The fields of PES.trick_6, in stream order (30_encoding.md R84). -/
def fieldsOfPesTrick6 (r : PesTrick6) : List FieldVal :=
  [.of .trick_mode_control (6 : BitVec 3), .of .trick_reserved r.trick_reserved]

/-- The fields of PES.trick_7, in stream order (30_encoding.md R84). -/
def fieldsOfPesTrick7 (r : PesTrick7) : List FieldVal :=
  [.of .trick_mode_control (7 : BitVec 3), .of .trick_reserved r.trick_reserved]

/-- The fields of PES.copy_info, in stream order (30_encoding.md R85). -/
def fieldsOfPesCopyInfo (r : PesCopyInfo) : List FieldVal :=
  [.of .copy_info_marker_bit r.copy_info_marker_bit, .of .additional_copy_info r.additional_copy_info]

/-- The fields of PES.crc, in stream order (30_encoding.md R86). -/
def fieldsOfPesCrc (r : PesCrc) : List FieldVal :=
  [.of .previous_PES_packet_CRC r.previous_PES_packet_CRC]

/-- The fields of PES.ext_flags, in stream order (30_encoding.md R87). -/
def fieldsOfPesExtFlags (r : PesExtFlags) : List FieldVal :=
  [.of .PES_private_data_flag r.PES_private_data_flag, .of .pack_header_field_flag r.pack_header_field_flag,
   .of .program_packet_sequence_counter_flag r.program_packet_sequence_counter_flag,
   .of .P_STD_buffer_flag r.P_STD_buffer_flag, .of .PES_extension_reserved r.PES_extension_reserved,
   .of .PES_extension_flag_2 r.PES_extension_flag_2]

/-- The fields of PES.pack_field, in stream order (30_encoding.md R89). -/
def fieldsOfPesPackField (r : PesPackField) : List FieldVal :=
  [.of .pack_field_length r.pack_field_length]

/-- The fields of PES.seq_counter, in stream order (30_encoding.md R90). -/
def fieldsOfPesSeqCounter (r : PesSeqCounter) : List FieldVal :=
  [.of .seq_marker_bit_1 r.seq_marker_bit_1,
   .of .program_packet_sequence_counter r.program_packet_sequence_counter,
   .of .seq_marker_bit_2 r.seq_marker_bit_2, .of .MPEG1_MPEG2_identifier r.MPEG1_MPEG2_identifier,
   .of .original_stuff_length r.original_stuff_length]

/-- The fields of PES.p_std, in stream order (30_encoding.md R91). -/
def fieldsOfPesPStd (r : PesPStd) : List FieldVal :=
  [.of .fixed_01 r.fixed_01, .of .P_STD_buffer_scale r.P_STD_buffer_scale,
   .of .P_STD_buffer_size r.P_STD_buffer_size]

/-- The fields of PES.ext2, in stream order (30_encoding.md R92). -/
def fieldsOfPesExt2 (r : PesExt2) : List FieldVal :=
  [.of .ext2_marker_bit r.ext2_marker_bit, .of .PES_extension_field_length r.PES_extension_field_length]

/-- The field registers an instruction carries as operands; none for an operation without an encoding and for the
sixteen bytes of private data, which are not fields (30_encoding.md R88). -/
def Instr.fields : Instr → List FieldVal
  | .packBody r => fieldsOfPackBody r
  | .sysFixed r => fieldsOfSysFixed r
  | .sysStream r => fieldsOfSysStream r
  | .psmFixed r => fieldsOfPsmFixed r
  | .psmEsmLength r => fieldsOfPsmEsmLength r
  | .psmEntry r => fieldsOfPsmEntry r
  | .psmCrc r => fieldsOfPsmCrc r
  | .pesBase r => fieldsOfPesBase r
  | .pesPts r => fieldsOfPesPts r
  | .pesPtsDts r => fieldsOfPesPtsDts r
  | .pesEscr r => fieldsOfPesEscr r
  | .pesEsRate r => fieldsOfPesEsRate r
  | .pesTrick0 r => fieldsOfPesTrick0 r
  | .pesTrick1 r => fieldsOfPesTrick1 r
  | .pesTrick2 r => fieldsOfPesTrick2 r
  | .pesTrick3 r => fieldsOfPesTrick3 r
  | .pesTrick4 r => fieldsOfPesTrick4 r
  | .pesTrick5 r => fieldsOfPesTrick5 r
  | .pesTrick6 r => fieldsOfPesTrick6 r
  | .pesTrick7 r => fieldsOfPesTrick7 r
  | .pesCopyInfo r => fieldsOfPesCopyInfo r
  | .pesCrc r => fieldsOfPesCrc r
  | .pesExtFlags r => fieldsOfPesExtFlags r
  | .pesPrivateData _ => []
  | .pesPackField r => fieldsOfPesPackField r
  | .pesSeqCounter r => fieldsOfPesSeqCounter r
  | .pesPStd r => fieldsOfPesPStd r
  | .pesExt2 r => fieldsOfPesExt2 r
  | .pack => []
  | .sys => []
  | .psm => []
  | .vpes => []
  | .apes => []
  | .pesStuffing => []
  | .pesPayload => []
  | .size => []
  | .peek _ => []
  | .read _ => []
  | .readBytes _ => []
  | .offset => []
  | .readAt _ _ => []
  | .decode _ => []
  | .decodeNested _ _ => []
  | .get _ => []
  | .skipBytes _ => []
  | .start => []
  | .reset => []
  | .cancel _ => []
  | .parseDetail _ _ => []
  | .summaryRead => []
  | .consumerPop _ => []

/-- Where an instruction's words stand in a stream: at a start code, at a record, or nowhere (the operations, the
stuffing and the payload have no encoding: spec/opcode_table.json). -/
def Instr.ctx : Instr → Option Ctx
  | .pack => some .startCode
  | .sys => some .startCode
  | .psm => some .startCode
  | .vpes => some .startCode
  | .apes => some .startCode
  | .packBody _ => some (.record .packBody)
  | .sysFixed _ => some (.record .sysFixed)
  | .sysStream _ => some (.record .sysStream)
  | .psmFixed _ => some (.record .psmFixed)
  | .psmEsmLength _ => some (.record .psmEsmLength)
  | .psmEntry _ => some (.record .psmEntry)
  | .psmCrc _ => some (.record .psmCrc)
  | .pesBase _ => some (.record .pesBase)
  | .pesPts _ => some (.record .pesPts)
  | .pesPtsDts _ => some (.record .pesPtsDts)
  | .pesEscr _ => some (.record .pesEscr)
  | .pesEsRate _ => some (.record .pesEsRate)
  | .pesTrick0 _ => some (.record .pesTrick)
  | .pesTrick1 _ => some (.record .pesTrick)
  | .pesTrick2 _ => some (.record .pesTrick)
  | .pesTrick3 _ => some (.record .pesTrick)
  | .pesTrick4 _ => some (.record .pesTrick)
  | .pesTrick5 _ => some (.record .pesTrick)
  | .pesTrick6 _ => some (.record .pesTrick)
  | .pesTrick7 _ => some (.record .pesTrick)
  | .pesCopyInfo _ => some (.record .pesCopyInfo)
  | .pesCrc _ => some (.record .pesCrc)
  | .pesExtFlags _ => some (.record .pesExtFlags)
  | .pesPrivateData _ => some (.record .pesPrivateData)
  | .pesPackField _ => some (.record .pesPackField)
  | .pesSeqCounter _ => some (.record .pesSeqCounter)
  | .pesPStd _ => some (.record .pesPStd)
  | .pesExt2 _ => some (.record .pesExt2)
  | .pesStuffing => none
  | .pesPayload => none
  | .size => none
  | .peek _ => none
  | .read _ => none
  | .readBytes _ => none
  | .offset => none
  | .readAt _ _ => none
  | .decode _ => none
  | .decodeNested _ _ => none
  | .get _ => none
  | .skipBytes _ => none
  | .start => none
  | .reset => none
  | .cancel _ => none
  | .parseDetail _ _ => none
  | .summaryRead => none
  | .consumerPop _ => none

/-- The number an instruction's bits make: a start code, or its fields side by side. -/
def Instr.word : Instr → Nat
  | .pack => (codeOfKind .packHeader).toNat
  | .sys => (codeOfKind .systemHeader).toNat
  | .psm => (codeOfKind .programStreamMap).toNat
  | .vpes => (codeOfKind .videoPES).toNat
  | .apes => (codeOfKind .audioPES).toNat
  | .pesPrivateData r => r.data.toNat
  | .packBody r => packFields (fieldsOfPackBody r)
  | .sysFixed r => packFields (fieldsOfSysFixed r)
  | .sysStream r => packFields (fieldsOfSysStream r)
  | .psmFixed r => packFields (fieldsOfPsmFixed r)
  | .psmEsmLength r => packFields (fieldsOfPsmEsmLength r)
  | .psmEntry r => packFields (fieldsOfPsmEntry r)
  | .psmCrc r => packFields (fieldsOfPsmCrc r)
  | .pesBase r => packFields (fieldsOfPesBase r)
  | .pesPts r => packFields (fieldsOfPesPts r)
  | .pesPtsDts r => packFields (fieldsOfPesPtsDts r)
  | .pesEscr r => packFields (fieldsOfPesEscr r)
  | .pesEsRate r => packFields (fieldsOfPesEsRate r)
  | .pesTrick0 r => packFields (fieldsOfPesTrick0 r)
  | .pesTrick1 r => packFields (fieldsOfPesTrick1 r)
  | .pesTrick2 r => packFields (fieldsOfPesTrick2 r)
  | .pesTrick3 r => packFields (fieldsOfPesTrick3 r)
  | .pesTrick4 r => packFields (fieldsOfPesTrick4 r)
  | .pesTrick5 r => packFields (fieldsOfPesTrick5 r)
  | .pesTrick6 r => packFields (fieldsOfPesTrick6 r)
  | .pesTrick7 r => packFields (fieldsOfPesTrick7 r)
  | .pesCopyInfo r => packFields (fieldsOfPesCopyInfo r)
  | .pesCrc r => packFields (fieldsOfPesCrc r)
  | .pesExtFlags r => packFields (fieldsOfPesExtFlags r)
  | .pesPackField r => packFields (fieldsOfPesPackField r)
  | .pesSeqCounter r => packFields (fieldsOfPesSeqCounter r)
  | .pesPStd r => packFields (fieldsOfPesPStd r)
  | .pesExt2 r => packFields (fieldsOfPesExt2 r)
  | .pesStuffing => 0
  | .pesPayload => 0
  | .size => 0
  | .peek _ => 0
  | .read _ => 0
  | .readBytes _ => 0
  | .offset => 0
  | .readAt _ _ => 0
  | .decode _ => 0
  | .decodeNested _ _ => 0
  | .get _ => 0
  | .skipBytes _ => 0
  | .start => 0
  | .reset => 0
  | .cancel _ => 0
  | .parseDetail _ _ => 0
  | .summaryRead => 0
  | .consumerPop _ => 0

/-- The bytes of an instruction in the stream, first byte first; empty for an instruction that has no encoding. -/
def encode (i : Instr) : List Byte :=
  match i.ctx with
  | some c => beBytes c.bytes i.word
  | none => []

/-! ### The opcode table's words -/

/-- The context in which a table row of `nbits` bits is decoded: 32 bits are a start code and 8 bits the trick-mode byte,
the rows whose fixed bits name them; another width is taken as the first row of the table that has it (log entry 22). -/
def tableCtx : Nat → Option Ctx
  | 8 => some (.record .pesTrick)
  | 16 => some (.record .psmEsmLength)
  | 24 => some (.record .sysStream)
  | 32 => some .startCode
  | 40 => some (.record .pesBase)
  | 48 => some (.record .psmFixed)
  | 64 => some (.record .sysFixed)
  | 80 => some (.record .packBody)
  | 128 => some (.record .pesPrivateData)
  | _ => none

/-- The instruction the decoder reads from a row's bits: a row is one number, its first stream bit the most significant
(00_scope.md R10), so its bytes are laid out most significant first. -/
def decodeTableWord (nbits w : Nat) : Option Instr :=
  match tableCtx nbits with
  | some c =>
    match decode c (beBytes c.bytes w) with
    | .ok (i, _) => some i
    | .error _ => none
  | none => none

end Sys2Proof
end

