-- ==== Sys2Proof/Config.lean ====
section
/-! DEFINITION. What an implementation fixes and the spec leaves open. The two capacities have no body: nothing can be
proved of their values, so whatever is proved of the machine after reset holds for every implementation. -/

namespace Sys2Proof

/-- QDEPTH - 1, the event queue's slots beyond the first: QDEPTH is OPEN with QDEPTH >= 1 (00_scope.md R7,
92_eei_decisions.md D4). Log entry 3. -/
opaque Config.qdepthLess1 : Nat

/-- The capacity of the ES port less one: unnamed in the spec, at least one record (10_state.md R40,
92_eei_decisions.md D4). Log entry 3. -/
opaque Config.esDepthLess1 : Nat

end Sys2Proof
end

