-- ==== Sys2Proof/Machine/State.lean ====
section
/-! DEFINITION. The machine's state as plain data (10_state.md), the reasons a step can stop, and the state after
reset (10_state.md R45). The source, SIZE, CANCEL and the queue capacities are inputs and parameters of the step
relation (10_state.md R26); they stand in `env` because a step is given nothing but the state (log entry 2). -/

namespace Sys2Proof.Machine

/-! ### Errors, phases and stops -/

/-- The errors of 60_exceptions.md R266. The first five are fatal, the last is recoverable. -/
inductive Err where
  | requestTooLong
  | unexpectedEndOfData
  | unknownStartCode
  | checkLength
  | formatMismatch
  | payloadLengthInvalid
deriving DecidableEq, Repr

/-- The run phases of 10_state.md R32. -/
inductive Phase where
  | idle
  | running
  | done
  | aborted
  | cancelled
deriving DecidableEq, Repr

/-- This machine has no fault that stops it: every error the spec names is an exception whose entry the spec describes
(60_exceptions.md R267, R273) and ends in a next state, so the type is empty. Safe: nothing raises it. -/
inductive Fault where
deriving DecidableEq, Repr

/-- Why a step has no result. All but the first are requests 93_implementation_defined.md Part 1 says a model refuses. -/
inductive Refusal where
  /-- An arm of `exec` without a meaning. Safe. -/
  | notModelled (mnemonic : String)
  /-- U1: `peek(n)` or `read(n)`, n <= 64, with n + (bitpos mod 8) > 64 (40_bitreader.md R116). Raised by the BitReader; safe. -/
  | windowLimit
  /-- U2: `readBytes` at a cursor that is not byte-aligned (40_bitreader.md R117). Raised by the BitReader; safe. -/
  | unalignedReadBytes
  /-- U3: `offset()` at a cursor that is not byte-aligned (40_bitreader.md R118). Raised by the BitReader; safe. -/
  | unalignedOffset
  /-- U4: a request of 0 bits (40_bitreader.md R122). Raised by the BitReader; safe. -/
  | zeroBits
  /-- U5: `get` of a name not decoded (41_field_model.md R133). Raised by the Field Model; safe. -/
  | absentName
deriving DecidableEq, Repr

/-! ### The source -/

/-- The source as seen from its port (10_state.md R38): SIZE and the bytes, listed by address. An address below SIZE that
is not listed holds 0x00 (log entry 1); an address at or above SIZE does not exist (20_memory.md R51). -/
structure Memory where
  cells : List Host.Cell
  size : Word
deriving DecidableEq, Repr

/-- The canonical form: addresses strictly rising, no listed byte equal to what an unlisted address reads as, and no
address at or above SIZE. -/
def Memory.wf (m : Memory) : Bool :=
  decide (m.cells.Pairwise (fun a b => a.1 < b.1)) && m.cells.all (fun c => c.2 != 0 && decide (c.1 < m.size.toNat))

/-! ### The BitReader -/

/-- The cursor and the datapath registers (10_state.md R21, R23, R24). -/
structure Reader where
  bitpos : Nat
  window : Word
  remaining : BitVec 7
  srcCursor : Word
deriving DecidableEq, Repr

/-! ### The Field Tree -/

/-- A node without children: a field of a nested child. -/
structure Leaf where
  name : NodeName
  value : Word
deriving DecidableEq, Repr

/-- A child of the root: a field (no children) or a nested child with its fields (10_state.md R29). No operation nests
deeper (41_field_model.md R132). -/
structure Node where
  name : NodeName
  value : Word
  children : List Leaf
deriving DecidableEq, Repr

/-- The Field Tree: its root node (10_state.md R29). -/
structure Tree where
  name : NodeName
  value : Word
  children : List Node
deriving DecidableEq, Repr

/-! ### Packet registers, work registers, ports -/

/-- OK = 0, Error = 1 (10_state.md R28). -/
inductive PktStatus where
  | ok
  | error
deriving DecidableEq, Repr

/-- PKT_OFFSET, PKT_TYPE, PKT_STATUS and PKT_START_CODE (10_state.md R27). -/
structure Packet where
  offset : Word
  kind : PacketKind
  status : PktStatus
  startCode : StartCode
deriving DecidableEq, Repr

/-- Where the demux task stands: what it does next (42_demux_loop.md R140 to R148, log entry 5). -/
inductive Due where
  /-- The top of an iteration, awaiting a start code (R141, R142). -/
  | top
  /-- The record at the cursor is next. -/
  | record (r : Rec)
  /-- The header stuffing is next (46_pes_header.md R213). -/
  | stuffing
  /-- The payload is next (47_pes_payload_resync.md R230). -/
  | payload
  /-- A payload has been read and its `Push(ES, ..)` waits for room (10_state.md R40). -/
  | pushEs
  /-- The packet's decode has ended; its event is pushed as soon as there is room (42_demux_loop.md R146). -/
  | finish
deriving DecidableEq, Repr

/-- The working values of the packet being decoded that live across records (10_state.md R31), the payload buffer
(00_scope.md R3) and the fatal error held pending (42_demux_loop.md R145). -/
structure Work where
  due : Due
  psmMark : Nat
  esmRemaining : Nat
  hdrMark : Nat
  payload : List Byte
  pending : Option Err
deriving DecidableEq, Repr

/-- No packet in progress. -/
def Work.none : Work := ⟨.top, 0, 0, 0, [], Option.none⟩

/-- ERR_CODE, ERR_PKT_OFFSET and ERR_START_CODE (10_state.md R33, R34). -/
structure ErrRegs where
  code : BitVec 3
  pktOffset : Word
  startCode : StartCode
deriving DecidableEq, Repr

/-- The eight decoder counters (10_state.md R36). -/
structure Counters where
  totalVideoFrameCnt : Word
  errVideoFrameCnt : Word
  totalAudioFrameCnt : Word
  errAudioFrameCnt : Word
  iFrameCnt : Word
  pFrameCnt : Word
  psmCnt : Word
  pktCnt : Word
deriving DecidableEq, Repr

/-- A record of EVT (10_state.md R39). -/
structure EvtRec where
  offset : Word
  kind : PacketKind
  status : PktStatus
deriving DecidableEq, Repr

/-- video = 0, audio = 1 (10_state.md R40). -/
inductive StreamKind where
  | video
  | audio
deriving DecidableEq, Repr

/-- A record of ES (10_state.md R40). -/
structure EsRec where
  kind : StreamKind
  bytes : List Byte
deriving DecidableEq, Repr

/-! ### What an operation returns, and the agenda -/

/-- The registers a summary read delivers (48_host_ops.md R254): those of 10_state.md R32 to R37. -/
structure Summary where
  run : Phase
  err : ErrRegs
  cnt : Counters
  videoStreamType : Byte
  audioStreamType : Byte
deriving DecidableEq, Repr

/-- What the last operation returned to its caller: the model's own field (log entry 7). -/
inductive Reply where
  | none
  /-- The operation was done and returns nothing. -/
  | done
  /-- The operation was not accepted in this phase: nothing happened. -/
  | notAccepted
  /-- `peek`, `read`: the n bits as an unsigned value. -/
  | bits (n : Nat) (v : Word)
  /-- `size`, `offset`, `get`: a 64-bit value. -/
  | word (v : Word)
  /-- `readBytes`, `readAt`: bytes. -/
  | bytes (bs : List Byte)
  /-- `readAt`: a short read (40_bitreader.md R120). -/
  | shortRead
  /-- `decodeNested`: the new node. -/
  | node (n : Node)
  /-- An error returned to the caller outside a run (60_exceptions.md R269). -/
  | raised (e : Err)
  /-- `ParseDetail`: the tree built (none is the empty tree) and the status (none is OK). -/
  | detail (tree : Option Tree) (status : Option Err)
  /-- `SummaryRead`. -/
  | summary (s : Summary)
  /-- `ConsumerPop` of EVT: the record removed and its tree. -/
  | event (e : EvtRec) (tree : Option Tree)
  /-- `ConsumerPop` of ES: the record removed. -/
  | payload (r : EsRec)
  /-- `ConsumerPop` of an empty queue: nothing was removed. -/
  | empty
deriving DecidableEq, Repr

/-- Who moves in a step: the demux task, or an agent outside it with a request (log entry 6). -/
inductive Turn where
  | task
  | request (i : Instr)
deriving DecidableEq, Repr

/-- Inputs and parameters (10_state.md R26, R38, R42; 00_scope.md R7) and the agenda. -/
structure Env where
  src : Memory
  cancel : Bool
  qdepthLess1 : Nat
  esDepthLess1 : Nat
  turns : List Turn
deriving DecidableEq, Repr

/-- The whole machine. -/
structure State where
  env : Env
  rd : Reader
  pkt : Packet
  ft : Option Tree
  work : Work
  run : Phase
  err : ErrRegs
  cnt : Counters
  /-- 8 bits (10_state.md R37); the "64 bits" of 60_exceptions.md R279 is taken of the counters alone (log entry 32). -/
  videoStreamType : Byte
  /-- 8 bits, as `videoStreamType` (10_state.md R37, log entry 32). -/
  audioStreamType : Byte
  evt : List EvtRec
  es : List EsRec
  tree : List Tree
  evtLog : List EvtRec
  esLog : List EsRec
  treeLog : List Tree
  reply : Reply
deriving DecidableEq, Repr

/-- The BitReader as constructed: cursor at a byte, nothing fetched (10_state.md R45 for byte 0). -/
def Reader.atByte (a : Nat) : Reader := ⟨8 * a, 0, 0, BitVec.ofNat 64 a⟩

/-- The inputs right after power-on: no source presented, CANCEL deasserted, the capacities the implementation's
(log entries 2, 3, 17). -/
def Env.initial : Env :=
  { src := { cells := [], size := 0 }, cancel := false, qdepthLess1 := Config.qdepthLess1,
    esDepthLess1 := Config.esDepthLess1, turns := [] }

/-- The machine right after RESET (10_state.md R45); PKT_OFFSET, PKT_TYPE, PKT_STATUS and PKT_START_CODE are
unspecified there and take the values log entry 4 names. -/
def State.reset : State :=
  { env := Env.initial, rd := Reader.atByte 0, pkt := ⟨0, .packHeader, .ok, 0⟩, ft := none, work := Work.none,
    run := .idle, err := ⟨0, 0, 0⟩, cnt := ⟨0, 0, 0, 0, 0, 0, 0, 0⟩, videoStreamType := 0, audioStreamType := 0,
    evt := [], es := [], tree := [], evtLog := [], esLog := [], treeLog := [], reply := .none }

end Sys2Proof.Machine
end

