-- ==== Sys2Proof/Machine/Flags.lean ====
section
/-! DEFINITION. The codes the spec gives its enumerations, the one status flag, the gating flags of a PES header and the
classification of a video payload. -/

namespace Sys2Proof.Machine

/-! ### Numeric codes -/

/-- The codes of 60_exceptions.md R266. -/
def Err.code : Err → BitVec 3
  | .requestTooLong => 1
  | .unexpectedEndOfData => 2
  | .unknownStartCode => 3
  | .checkLength => 4
  | .formatMismatch => 5
  | .payloadLengthInvalid => 6

/-- The codes of 10_state.md R32. -/
def Phase.code : Phase → BitVec 3
  | .idle => 0
  | .running => 1
  | .done => 2
  | .aborted => 3
  | .cancelled => 4

/-- The codes of 10_state.md R28. -/
def kindCode : PacketKind → BitVec 3
  | .packHeader => 0
  | .systemHeader => 1
  | .programStreamMap => 2
  | .videoPES => 3
  | .audioPES => 4

/-- The codes of 10_state.md R28. -/
def PktStatus.code : PktStatus → BitVec 1
  | .ok => 0
  | .error => 1

/-- The codes of 10_state.md R40. -/
def StreamKind.code : StreamKind → BitVec 1
  | .video => 0
  | .audio => 1

/-- The halted phases (10_state.md R32). -/
def Phase.halted : Phase → Bool
  | .done => true
  | .aborted => true
  | .cancelled => true
  | .idle => false
  | .running => false

/-- A packet of any kind but pack header is reported (42_demux_loop.md R146). -/
def reportable (k : PacketKind) : Bool := decide (k ≠ .packHeader)

/-- The kind of an ES record (47_pes_payload_resync.md R237). -/
def streamKindOf : PacketKind → StreamKind
  | .videoPES => .video
  | .packHeader => .audio
  | .systemHeader => .audio
  | .programStreamMap => .audio
  | .audioPES => .audio

/-! ### Gating flags -/

/-- One conditional record: the flag that gates it, the value the flag must have, the record (30_encoding.md R95). -/
structure Gate where
  flag : FieldName
  value : Nat
  record : Rec

/-- The gates of the PES base record in the order of 30_encoding.md R95 (46_pes_header.md R201 to R207). -/
def baseGates : List Gate :=
  [⟨.PTS_DTS_flags, 2, .pesPts⟩, ⟨.PTS_DTS_flags, 3, .pesPtsDts⟩, ⟨.ESCR_flag, 1, .pesEscr⟩,
   ⟨.ES_rate_flag, 1, .pesEsRate⟩, ⟨.DSM_trick_mode_flag, 1, .pesTrick⟩,
   ⟨.additional_copy_info_flag, 1, .pesCopyInfo⟩, ⟨.PES_CRC_flag, 1, .pesCrc⟩,
   ⟨.PES_extension_flag, 1, .pesExtFlags⟩]

/-- The gates of the extension flags record in the order of 30_encoding.md R95 (46_pes_header.md R208 to R212). -/
def extGates : List Gate :=
  [⟨.PES_private_data_flag, 1, .pesPrivateData⟩, ⟨.pack_header_field_flag, 1, .pesPackField⟩,
   ⟨.program_packet_sequence_counter_flag, 1, .pesSeqCounter⟩, ⟨.P_STD_buffer_flag, 1, .pesPStd⟩,
   ⟨.PES_extension_flag_2, 1, .pesExt2⟩]

/-- The gates that come after a record. -/
def gatesAfter (r : Rec) : List Gate → List Gate
  | [] => []
  | g :: gs => if g.record = r then gs else gatesAfter r gs

/-! ### Stream types and classification -/

/-- The two ranges of 45_program_stream_map.md R186: the first is tested first. -/
def isVideoId (id : Byte) : Bool := decide (0xE0 ≤ id.toNat) && decide (id.toNat ≤ 0xEF)

/-- See `isVideoId`. -/
def isAudioId (id : Byte) : Bool := decide (0xC0 ≤ id.toNat) && decide (id.toNat ≤ 0xDF)

/-- The stream-type registers after an entry that passed its check (45_program_stream_map.md R186). -/
def setStreamType (type id : Byte) (s : State) : State :=
  if isVideoId id then { s with videoStreamType := type }
  else if isAudioId id then { s with audioStreamType := type }
  else s

/-- The counters after a video payload on the valid path: its fifth byte, the whole byte, decides
(47_pes_payload_resync.md R238). -/
def classify (payload : List Byte) (c : Counters) : Counters :=
  match payload[4]? with
  | some b =>
    if b = 0x65 then { c with iFrameCnt := c.iFrameCnt + 1 }
    else if b = 0x61 then { c with pFrameCnt := c.pFrameCnt + 1 }
    else c
  | none => c

/-- The counter a packet steps when its decoder is entered, before any field is read (45_program_stream_map.md R181,
46_pes_header.md R200). -/
def countEntry : PacketKind → Counters → Counters
  | .programStreamMap, c => { c with psmCnt := c.psmCnt + 1 }
  | .videoPES, c => { c with totalVideoFrameCnt := c.totalVideoFrameCnt + 1 }
  | .audioPES, c => { c with totalAudioFrameCnt := c.totalAudioFrameCnt + 1 }
  | .packHeader, c => c
  | .systemHeader, c => c

/-- The error counter a PES packet steps on the resync path (47_pes_payload_resync.md R235). -/
def countErrored : PacketKind → Counters → Counters
  | .videoPES, c => { c with errVideoFrameCnt := c.errVideoFrameCnt + 1 }
  | .packHeader, c => { c with errAudioFrameCnt := c.errAudioFrameCnt + 1 }
  | .systemHeader, c => { c with errAudioFrameCnt := c.errAudioFrameCnt + 1 }
  | .programStreamMap, c => { c with errAudioFrameCnt := c.errAudioFrameCnt + 1 }
  | .audioPES, c => { c with errAudioFrameCnt := c.errAudioFrameCnt + 1 }

end Sys2Proof.Machine
end

