-- ==== Sys2Proof/Machine/Operands.lean ====
section
/-! DEFINITION. The source as bits and bytes, and the assembly of operands from it: stream bit numbering and `Bits(p, n)`
(00_scope.md R9), `MemRead` (R11), the start-code test (47_pes_payload_resync.md R231) and the fields of a decode list
(30_encoding.md R96). -/

namespace Sys2Proof.Machine

/-! ### Bytes of the source -/

/-- The byte listed at an address, 0x00 where none is listed (log entry 1). -/
def lookupCell : List Host.Cell → Nat → Byte
  | [], _ => 0
  | c :: cs, a => if c.1 = a then c.2 else lookupCell cs a

/-- `SRC[a]` (20_memory.md R50). -/
def Memory.byte (m : Memory) (a : Nat) : Byte := lookupCell m.cells a

/-- SIZE as a number (20_memory.md R51). -/
def Memory.sizeN (m : Memory) : Nat := m.size.toNat

/-- `MemRead(a, n)` (00_scope.md R11), used only where `a + n <= SIZE`. -/
def Memory.read (m : Memory) : Nat → Nat → List Byte
  | _, 0 => []
  | a, n + 1 => m.byte a :: m.read (a + 1) n

/-- The cells with one byte changed, in the canonical form: a byte of 0x00 is not listed. -/
def writeCell (a : Nat) (b : Byte) : List Host.Cell → List Host.Cell
  | [] => if b = 0 then [] else [(a, b)]
  | c :: cs =>
    if a < c.1 then (if b = 0 then c :: cs else (a, b) :: c :: cs)
    else if a = c.1 then (if b = 0 then cs else (a, b) :: cs)
    else c :: writeCell a b cs

/-- Presenting one byte of a source, from outside the machine (70_reset_and_hazards.md R303): the block itself never
writes the source (20_memory.md R50). The address must be below SIZE; above it nothing is listed. -/
def Memory.write (m : Memory) (a : Nat) (b : Byte) : Memory :=
  if a < m.sizeN then { m with cells := writeCell a b m.cells } else m

/-- Presenting consecutive bytes from address `a`. -/
def Memory.writeBytes (m : Memory) : Nat → List Byte → Memory
  | _, [] => m
  | a, b :: bs => (m.write a b).writeBytes (a + 1) bs

/-- A source of the given bytes: SIZE is their number. -/
def Memory.ofBytes (bs : List Byte) : Memory :=
  Memory.writeBytes { cells := [], size := BitVec.ofNat 64 bs.length } 0 bs

/-! ### Bits of the source -/

/-- Stream bit `i`: bit `7 - (i mod 8)` of byte `i div 8` (00_scope.md R9). -/
def Memory.bit (m : Memory) (i : Nat) : Bool := (m.byte (i / 8)).getLsbD (7 - i % 8)

/-- `Bits(p, n)` (00_scope.md R9): stream bits p to p+n-1 as an unsigned number, most significant first. -/
def Memory.bits (m : Memory) (p : Nat) : Nat → Nat
  | 0 => 0
  | n + 1 => 2 * m.bits p n + (m.bit (p + n)).toNat

/-! ### Start codes and fields in the source -/

/-- The big-endian 32-bit value at a byte position (20_memory.md R52). -/
def Memory.codeAt (m : Memory) (a : Nat) : StartCode := BitVec.ofNat 32 (beNat (m.read a 4))

/-- `RecognisedAt(p)` (47_pes_payload_resync.md R231). -/
def Memory.recognisedAt (m : Memory) (p : Nat) : Bool :=
  decide (p + 4 ≤ m.sizeN) && (kindOfCode (m.codeAt p)).isSome

/-- The resync scan from a position (47_pes_payload_resync.md R233): the first recognised position, or SIZE. The first
argument is how many positions are left before SIZE. -/
def Memory.scan (m : Memory) : Nat → Nat → Nat
  | 0, _ => m.sizeN
  | k + 1, q => if m.recognisedAt q then q else m.scan k (q + 1)

/-- `q`: the least position at or after `a` with a recognised start code, or SIZE if there is none
(47_pes_payload_resync.md R233). -/
def Memory.resyncFrom (m : Memory) (a : Nat) : Nat := m.scan (m.sizeN - a) a

/-- The fields of a decode list as operands: each is the next `width` bits (30_encoding.md R96, 41_field_model.md R131). -/
def Memory.fields (m : Memory) : Nat → List (NodeName × Nat) → List FieldVal
  | _, [] => []
  | p, (name, w) :: spec => ⟨name, w, BitVec.ofNat 64 (m.bits p w)⟩ :: m.fields (p + w) spec

end Sys2Proof.Machine
end

