-- ==== Sys2Proof/Machine/Ops.lean ====
section
/-! DEFINITION. The shared operations: the BitReader (40_bitreader.md), the Field Model (41_field_model.md), the output
ports (10_state.md R39 to R41), the end of a packet (42_demux_loop.md R146, R147), taking an error (60_exceptions.md
R267) and the recoverable one with its return (R273). -/

namespace Sys2Proof.Machine

/-- What an operation ends in: a value and the state after it; an error raised, with the state at that moment; or a
request the spec refuses. -/
inductive Res (σ α : Type) where
  | ok (a : α) (s : σ)
  | raise (e : Err) (s : σ)
  | refuse (r : Refusal)

/-- Sequencing: what follows an error or a refusal is not executed (00_scope.md R11). -/
def Res.bind {σ α β : Type} (r : Res σ α) (f : α → σ → Res σ β) : Res σ β :=
  match r with
  | .ok a s => f a s
  | .raise e s => .raise e s
  | .refuse x => .refuse x

/-! ### The BitReader -/

/-- One byte fetched into the window below the valid bits (40_bitreader.md R112, one pass of the loop). -/
def Reader.fetchByte (m : Memory) (r : Reader) : Reader :=
  { r with
    window := r.window ||| ((m.byte r.srcCursor.toNat).setWidth 64 <<< (64 - r.remaining.toNat - 8))
    remaining := r.remaining + 8
    srcCursor := r.srcCursor + 1 }

/-- `k` bytes fetched one after the other. -/
def Reader.fetch (m : Memory) : Nat → Reader → Reader
  | 0, r => r
  | k + 1, r => Reader.fetch m k (r.fetchByte m)

/-- Refill (40_bitreader.md R112): as many whole bytes as fit in the window and the source still has. -/
def Reader.refill (m : Memory) (r : Reader) : Reader :=
  r.fetch m (min ((64 - r.remaining.toNat) / 8) (m.sizeN - r.srcCursor.toNat))

/-- The window made ready for `n` bits: a refill only when `remaining < n` (40_bitreader.md R113). -/
def Reader.ready (m : Memory) (n : Nat) (r : Reader) : Reader :=
  if r.remaining.toNat < n then r.refill m else r

/-- The internal advance of `n` bits (40_bitreader.md R114). -/
def Reader.advance (n : Nat) (r : Reader) : Reader :=
  { r with
    bitpos := r.bitpos + n
    window := r.window <<< n
    remaining := r.remaining - BitVec.ofNat 7 n }

/-- `peek(n)` (40_bitreader.md R113): the checks in the rule's order, after the 0-bit request the spec refuses (R122). A
request that fails leaves the datapath as it was (log entry 11). -/
def Reader.peek (m : Memory) (n : Nat) (r : Reader) : Res Reader Nat :=
  if n = 0 then .refuse .zeroBits
  else if 64 < n then .raise .requestTooLong r
  else if 64 < n + r.bitpos % 8 then .refuse .windowLimit
  else if 8 * m.sizeN < r.bitpos + n then .raise .unexpectedEndOfData r
  else .ok (m.bits r.bitpos n) (r.ready m n)

/-- `read(n)` (40_bitreader.md R114): `peek(n)` and an advance of `n` bits. -/
def Reader.read (m : Memory) (n : Nat) (r : Reader) : Res Reader Nat :=
  (r.peek m n).bind fun v r' => .ok v (r'.advance n)

/-- The mechanism of a byte-aligned bulk read of `len` bytes: the buffered bytes first, then the source directly
(40_bitreader.md R117). -/
def Reader.bulk (len : Nat) (r : Reader) : Reader :=
  let k := min len (r.remaining.toNat / 8)
  { bitpos := r.bitpos + 8 * len
    window := r.window <<< (8 * k)
    remaining := r.remaining - BitVec.ofNat 7 (8 * k)
    srcCursor := r.srcCursor + BitVec.ofNat 64 (len - k) }

/-- `readBytes` of `len` bytes (40_bitreader.md R117). -/
def Reader.readBytes (m : Memory) (len : Nat) (r : Reader) : Res Reader (List Byte) :=
  if r.bitpos % 8 ≠ 0 then .refuse .unalignedReadBytes
  else if m.sizeN < r.bitpos / 8 + len then .raise .unexpectedEndOfData r
  else .ok (m.read (r.bitpos / 8) len) (r.bulk len)

/-- `n` times `read(8)` with the values thrown away (41_field_model.md R134). -/
def Reader.dropBytes (m : Memory) : Nat → Reader → Reader
  | 0, r => r
  | n + 1, r => Reader.dropBytes m n ((r.ready m 8).advance 8)

/-- `skipBytes(n)` (41_field_model.md R134); the mechanism is `readBytes` into a discarded buffer at an aligned cursor and
`n` times `read(8)` elsewhere, the two the rule names (log entry 10). -/
def Reader.skipBytes (m : Memory) (n : Nat) (r : Reader) : Res Reader Unit :=
  if 8 * m.sizeN < r.bitpos + 8 * n then .raise .unexpectedEndOfData r
  else .ok () (if r.bitpos % 8 = 0 then r.bulk n else r.dropBytes m n)

/-- `offset()` (40_bitreader.md R118). -/
def Reader.offset (r : Reader) : Res Reader Nat :=
  if r.bitpos % 8 ≠ 0 then .refuse .unalignedOffset else .ok (r.bitpos / 8) r

/-- `readAt` of `len` bytes at `pos` (40_bitreader.md R120): none is a short read. -/
def Memory.readAt (m : Memory) (len pos : Nat) : Option (List Byte) :=
  if pos + len ≤ m.sizeN then some (m.read pos len) else none

/-! ### The BitReader as the machine's own -/

/-- A BitReader operation on the machine's reader. -/
def State.onReader {α : Type} (s : State) (r : Res Reader α) : Res State α :=
  match r with
  | .ok a rd => .ok a { s with rd := rd }
  | .raise e rd => .raise e { s with rd := rd }
  | .refuse x => .refuse x

/-- `peek(n)`. -/
def State.peek (n : Nat) (s : State) : Res State Nat := s.onReader (s.rd.peek s.env.src n)

/-- `read(n)`. -/
def State.read (n : Nat) (s : State) : Res State Nat := s.onReader (s.rd.read s.env.src n)

/-- `readBytes`. -/
def State.readBytes (len : Nat) (s : State) : Res State (List Byte) := s.onReader (s.rd.readBytes s.env.src len)

/-- `skipBytes(n)`. -/
def State.skip (n : Nat) (s : State) : Res State Unit := s.onReader (s.rd.skipBytes s.env.src n)

/-- `off()` (00_scope.md R11). -/
def State.off (s : State) : Res State Nat := s.onReader s.rd.offset

/-! ### The Field Model -/

/-- The root of a Field Model instance that no packet owns (log entry 12). -/
def Tree.standalone : Tree := ⟨.standalone, 0, []⟩

/-- The current Field Tree. -/
def State.theTree (s : State) : Tree := s.ft.getD Tree.standalone

/-- The Field Tree of a packet at its dispatch: a root node and no child (10_state.md R29). -/
def Tree.ofKind (k : PacketKind) (code : StartCode) : Tree := ⟨.kind k, code.setWidth 64, []⟩

/-- A child appended to the root (10_state.md R29: nodes are only ever appended). -/
def Tree.append (n : Node) (t : Tree) : Tree := { t with children := t.children ++ [n] }

/-- A field appended to the last of a list of nodes. -/
def appendToLast (l : Leaf) : List Node → List Node
  | [] => []
  | [n] => [{ n with children := n.children ++ [l] }]
  | n :: m :: ns => n :: appendToLast l (m :: ns)

/-- A field appended to the root's last child. -/
def Tree.appendLeaf (l : Leaf) (t : Tree) : Tree := { t with children := appendToLast l t.children }

/-- The value of the child with a name (41_field_model.md R133). Names are unique among the leaf children of one node
(10_state.md R30); where a user of the Field Model alone has given a name twice, or a nested child and a leaf bear one, the
spec gives no answer and the first in order is the model's choice (log entry 30). -/
def lookupNode (name : NodeName) : List Node → Option Word
  | [] => none
  | n :: ns => if n.name = name then some n.value else lookupNode name ns

/-- `get(name)` at the root (41_field_model.md R133). -/
def State.get (name : NodeName) (s : State) : Res State Word :=
  match s.ft with
  | some t =>
    match lookupNode name t.children with
    | some v => .ok v s
    | none => .refuse .absentName
  | none => .refuse .absentName

/-- `F[name]` of a field of 30_encoding.md, as a number. -/
def State.field (f : FieldName) (s : State) : Res State Nat := (s.get (.field f)).bind fun v s' => .ok v.toNat s'

/-- Where a decoded field goes: a node at the root, or a leaf of the root's last child (41_field_model.md R132). -/
inductive Place where
  | root
  | lastChild

/-- A field recorded: one node appended with the value the bits have (41_field_model.md R131). -/
def State.record (p : Place) (f : FieldVal) (s : State) : State :=
  match p with
  | .root => { s with ft := some (s.theTree.append ⟨f.name, f.value, []⟩) }
  | .lastChild => { s with ft := some (s.theTree.appendLeaf ⟨f.name, f.value⟩) }

/-- `decode(spec)` (41_field_model.md R131) with the operands already assembled: each field is read in declared order and
recorded; at the first read that fails the fields before it stay. -/
def State.decodeFields (p : Place) : List FieldVal → State → Res State Unit
  | [], s => .ok () s
  | f :: fs, s => (s.read f.width).bind fun _ s' => State.decodeFields p fs (s'.record p f)

/-- `decodeNested(spec, childName)` (41_field_model.md R132): a child node with value 0, then the fields as its children. -/
def State.decodeChild (child : NodeName) (fs : List FieldVal) (s : State) : Res State Unit :=
  State.decodeFields .lastChild fs { s with ft := some (s.theTree.append ⟨child, 0, []⟩) }

/-! ### The output ports -/

/-- Whether a queue of capacity `less1 + 1` has room for one record (10_state.md R39). -/
def hasRoom {α : Type} : List α → Nat → Bool
  | [], _ => true
  | _ :: _, 0 => false
  | _ :: q, k + 1 => hasRoom q k

/-- `Push(ES, rec)` (10_state.md R40) and, for a video payload, its classification (47_pes_payload_resync.md R230, R238).
A full queue leaves the payload in its buffer and the task waiting. -/
def State.pushEs (s : State) : Res State Due :=
  if hasRoom s.es s.env.esDepthLess1 then
    .ok .finish
      { s with
        es := s.es ++ [⟨streamKindOf s.pkt.kind, s.work.payload⟩]
        esLog := s.esLog ++ [⟨streamKindOf s.pkt.kind, s.work.payload⟩]
        cnt := if s.pkt.kind = .videoPES then classify s.work.payload s.cnt else s.cnt
        work := { s.work with payload := [] } }
  else .ok .pushEs s

/-- The event of the packet being decoded (42_demux_loop.md R146). -/
def State.event (s : State) : EvtRec := ⟨s.pkt.offset, s.pkt.kind, s.pkt.status⟩

/-- `Push(EVT, rec)` with the tree's snapshot on TREE and `pktCnt` stepped (42_demux_loop.md R146). -/
def State.pushEvent (s : State) : State :=
  { s with
    evt := s.evt ++ [s.event]
    tree := s.tree ++ [s.theTree]
    evtLog := s.evtLog ++ [s.event]
    treeLog := s.treeLog ++ [s.theTree]
    cnt := { s.cnt with pktCnt := s.cnt.pktCnt + 1 } }

/-! ### Taking an error, and the end of a packet -/

/-- The last two points of the abort sequence (60_exceptions.md R267 (3), (4)): the error registers and the phase. -/
def State.abort (e : Err) (s : State) : State :=
  { s with
    err := ⟨e.code, s.pkt.offset, s.pkt.startCode⟩
    run := .aborted
    ft := none
    work := Work.none }

/-- After the event: the run aborts if an error is pending (42_demux_loop.md R147), else the loop continues at its top
(R148). The tree and the working values do not survive the packet (10_state.md R20, R31). -/
def State.endPacket (s : State) : State :=
  match s.work.pending with
  | some e => s.abort e
  | none => { s with ft := none, work := Work.none }

/-- The second half of iteration step 3 (42_demux_loop.md R146): a reportable packet's event is pushed, waiting for room;
a pack header's tree is dropped. -/
def State.finishPacket (s : State) : State :=
  if reportable s.pkt.kind then
    if hasRoom s.evt s.env.qdepthLess1 then s.pushEvent.endPacket
    else { s with work := { s.work with due := .finish } }
  else s.endPacket

/-- Taking a fatal error (60_exceptions.md R267): with a packet dispatched, PKT_STATUS becomes Error and the error waits
for the event's push; in the start-code read or the dispatch the run aborts at once. -/
def State.raiseFatal (e : Err) (s : State) : State :=
  if s.work.due = .top then s.abort e
  else { s with pkt := { s.pkt with status := .error }, work := { s.work with pending := some e } }.finishPacket

/-- The recoverable error `PayloadLengthInvalid`, entry and return (60_exceptions.md R273; 47_pes_payload_resync.md R233 to
R235): scan, discard, count, PKT_STATUS = Error; the packet then ends like any other. -/
def State.resync (currentOffset : Nat) (s : State) : Res State Due :=
  (s.skip (s.env.src.resyncFrom currentOffset - currentOffset)).bind fun _ s' =>
    .ok .finish
      { s' with
        cnt := countErrored s'.pkt.kind s'.cnt
        pkt := { s'.pkt with status := .error } }

/-! ### Running a decoder's part, and an operation from outside -/

/-- Where the demux task stands after a part of a packet: at the packet's end the event is pushed. -/
def State.goTo (d : Due) (s : State) : State :=
  if d = .finish then s.finishPacket else { s with work := { s.work with due := d } }

/-- One part of a packet's decode as a step of the demux task: it runs only in phase RUNNING (42_demux_loop.md R140,
60_exceptions.md R278; log entry 19). -/
def State.runPart (part : State → Res State Due) (s : State) : Host.Outcome State Fault Refusal :=
  if s.run = .running then
    match part s with
    | .ok d s' => .next (s'.goTo d)
    | .raise e s' => .next (s'.raiseFatal e)
    | .refuse x => .refused x
  else .next s

/-- A BitReader or Field Model operation as an instruction. An error raised in a run is taken (60_exceptions.md R267); raised
outside a run it goes back to the caller (R269). In a halted phase no operation changes any state (10_state.md R32), so it
is not accepted (log entry 8). -/
def State.runOp {α : Type} (op : State → Res State α) (reply : α → State → Reply) (s : State) :
    Host.Outcome State Fault Refusal :=
  if s.run.halted then .next { s with reply := .notAccepted }
  else
    match op s with
    | .ok a s' => .next { s' with reply := reply a s' }
    | .raise e s' => if s.run = .running then .next (s'.raiseFatal e) else .next { s' with reply := .raised e }
    | .refuse x => .refused x

end Sys2Proof.Machine
end

