-- ==== Sys2Proof/Machine/BitReader.lean ====
section
/-! DEFINITION. The BitReader's operations as instructions (40_bitreader.md R111 to R122). They have no encoding in the
stream; `reply` takes what they return. -/

namespace Sys2Proof.Machine

/-- size (40_bitreader.md R111). -/
def execSize (s : State) : Host.Outcome State Fault Refusal := .next { s with reply := .word s.env.src.size }

/-- peek (40_bitreader.md R113). -/
def execPeek (n : Nat) (s : State) : Host.Outcome State Fault Refusal :=
  s.runOp (State.peek n) fun v _ => .bits n (BitVec.ofNat 64 v)

/-- read (40_bitreader.md R114). -/
def execRead (n : Nat) (s : State) : Host.Outcome State Fault Refusal :=
  s.runOp (State.read n) fun v _ => .bits n (BitVec.ofNat 64 v)

/-- readBytes (40_bitreader.md R117). -/
def execReadBytes (len : Nat) (s : State) : Host.Outcome State Fault Refusal :=
  s.runOp (State.readBytes len) fun bs _ => .bytes bs

/-- offset (40_bitreader.md R118): it changes no state, so the operation itself looks at no phase. Who may ask for it from
outside is said by `State.accepts`: nobody in a run, nor after an abort (60_exceptions.md R267). -/
def execOffset (s : State) : Host.Outcome State Fault Refusal :=
  match s.rd.offset with
  | .ok a _ => .next { s with reply := .word (BitVec.ofNat 64 a) }
  | .raise e _ => .next { s with reply := .raised e }
  | .refuse x => .refused x

/-- readAt (40_bitreader.md R120): it touches no register, so it is answered in every phase. -/
def execReadAt (len pos : Nat) (s : State) : Host.Outcome State Fault Refusal :=
  match s.env.src.readAt len pos with
  | some bs => .next { s with reply := .bytes bs }
  | none => .next { s with reply := .shortRead }

end Sys2Proof.Machine
end

