-- ==== Sys2Proof/Machine/Pack.lean ====
section
/-! DEFINITION. The pack header decoder (43_pack_header.md). -/

namespace Sys2Proof.Machine

/-- The whole pack header body (43_pack_header.md R160): fourteen fields, then the stuffing bytes skipped. -/
def partPackBody (r : PackBody) (s : State) : Res State Due :=
  (State.decodeFields .root (fieldsOfPackBody r) s).bind fun _ s' =>
    (s'.skip r.pack_stuffing_length.toNat).bind fun _ s'' => .ok .finish s''

/-- PACK.body (43_pack_header.md R160). -/
def execPackBody (r : PackBody) (s : State) : Host.Outcome State Fault Refusal := s.runPart (partPackBody r)

end Sys2Proof.Machine
end

