-- ==== Sys2Proof/Machine/Payload.lean ====
section
/-! DEFINITION. The payload of a PES packet (47_pes_payload_resync.md): validation by lookahead, then either the payload
read, forwarded and classified, or the resync. -/

namespace Sys2Proof.Machine

/-- `payloadLength` (46_pes_header.md R214): signed, kept negative when it is. -/
def payloadLengthOf (packetLength headerLength : Nat) : Int := (packetLength : Int) - 3 - (headerLength : Int)

/-- Whether the declared length is trusted (47_pes_payload_resync.md R232). -/
def trusted (m : Memory) (currentOffset : Nat) (payloadLength : Int) : Bool :=
  decide (0 ≤ payloadLength) && m.recognisedAt (currentOffset + payloadLength.toNat)

/-- The payload part (47_pes_payload_resync.md R230): on the valid path the payload is read into the buffer and pushed
(R236 to R238), else the block resynchronises (R233 to R235). -/
def partPesPayload (s : State) : Res State Due :=
  (s.field .PES_packet_length).bind fun packetLength s1 =>
    (s1.field .PES_header_data_length).bind fun headerLength s2 =>
      s2.off.bind fun currentOffset s3 =>
        if trusted s3.env.src currentOffset (payloadLengthOf packetLength headerLength) then
          (s3.readBytes (payloadLengthOf packetLength headerLength).toNat).bind fun bytes s4 =>
            State.pushEs { s4 with work := { s4.work with payload := bytes } }
        else s3.resync currentOffset

/-- PES.payload (47_pes_payload_resync.md R230). -/
def execPesPayload (s : State) : Host.Outcome State Fault Refusal := s.runPart partPesPayload

/-- The task waiting on a full ES tries its push again (10_state.md R40, R49). -/
def State.retryEs (s : State) : Host.Outcome State Fault Refusal := s.runPart State.pushEs

end Sys2Proof.Machine
end

