-- ==== Sys2Proof/Machine/Pes.lean ====
section
/-! DEFINITION. The PES header decoder (46_pes_header.md): the base record, the conditional records its flags gate, in the
fixed order of 30_encoding.md R95, and the header stuffing. The total counters step at the start code. -/

namespace Sys2Proof.Machine

/-- The next conditional record: the first gate whose flag has its value (30_encoding.md R95); after the last one the
stuffing is due (46_pes_header.md R213). A flag is read back with `get` (41_field_model.md R133). -/
def firstGate : List Gate → State → Res State Due
  | [], s => .ok .stuffing s
  | g :: gs, s =>
    (s.field g.flag).bind fun v s' => if v = g.value then .ok (.record g.record) s' else firstGate gs s'

/-- A conditional record gated by the base record: its fields, then the next gate after it. -/
def baseRecord (r : Rec) (fs : List FieldVal) (s : State) : Res State Due :=
  (State.decodeFields .root fs s).bind fun _ s' => firstGate (gatesAfter r baseGates) s'

/-- A conditional record gated by the extension flags: its fields, then the next gate after it. -/
def extRecord (r : Rec) (fs : List FieldVal) (s : State) : Res State Due :=
  (State.decodeFields .root fs s).bind fun _ s' => firstGate (gatesAfter r extGates) s'

/-- A conditional block gated by the extension flags: its fields, then `n` bytes skipped, then the next gate after it. -/
def extBlock (r : Rec) (fs : List FieldVal) (n : Nat) (s : State) : Res State Due :=
  (State.decodeFields .root fs s).bind fun _ s' =>
    (s'.skip n).bind fun _ s'' => firstGate (gatesAfter r extGates) s''

/-- The base record (46_pes_header.md R200): `hdrMark` is the byte after it. -/
def partPesBase (r : PesBase) (s : State) : Res State Due :=
  (State.decodeFields .root (fieldsOfPesBase r) s).bind fun _ s1 =>
    s1.off.bind fun mark s2 => firstGate baseGates { s2 with work := { s2.work with hdrMark := mark } }

/-- The 5-byte PTS record (46_pes_header.md R201). -/
def partPesPts (r : PesPts) (s : State) : Res State Due := baseRecord .pesPts (fieldsOfPesPts r) s

/-- The 10-byte PTS+DTS record (46_pes_header.md R201). -/
def partPesPtsDts (r : PesPtsDts) (s : State) : Res State Due := baseRecord .pesPtsDts (fieldsOfPesPtsDts r) s

/-- The ESCR record (46_pes_header.md R202). -/
def partPesEscr (r : PesEscr) (s : State) : Res State Due := baseRecord .pesEscr (fieldsOfPesEscr r) s

/-- The ES-rate record (46_pes_header.md R203). -/
def partPesEsRate (r : PesEsRate) (s : State) : Res State Due := baseRecord .pesEsRate (fieldsOfPesEsRate r) s

/-- The trick-mode byte with selector 0 (46_pes_header.md R204). -/
def partPesTrick0 (r : PesTrick0) (s : State) : Res State Due := baseRecord .pesTrick (fieldsOfPesTrick0 r) s

/-- The trick-mode byte with selector 1 (46_pes_header.md R204). -/
def partPesTrick1 (r : PesTrick1) (s : State) : Res State Due := baseRecord .pesTrick (fieldsOfPesTrick1 r) s

/-- The trick-mode byte with selector 2 (46_pes_header.md R204). -/
def partPesTrick2 (r : PesTrick2) (s : State) : Res State Due := baseRecord .pesTrick (fieldsOfPesTrick2 r) s

/-- The trick-mode byte with selector 3 (46_pes_header.md R204). -/
def partPesTrick3 (r : PesTrick3) (s : State) : Res State Due := baseRecord .pesTrick (fieldsOfPesTrick3 r) s

/-- The trick-mode byte with selector 4 (46_pes_header.md R204). -/
def partPesTrick4 (r : PesTrick4) (s : State) : Res State Due := baseRecord .pesTrick (fieldsOfPesTrick4 r) s

/-- The trick-mode byte with selector 5 (46_pes_header.md R204). -/
def partPesTrick5 (r : PesTrick5) (s : State) : Res State Due := baseRecord .pesTrick (fieldsOfPesTrick5 r) s

/-- The trick-mode byte with selector 6 (46_pes_header.md R204). -/
def partPesTrick6 (r : PesTrick6) (s : State) : Res State Due := baseRecord .pesTrick (fieldsOfPesTrick6 r) s

/-- The trick-mode byte with selector 7 (46_pes_header.md R204). -/
def partPesTrick7 (r : PesTrick7) (s : State) : Res State Due := baseRecord .pesTrick (fieldsOfPesTrick7 r) s

/-- Additional copy info (46_pes_header.md R205). -/
def partPesCopyInfo (r : PesCopyInfo) (s : State) : Res State Due := baseRecord .pesCopyInfo (fieldsOfPesCopyInfo r) s

/-- The PES CRC, recorded and not verified (46_pes_header.md R206). -/
def partPesCrc (r : PesCrc) (s : State) : Res State Due := baseRecord .pesCrc (fieldsOfPesCrc r) s

/-- The extension flags (46_pes_header.md R207): the gates of R208 to R212 follow. -/
def partPesExtFlags (r : PesExtFlags) (s : State) : Res State Due :=
  (State.decodeFields .root (fieldsOfPesExtFlags r) s).bind fun _ s' => firstGate extGates s'

/-- Private data (46_pes_header.md R208): sixteen bytes skipped, nothing recorded. -/
def partPesPrivateData (_r : PesPrivateData) (s : State) : Res State Due := extBlock .pesPrivateData [] 16 s

/-- The pack-field block (46_pes_header.md R209): its length, then that many bytes skipped. -/
def partPesPackField (r : PesPackField) (s : State) : Res State Due :=
  extBlock .pesPackField (fieldsOfPesPackField r) r.pack_field_length.toNat s

/-- The sequence counter (46_pes_header.md R210). -/
def partPesSeqCounter (r : PesSeqCounter) (s : State) : Res State Due :=
  extRecord .pesSeqCounter (fieldsOfPesSeqCounter r) s

/-- The P-STD buffer record (46_pes_header.md R211). -/
def partPesPStd (r : PesPStd) (s : State) : Res State Due := extRecord .pesPStd (fieldsOfPesPStd r) s

/-- The extension-2 block (46_pes_header.md R212): its length, then that many bytes skipped. -/
def partPesExt2 (r : PesExt2) (s : State) : Res State Due :=
  extBlock .pesExt2 (fieldsOfPesExt2 r) r.PES_extension_field_length.toNat s

/-- `stuffing` (46_pes_header.md R213): the declared header length less the bytes consumed since `hdrMark`, signed. -/
def stuffingOf (declared here hdrMark : Nat) : Int := (declared : Int) - ((here : Int) - (hdrMark : Int))

/-- Header stuffing (46_pes_header.md R213): a positive difference is skipped, any other does nothing. -/
def partPesStuffing (s : State) : Res State Due :=
  s.off.bind fun here s1 =>
    (s1.field .PES_header_data_length).bind fun declared s2 =>
      if 0 < stuffingOf declared here s2.work.hdrMark then
        (s2.skip (stuffingOf declared here s2.work.hdrMark).toNat).bind fun _ s3 => .ok .payload s3
      else .ok .payload s2

/-- PES.base (46_pes_header.md R200). -/
def execPesBase (r : PesBase) (s : State) : Host.Outcome State Fault Refusal := s.runPart (partPesBase r)

/-- PES.pts (46_pes_header.md R201). -/
def execPesPts (r : PesPts) (s : State) : Host.Outcome State Fault Refusal := s.runPart (partPesPts r)

/-- PES.pts_dts (46_pes_header.md R201). -/
def execPesPtsDts (r : PesPtsDts) (s : State) : Host.Outcome State Fault Refusal := s.runPart (partPesPtsDts r)

/-- PES.escr (46_pes_header.md R202). -/
def execPesEscr (r : PesEscr) (s : State) : Host.Outcome State Fault Refusal := s.runPart (partPesEscr r)

/-- PES.es_rate (46_pes_header.md R203). -/
def execPesEsRate (r : PesEsRate) (s : State) : Host.Outcome State Fault Refusal := s.runPart (partPesEsRate r)

/-- PES.trick_0 (46_pes_header.md R204). -/
def execPesTrick0 (r : PesTrick0) (s : State) : Host.Outcome State Fault Refusal := s.runPart (partPesTrick0 r)

/-- PES.trick_1 (46_pes_header.md R204). -/
def execPesTrick1 (r : PesTrick1) (s : State) : Host.Outcome State Fault Refusal := s.runPart (partPesTrick1 r)

/-- PES.trick_2 (46_pes_header.md R204). -/
def execPesTrick2 (r : PesTrick2) (s : State) : Host.Outcome State Fault Refusal := s.runPart (partPesTrick2 r)

/-- PES.trick_3 (46_pes_header.md R204). -/
def execPesTrick3 (r : PesTrick3) (s : State) : Host.Outcome State Fault Refusal := s.runPart (partPesTrick3 r)

/-- PES.trick_4 (46_pes_header.md R204). -/
def execPesTrick4 (r : PesTrick4) (s : State) : Host.Outcome State Fault Refusal := s.runPart (partPesTrick4 r)

/-- PES.trick_5 (46_pes_header.md R204). -/
def execPesTrick5 (r : PesTrick5) (s : State) : Host.Outcome State Fault Refusal := s.runPart (partPesTrick5 r)

/-- PES.trick_6 (46_pes_header.md R204). -/
def execPesTrick6 (r : PesTrick6) (s : State) : Host.Outcome State Fault Refusal := s.runPart (partPesTrick6 r)

/-- PES.trick_7 (46_pes_header.md R204). -/
def execPesTrick7 (r : PesTrick7) (s : State) : Host.Outcome State Fault Refusal := s.runPart (partPesTrick7 r)

/-- PES.copy_info (46_pes_header.md R205). -/
def execPesCopyInfo (r : PesCopyInfo) (s : State) : Host.Outcome State Fault Refusal := s.runPart (partPesCopyInfo r)

/-- PES.crc (46_pes_header.md R206). -/
def execPesCrc (r : PesCrc) (s : State) : Host.Outcome State Fault Refusal := s.runPart (partPesCrc r)

/-- PES.ext_flags (46_pes_header.md R207). -/
def execPesExtFlags (r : PesExtFlags) (s : State) : Host.Outcome State Fault Refusal := s.runPart (partPesExtFlags r)

/-- PES.private_data (46_pes_header.md R208). -/
def execPesPrivateData (r : PesPrivateData) (s : State) : Host.Outcome State Fault Refusal := s.runPart (partPesPrivateData r)

/-- PES.pack_field (46_pes_header.md R209). -/
def execPesPackField (r : PesPackField) (s : State) : Host.Outcome State Fault Refusal := s.runPart (partPesPackField r)

/-- PES.seq_counter (46_pes_header.md R210). -/
def execPesSeqCounter (r : PesSeqCounter) (s : State) : Host.Outcome State Fault Refusal := s.runPart (partPesSeqCounter r)

/-- PES.p_std (46_pes_header.md R211). -/
def execPesPStd (r : PesPStd) (s : State) : Host.Outcome State Fault Refusal := s.runPart (partPesPStd r)

/-- PES.ext2 (46_pes_header.md R212). -/
def execPesExt2 (r : PesExt2) (s : State) : Host.Outcome State Fault Refusal := s.runPart (partPesExt2 r)

/-- PES.stuffing (46_pes_header.md R213). -/
def execPesStuffing (s : State) : Host.Outcome State Fault Refusal := s.runPart partPesStuffing

end Sys2Proof.Machine
end

