-- ==== Sys2Proof/Machine/Psm.lean ====
section
/-! DEFINITION. The program stream map decoder (45_program_stream_map.md). `psmCnt` steps at the start code. -/

namespace Sys2Proof.Machine

/-- The fixed record and its descriptor bytes (45_program_stream_map.md R180, R182): `psmMark` is the byte after the
length field. -/
def partPsmFixed (r : PsmFixed) (s : State) : Res State Due :=
  (State.decodeFields .root ((fieldsOfPsmFixed r).take 1) s).bind fun _ s1 =>
    s1.off.bind fun mark s2 =>
      (State.decodeFields .root ((fieldsOfPsmFixed r).drop 1)
          { s2 with work := { s2.work with psmMark := mark } }).bind fun _ s3 =>
        (s3.skip r.program_stream_info_length.toNat).bind fun _ s4 => .ok (.record .psmEsmLength) s4

/-- The loop test and, after the loop, the reconciliation (45_program_stream_map.md R184, R187, R188): another entry while
`esmRemaining > 0`; else exactly 4 bytes must be left for the CRC. -/
def psmLoop (s : State) : Res State Due :=
  if 0 < s.work.esmRemaining then .ok (.record .psmEntry) s
  else
    s.off.bind fun here s1 =>
      (s1.field .program_stream_map_length).bind fun len s2 =>
        if (len : Int) - ((here : Int) - (s2.work.psmMark : Int)) = 4 then .ok (.record .psmCrc) s2
        else .raise .formatMismatch s2

/-- The length of the entry loop, then the first loop test (45_program_stream_map.md R180, R183). -/
def partPsmEsmLength (r : PsmEsmLength) (s : State) : Res State Due :=
  (State.decodeFields .root (fieldsOfPsmEsmLength r) s).bind fun _ s' =>
    psmLoop { s' with work := { s'.work with esmRemaining := r.elementary_stream_map_length.toNat } }

/-- One entry (45_program_stream_map.md R180, R184 to R186): decoded whole, checked, its stream type recorded, its
descriptors skipped, the counter stepped, then the next loop test. -/
def partPsmEntry (r : PsmEntry) (s : State) : Res State Due :=
  (State.decodeChild .es_map_entry (fieldsOfPsmEntry r) s).bind fun _ s1 =>
    if s1.work.esmRemaining < r.elementary_stream_info_length.toNat + 4 then .raise .checkLength s1
    else
      (State.skip r.elementary_stream_info_length.toNat
          (setStreamType r.stream_type r.elementary_stream_id s1)).bind fun _ s2 =>
        psmLoop
          { s2 with
            work := { s2.work with
              esmRemaining := s2.work.esmRemaining - (4 + r.elementary_stream_info_length.toNat) } }

/-- The trailing CRC, recorded and never verified (45_program_stream_map.md R188, 30_encoding.md R78). -/
def partPsmCrc (r : PsmCrc) (s : State) : Res State Due :=
  (State.decodeFields .root (fieldsOfPsmCrc r) s).bind fun _ s' => .ok .finish s'

/-- PSM.fixed (45_program_stream_map.md R180). -/
def execPsmFixed (r : PsmFixed) (s : State) : Host.Outcome State Fault Refusal := s.runPart (partPsmFixed r)

/-- PSM.esm_length (45_program_stream_map.md R180). -/
def execPsmEsmLength (r : PsmEsmLength) (s : State) : Host.Outcome State Fault Refusal := s.runPart (partPsmEsmLength r)

/-- PSM.entry (45_program_stream_map.md R180). -/
def execPsmEntry (r : PsmEntry) (s : State) : Host.Outcome State Fault Refusal := s.runPart (partPsmEntry r)

/-- PSM.crc (45_program_stream_map.md R188). -/
def execPsmCrc (r : PsmCrc) (s : State) : Host.Outcome State Fault Refusal := s.runPart (partPsmCrc r)

end Sys2Proof.Machine
end

