-- ==== Sys2Proof/Machine/Start.lean ====
section
/-! DEFINITION. The loop top and the five start codes (42_demux_loop.md R141 to R144): cancel check, end test, start-code
fetch, dispatch. -/

namespace Sys2Proof.Machine

/-- The start-code fetch of 42_demux_loop.md R142: PKT_OFFSET and PKT_START_CODE first, then `read(32)`. -/
def State.fetchStart (s : State) : Res State Nat :=
  s.off.bind fun a s' =>
    State.read 32 { s' with pkt := { s'.pkt with offset := BitVec.ofNat 64 a, startCode := 0 } }

/-- Dispatch on a recognised start code (42_demux_loop.md R144) and entry into its decoder, which steps its counter before
any field is read (45_program_stream_map.md R181, 46_pes_header.md R200). -/
def State.dispatch (k : PacketKind) (first : Rec) (s : State) : State :=
  { s with
    pkt := { s.pkt with kind := k, status := .ok, startCode := codeOfKind k }
    ft := some (Tree.ofKind k (codeOfKind k))
    cnt := countEntry k s.cnt
    work := { Work.none with due := .record first } }

/-- A start code as an instruction: fetch and dispatch; an error of the fetch aborts the run with no event (60_exceptions.md
R267 (2)). -/
def State.startPacket (k : PacketKind) (first : Rec) (s : State) : Host.Outcome State Fault Refusal :=
  if s.run = .running then
    match s.fetchStart with
    | .ok _ s' => .next (s'.dispatch k first)
    | .raise e s' => .next (s'.abort e)
    | .refuse x => .refused x
  else .next s

/-- PACK (30_encoding.md R70, 43_pack_header.md R160). -/
def execPack (s : State) : Host.Outcome State Fault Refusal := s.startPacket .packHeader .packBody

/-- SYS (30_encoding.md R70, 44_system_header.md R170). -/
def execSys (s : State) : Host.Outcome State Fault Refusal := s.startPacket .systemHeader .sysFixed

/-- PSM (30_encoding.md R70, 45_program_stream_map.md R180). -/
def execPsm (s : State) : Host.Outcome State Fault Refusal := s.startPacket .programStreamMap .psmFixed

/-- VPES (30_encoding.md R70, 46_pes_header.md R200). -/
def execVpes (s : State) : Host.Outcome State Fault Refusal := s.startPacket .videoPES .pesBase

/-- APES (30_encoding.md R70, 46_pes_header.md R200). -/
def execApes (s : State) : Host.Outcome State Fault Refusal := s.startPacket .audioPES .pesBase

/-- A start code that is not recognised, or the 1 to 3 bytes left where one is due: `UnknownStartCode` with the four bytes
consumed (42_demux_loop.md R143), or `UnexpectedEndOfData` (R142). No event is pushed (60_exceptions.md R267 (2)). -/
def State.badStart (s : State) : Host.Outcome State Fault Refusal :=
  match s.fetchStart with
  | .ok sc s' => .next ({ s' with pkt := { s'.pkt with startCode := BitVec.ofNat 32 sc } }.abort .unknownStartCode)
  | .raise e s' => .next (s'.abort e)
  | .refuse x => .refused x

/-- What the top of an iteration does before a start code is fetched: the cancel check (42_demux_loop.md R141), then the
end test (R142). None means that a start code is due. -/
def State.loopTop (s : State) : Option (Host.Outcome State Fault Refusal) :=
  if s.env.cancel then some (.next { s with run := .cancelled })
  else
    match s.off with
    | .ok a s' => if a = s'.env.src.sizeN then some (.next { s' with run := .done }) else none
    | .raise e s' => some (.next (s'.abort e))
    | .refuse x => some (.refused x)

end Sys2Proof.Machine
end

