-- ==== Sys2Proof/Machine/Sys.lean ====
section
/-! DEFINITION. The system header decoder (44_system_header.md). -/

namespace Sys2Proof.Machine

/-- The loop test (44_system_header.md R170, R171): one bit peeked, 1 continues with a stream-detail record, 0 ends the
packet; at the end of the source the peek fails (R173). -/
def sysLoop (s : State) : Res State Due :=
  (s.peek 1).bind fun b s' => .ok (if b = 1 then .record .sysStream else .finish) s'

/-- The fixed record, then the first loop test (44_system_header.md R170). -/
def partSysFixed (r : SysFixed) (s : State) : Res State Due :=
  (State.decodeFields .root (fieldsOfSysFixed r) s).bind fun _ s' => sysLoop s'

/-- One stream-detail record as a nested child, then the next loop test (44_system_header.md R170, R172). -/
def partSysStream (r : SysStream) (s : State) : Res State Due :=
  (State.decodeChild .stream (fieldsOfSysStream r) s).bind fun _ s' => sysLoop s'

/-- SYS.fixed (44_system_header.md R170). -/
def execSysFixed (r : SysFixed) (s : State) : Host.Outcome State Fault Refusal := s.runPart (partSysFixed r)

/-- SYS.stream (44_system_header.md R170). -/
def execSysStream (r : SysStream) (s : State) : Host.Outcome State Fault Refusal := s.runPart (partSysStream r)

end Sys2Proof.Machine
end

