-- ==== Sys2Proof/Machine/Detail.lean ====
section
/-! DEFINITION. ParseDetail (48_host_ops.md R253): one packet decoded again on a copy of the machine of which only the Field
Tree and the status are kept. -/

namespace Sys2Proof.Machine

/-- The decoder part an instruction of the stream stands for; an operation is no part of a packet. -/
def partOf : Instr → State → Res State Due
  | .packBody r, s => partPackBody r s
  | .sysFixed r, s => partSysFixed r s
  | .sysStream r, s => partSysStream r s
  | .psmFixed r, s => partPsmFixed r s
  | .psmEsmLength r, s => partPsmEsmLength r s
  | .psmEntry r, s => partPsmEntry r s
  | .psmCrc r, s => partPsmCrc r s
  | .pesBase r, s => partPesBase r s
  | .pesPts r, s => partPesPts r s
  | .pesPtsDts r, s => partPesPtsDts r s
  | .pesEscr r, s => partPesEscr r s
  | .pesEsRate r, s => partPesEsRate r s
  | .pesTrick0 r, s => partPesTrick0 r s
  | .pesTrick1 r, s => partPesTrick1 r s
  | .pesTrick2 r, s => partPesTrick2 r s
  | .pesTrick3 r, s => partPesTrick3 r s
  | .pesTrick4 r, s => partPesTrick4 r s
  | .pesTrick5 r, s => partPesTrick5 r s
  | .pesTrick6 r, s => partPesTrick6 r s
  | .pesTrick7 r, s => partPesTrick7 r s
  | .pesCopyInfo r, s => partPesCopyInfo r s
  | .pesCrc r, s => partPesCrc r s
  | .pesExtFlags r, s => partPesExtFlags r s
  | .pesPrivateData r, s => partPesPrivateData r s
  | .pesPackField r, s => partPesPackField r s
  | .pesSeqCounter r, s => partPesSeqCounter r s
  | .pesPStd r, s => partPesPStd r s
  | .pesExt2 r, s => partPesExt2 r s
  | .pesStuffing, s => partPesStuffing s
  | .pesPayload, s => partPesPayload s
  | .pack, s => .ok .finish s
  | .sys, s => .ok .finish s
  | .psm, s => .ok .finish s
  | .vpes, s => .ok .finish s
  | .apes, s => .ok .finish s
  | .size, s => .ok .finish s
  | .peek _, s => .ok .finish s
  | .read _, s => .ok .finish s
  | .readBytes _, s => .ok .finish s
  | .offset, s => .ok .finish s
  | .readAt _ _, s => .ok .finish s
  | .decode _, s => .ok .finish s
  | .decodeNested _ _, s => .ok .finish s
  | .get _, s => .ok .finish s
  | .skipBytes _, s => .ok .finish s
  | .start, s => .ok .finish s
  | .reset, s => .ok .finish s
  | .cancel _, s => .ok .finish s
  | .parseDetail _ _, s => .ok .finish s
  | .summaryRead, s => .ok .finish s
  | .consumerPop _, s => .ok .finish s

/-- The part that is due, taken from the source at the cursor; none at the loop top and where the decode has ended. -/
def State.duePart (s : State) : Due → Option (Res State Due)
  | .record r => some (partOf (decodeRecord r (s.env.src.bits s.rd.bitpos r.width)) s)
  | .stuffing => some (partPesStuffing s)
  | .payload => some (partPesPayload s)
  | .top => none
  | .pushEs => none
  | .finish => none

/-- The status of a packet whose decode has ended without a fatal error (48_host_ops.md R253). -/
def detailStatus (s : State) : Option Err := if s.pkt.status = .error then some .payloadLengthInvalid else none

/-- The parts of a packet one after the other, to its end: the tree and the status. Every part but the last two of a PES
packet consumes at least one byte, so the fuel is never used up (log entry 26). -/
def State.detailLoop : Nat → Due → State → Reply ⊕ Refusal
  | 0, _, s => .inl (.detail s.ft (detailStatus s))
  | k + 1, d, s =>
    match s.duePart d with
    | some (.ok d' s') => State.detailLoop k d' s'
    | some (.raise e s') => .inl (.detail s'.ft (some e))
    | some (.refuse x) => .inr x
    | none => .inl (.detail s.ft (detailStatus s))

/-- The first record of each kind's decoder (42_demux_loop.md R145). -/
def firstRecord : PacketKind → Rec
  | .packHeader => .packBody
  | .systemHeader => .sysFixed
  | .programStreamMap => .psmFixed
  | .videoPES => .pesBase
  | .audioPES => .pesBase

/-- The copy ParseDetail works on: a BitReader context of its own at the offset, no tree, empty queues (48_host_ops.md
R253). -/
def State.scratch (a : Nat) (s : State) : State :=
  { s with rd := Reader.atByte a, ft := none, work := Work.none, evt := [], es := [], tree := [], reply := .none }

/-- What ParseDetail returns (48_host_ops.md R253): the empty tree with `UnknownStartCode` if the 32 bits at the offset are
not the kind's start code, else the tree the kind's decoder builds and its status. -/
def State.detailOf (a : Nat) (k : PacketKind) (s : State) : Reply ⊕ Refusal :=
  match (s.scratch a).read 32 with
  | .ok w s' =>
    if w = (codeOfKind k).toNat then
      State.detailLoop (s.env.src.sizeN + 32) (.record (firstRecord k)) (s'.dispatch k (firstRecord k))
    else .inl (.detail none (some .unknownStartCode))
  | .raise e _ => .inl (.detail none (some e))
  | .refuse x => .inr x

/-- ParseDetail (48_host_ops.md R253): accepted in a halted phase only; nothing but the reply changes. -/
def execParseDetail (offset : BitVec 64) (kind : PacketKind) (s : State) : Host.Outcome State Fault Refusal :=
  if s.run.halted then
    match s.detailOf offset.toNat kind with
    | .inl r => .next { s with reply := r }
    | .inr x => .refused x
  else .next { s with reply := .notAccepted }

end Sys2Proof.Machine
end

