-- ==== Sys2Proof/Machine/FieldModel.lean ====
section
/-! DEFINITION. The Field Model's operations as instructions (41_field_model.md R130 to R136). They have no encoding in the
stream; `reply` takes what they return. -/

namespace Sys2Proof.Machine

/-- The Field Model instance an operation works on: the packet's, or one of its own outside a packet (41_field_model.md
R130, log entry 12). -/
def State.withTree (s : State) : State := { s with ft := some s.theTree }

/-- The last child of the root: the node `decodeNested` has made (41_field_model.md R132). -/
def State.newNode (s : State) : Node := s.theTree.children.getLastD ⟨.standalone, 0, []⟩

/-- decode (41_field_model.md R131): the operands are the bits at the cursor, cut by the list's widths. -/
def execDecode (spec : List (NodeName × Nat)) (s : State) : Host.Outcome State Fault Refusal :=
  s.runOp (fun s' => State.decodeFields .root (s'.env.src.fields s'.rd.bitpos spec) s'.withTree) fun _ _ => .done

/-- decodeNested (41_field_model.md R132). -/
def execDecodeNested (spec : List (NodeName × Nat)) (childName : NodeName) (s : State) :
    Host.Outcome State Fault Refusal :=
  s.runOp (fun s' => State.decodeChild childName (s'.env.src.fields s'.rd.bitpos spec) s'.withTree)
    fun _ s' => .node s'.newNode

/-- get (41_field_model.md R133): it changes no state, so it is answered in every phase. -/
def execGet (name : NodeName) (s : State) : Host.Outcome State Fault Refusal :=
  match s.get name with
  | .ok v _ => .next { s with reply := .word v }
  | .raise e _ => .next { s with reply := .raised e }
  | .refuse x => .refused x

/-- skipBytes (41_field_model.md R134). -/
def execSkipBytes (n : Nat) (s : State) : Host.Outcome State Fault Refusal :=
  s.runOp (State.skip n) fun _ _ => .done

end Sys2Proof.Machine
end

