-- ==== Sys2Proof/Machine/HostOps.lean ====
section
/-! DEFINITION. What the host and the consumer do (48_host_ops.md R250 to R255), ParseDetail apart. -/

namespace Sys2Proof.Machine

/-- START (48_host_ops.md R250): in IDLE the run begins at bitpos 0 with all state at its reset values; in any other phase
it has no effect. -/
def execStart (s : State) : Host.Outcome State Fault Refusal :=
  if s.run = .idle then .next { State.reset with env := s.env, run := .running, reply := .done }
  else .next { s with reply := .notAccepted }

/-- RESET (48_host_ops.md R251): every register to its reset value, queues and logs emptied, in any phase; a waiting push is
abandoned. The inputs stay. -/
def execReset (s : State) : Host.Outcome State Fault Refusal :=
  .next { State.reset with env := s.env, reply := .done }

/-- CANCEL (48_host_ops.md R252): the input takes a level; it is sampled at the loop top only. -/
def execCancel (level : Bool) (s : State) : Host.Outcome State Fault Refusal :=
  .next { s with env := { s.env with cancel := level }, reply := .done }

/-- The registers of 10_state.md R32 to R37. -/
def State.summary (s : State) : Summary := ⟨s.run, s.err, s.cnt, s.videoStreamType, s.audioStreamType⟩

/-- SummaryRead (48_host_ops.md R254): no side effect. -/
def execSummaryRead (s : State) : Host.Outcome State Fault Refusal := .next { s with reply := .summary s.summary }

/-- The head of EVT removed with its TREE snapshot (48_host_ops.md R255). -/
def State.popEvt (s : State) : State :=
  match s.evt with
  | [] => { s with reply := .empty }
  | e :: es => { s with evt := es, tree := s.tree.tail, reply := .event e s.tree.head? }

/-- The head of ES removed (48_host_ops.md R255). -/
def State.popEs (s : State) : State :=
  match s.es with
  | [] => { s with reply := .empty }
  | r :: rs => { s with es := rs, reply := .payload r }

/-- ConsumerPop (48_host_ops.md R255). -/
def execConsumerPop (port : Port) (s : State) : Host.Outcome State Fault Refusal :=
  match port with
  | .evt => .next s.popEvt
  | .es => .next s.popEs

/-- Which requests an agent outside the demux task may make (log entry 8): the stream's packets come from the source alone
(48_host_ops.md R257); in a run the BitReader and the Field Model belong to the demux task (60_exceptions.md R280); the cursor
after an abort is not readable from outside, so `offset` is not accepted there (60_exceptions.md R267). -/
def State.accepts (s : State) : Instr → Bool
  | .pack => false
  | .sys => false
  | .psm => false
  | .vpes => false
  | .apes => false
  | .packBody _ => false
  | .sysFixed _ => false
  | .sysStream _ => false
  | .psmFixed _ => false
  | .psmEsmLength _ => false
  | .psmEntry _ => false
  | .psmCrc _ => false
  | .pesBase _ => false
  | .pesPts _ => false
  | .pesPtsDts _ => false
  | .pesEscr _ => false
  | .pesEsRate _ => false
  | .pesTrick0 _ => false
  | .pesTrick1 _ => false
  | .pesTrick2 _ => false
  | .pesTrick3 _ => false
  | .pesTrick4 _ => false
  | .pesTrick5 _ => false
  | .pesTrick6 _ => false
  | .pesTrick7 _ => false
  | .pesCopyInfo _ => false
  | .pesCrc _ => false
  | .pesExtFlags _ => false
  | .pesPrivateData _ => false
  | .pesPackField _ => false
  | .pesSeqCounter _ => false
  | .pesPStd _ => false
  | .pesExt2 _ => false
  | .pesStuffing => false
  | .pesPayload => false
  | .size => decide (s.run ≠ .running)
  | .peek _ => decide (s.run ≠ .running)
  | .read _ => decide (s.run ≠ .running)
  | .readBytes _ => decide (s.run ≠ .running)
  | .offset => decide (s.run ≠ .running) && decide (s.run ≠ .aborted)
  | .readAt _ _ => decide (s.run ≠ .running)
  | .decode _ => decide (s.run ≠ .running)
  | .decodeNested _ _ => decide (s.run ≠ .running)
  | .get _ => decide (s.run ≠ .running)
  | .skipBytes _ => decide (s.run ≠ .running)
  | .start => true
  | .reset => true
  | .cancel _ => true
  | .parseDetail _ _ => true
  | .summaryRead => true
  | .consumerPop _ => true

end Sys2Proof.Machine
end

