-- ==== Sys2Proof/Machine/Dispatch.lean ====
section
/-! DEFINITION. One arm per instruction, each one direct call of its meaning. -/

namespace Sys2Proof.Machine

/-- The meaning of every instruction of spec/opcode_table.json. -/
def exec (i : Instr) (s : State) : Host.Outcome State Fault Refusal :=
  match i with
  | .pack => Sys2Proof.Machine.execPack s
  | .sys => Sys2Proof.Machine.execSys s
  | .psm => Sys2Proof.Machine.execPsm s
  | .vpes => Sys2Proof.Machine.execVpes s
  | .apes => Sys2Proof.Machine.execApes s
  | .packBody r => Sys2Proof.Machine.execPackBody r s
  | .sysFixed r => Sys2Proof.Machine.execSysFixed r s
  | .sysStream r => Sys2Proof.Machine.execSysStream r s
  | .psmFixed r => Sys2Proof.Machine.execPsmFixed r s
  | .psmEsmLength r => Sys2Proof.Machine.execPsmEsmLength r s
  | .psmEntry r => Sys2Proof.Machine.execPsmEntry r s
  | .psmCrc r => Sys2Proof.Machine.execPsmCrc r s
  | .pesBase r => Sys2Proof.Machine.execPesBase r s
  | .pesPts r => Sys2Proof.Machine.execPesPts r s
  | .pesPtsDts r => Sys2Proof.Machine.execPesPtsDts r s
  | .pesEscr r => Sys2Proof.Machine.execPesEscr r s
  | .pesEsRate r => Sys2Proof.Machine.execPesEsRate r s
  | .pesTrick0 r => Sys2Proof.Machine.execPesTrick0 r s
  | .pesTrick1 r => Sys2Proof.Machine.execPesTrick1 r s
  | .pesTrick2 r => Sys2Proof.Machine.execPesTrick2 r s
  | .pesTrick3 r => Sys2Proof.Machine.execPesTrick3 r s
  | .pesTrick4 r => Sys2Proof.Machine.execPesTrick4 r s
  | .pesTrick5 r => Sys2Proof.Machine.execPesTrick5 r s
  | .pesTrick6 r => Sys2Proof.Machine.execPesTrick6 r s
  | .pesTrick7 r => Sys2Proof.Machine.execPesTrick7 r s
  | .pesCopyInfo r => Sys2Proof.Machine.execPesCopyInfo r s
  | .pesCrc r => Sys2Proof.Machine.execPesCrc r s
  | .pesExtFlags r => Sys2Proof.Machine.execPesExtFlags r s
  | .pesPrivateData r => Sys2Proof.Machine.execPesPrivateData r s
  | .pesPackField r => Sys2Proof.Machine.execPesPackField r s
  | .pesSeqCounter r => Sys2Proof.Machine.execPesSeqCounter r s
  | .pesPStd r => Sys2Proof.Machine.execPesPStd r s
  | .pesExt2 r => Sys2Proof.Machine.execPesExt2 r s
  | .pesStuffing => Sys2Proof.Machine.execPesStuffing s
  | .pesPayload => Sys2Proof.Machine.execPesPayload s
  | .size => Sys2Proof.Machine.execSize s
  | .peek n => Sys2Proof.Machine.execPeek n s
  | .read n => Sys2Proof.Machine.execRead n s
  | .readBytes len => Sys2Proof.Machine.execReadBytes len s
  | .offset => Sys2Proof.Machine.execOffset s
  | .readAt len pos => Sys2Proof.Machine.execReadAt len pos s
  | .decode spec => Sys2Proof.Machine.execDecode spec s
  | .decodeNested spec childName => Sys2Proof.Machine.execDecodeNested spec childName s
  | .get name => Sys2Proof.Machine.execGet name s
  | .skipBytes n => Sys2Proof.Machine.execSkipBytes n s
  | .start => Sys2Proof.Machine.execStart s
  | .reset => Sys2Proof.Machine.execReset s
  | .cancel level => Sys2Proof.Machine.execCancel level s
  | .parseDetail offset kind => Sys2Proof.Machine.execParseDetail offset kind s
  | .summaryRead => Sys2Proof.Machine.execSummaryRead s
  | .consumerPop port => Sys2Proof.Machine.execConsumerPop port s

end Sys2Proof.Machine
end

