-- ==== Sys2Proof/Machine/Present.lean ====
section
/-! DEFINITION. Presenting the machine with one instruction at its cursor, from outside (log entry 17): the source's bytes,
and for a record the place in a packet at which that record is decoded. -/

namespace Sys2Proof.Machine

/-- The kind of packet a record belongs to; a PES record is taken as a video packet's. -/
def kindOfRec : Rec → PacketKind
  | .packBody => .packHeader
  | .sysFixed => .systemHeader
  | .sysStream => .systemHeader
  | .psmFixed => .programStreamMap
  | .psmEsmLength => .programStreamMap
  | .psmEntry => .programStreamMap
  | .psmCrc => .programStreamMap
  | .pesBase => .videoPES
  | .pesPts => .videoPES
  | .pesPtsDts => .videoPES
  | .pesEscr => .videoPES
  | .pesEsRate => .videoPES
  | .pesTrick => .videoPES
  | .pesCopyInfo => .videoPES
  | .pesCrc => .videoPES
  | .pesExtFlags => .videoPES
  | .pesPrivateData => .videoPES
  | .pesPackField => .videoPES
  | .pesSeqCounter => .videoPES
  | .pesPStd => .videoPES
  | .pesExt2 => .videoPES

/-- A base record and an extension flags record, the smallest that let any conditional record be due: the length fields
and all flags 0 (46_pes_header.md R200, R207). -/
def plainPesFields : List FieldVal := fieldsOfPesBase (decodePesBase 0) ++ fieldsOfPesExtFlags (decodePesExtFlags 0)

/-- The fields earlier records of the packet have put in the tree when a record is due: those a later `get` asks for. -/
def fieldsBefore : Rec → List FieldVal
  | .packBody => []
  | .sysFixed => []
  | .sysStream => []
  | .psmFixed => []
  | .psmEsmLength => fieldsOfPsmFixed (decodePsmFixed 0)
  | .psmEntry => fieldsOfPsmFixed (decodePsmFixed 0)
  | .psmCrc => fieldsOfPsmFixed (decodePsmFixed 0)
  | .pesBase => []
  | .pesPts => plainPesFields
  | .pesPtsDts => plainPesFields
  | .pesEscr => plainPesFields
  | .pesEsRate => plainPesFields
  | .pesTrick => plainPesFields
  | .pesCopyInfo => plainPesFields
  | .pesCrc => plainPesFields
  | .pesExtFlags => fieldsOfPesBase (decodePesBase 0)
  | .pesPrivateData => plainPesFields
  | .pesPackField => plainPesFields
  | .pesSeqCounter => plainPesFields
  | .pesPStd => plainPesFields
  | .pesExt2 => plainPesFields

/-- The Field Tree in which a record is due. -/
def treeBefore (r : Rec) : Tree :=
  { Tree.ofKind (kindOfRec r) (codeOfKind (kindOfRec r)) with
    children := (fieldsBefore r).map fun f => ⟨f.name, f.value, []⟩ }

/-- The longest instruction, in bytes (the private data). -/
def longestBytes : Nat := 16

/-- A source with bytes placed at an address, followed by zeros to the longest instruction; SIZE grows to hold them. -/
def Memory.place (m : Memory) (a : Nat) (bs : List Byte) : Memory :=
  Memory.writeBytes { m with size := BitVec.ofNat 64 (max m.sizeN (a + longestBytes)) } a
    (bs ++ List.replicate (longestBytes - bs.length) 0)

/-- The machine in the middle of a run about to decode the given bytes at its cursor in the given context: RUNNING, CANCEL
low, an empty agenda, nothing prefetched. -/
def State.presented (s : State) (c : Ctx) (bs : List Byte) : State :=
  let base : State :=
    { s with
      env := { s.env with src := s.env.src.place (s.rd.bitpos / 8) bs, cancel := false, turns := [] }
      rd := Reader.atByte (s.rd.bitpos / 8)
      run := .running }
  match c with
  | .startCode => { base with work := Work.none }
  | .record r =>
    { base with
      pkt := { s.pkt with kind := kindOfRec r, status := .ok, startCode := codeOfKind (kindOfRec r) }
      ft := some (treeBefore r)
      work := { Work.none with due := .record r } }

end Sys2Proof.Machine
end

