-- ==== Sys2Proof/Machine/Step.lean ====
section
/-! DEFINITION. One step: the agenda says who moves. A move of the demux task fetches what is due at the cursor, decodes it
and runs it, or waits; a move of an agent outside is one request (log entries 5, 6, 8). -/

namespace Sys2Proof.Machine

/-- One move of the demux task: it runs only in phase RUNNING (42_demux_loop.md R140). -/
def taskStep (s : State) : Host.Outcome State Fault Refusal :=
  if s.run = .running then
    match s.work.due with
    | .top =>
      match s.loopTop with
      | some o => o
      | none =>
        match decodeWord .startCode (s.env.src.bits s.rd.bitpos 32) with
        | .ok i => exec i s
        | .error _ => s.badStart
    | .record r => exec (decodeRecord r (s.env.src.bits s.rd.bitpos r.width)) s
    | .stuffing => exec .pesStuffing s
    | .payload => exec .pesPayload s
    | .pushEs => s.retryEs
    | .finish => .next s.finishPacket
  else .next s

/-- One move of an agent outside the demux task. The stream's packets are not requests (48_host_ops.md R257), and in a run
the BitReader and the Field Model belong to the demux task (60_exceptions.md R280): neither is accepted. After an abort the
cursor is not to be read (60_exceptions.md R267). -/
def requestStep (i : Instr) (s : State) : Host.Outcome State Fault Refusal :=
  if s.accepts i then exec i s else .next { s with reply := .notAccepted }

/-- One step of the machine. -/
def step (s : State) : Host.Outcome State Fault Refusal :=
  match s.env.turns with
  | [] => taskStep s
  | .task :: ts => taskStep { s with env := { s.env with turns := ts } }
  | .request i :: ts => requestStep i { s with env := { s.env with turns := ts } }

/-- The machine with a table row's bits where the next step fetches (log entry 17); a width no row has changes nothing. -/
def State.withFetchWord (s : State) (nbits w : Nat) : State :=
  match tableCtx nbits with
  | some c => s.presented c (beBytes c.bytes w)
  | none => s

end Sys2Proof.Machine
end

