-- ==== Sys2Proof/Safety.lean ====
section
/-! DEFINITION. The words claims are made in: what it is for the BitReader's datapath to agree with its cursor, what a
record's fields do to a tree, and the invariants of the machine. -/

namespace Sys2Proof.Machine

/-! ### The BitReader -/

/-- The datapath registers agree with the cursor (10_state.md R23, R24, R25): at most 64 bits are buffered, the source was
fetched up to `srcCursor`, the buffered bits are the next ones of the stream, at the top of `window`, zeros below. -/
def Reader.Coherent (m : Memory) (r : Reader) : Prop :=
  r.remaining.toNat ≤ 64 ∧ r.srcCursor.toNat ≤ m.sizeN ∧ r.bitpos + r.remaining.toNat = 8 * r.srcCursor.toNat ∧
    ∀ k, k < 64 → r.window.getLsbD (63 - k) = (decide (k < r.remaining.toNat) && m.bit (r.bitpos + k))

/-- `r'` is the reader `r` moved to bit `p` of the source, its datapath as coherent as it was. -/
def Reader.MovedTo (m : Memory) (r r' : Reader) (p : Nat) : Prop :=
  r'.bitpos = p ∧ (r.Coherent m → r'.Coherent m)

/-- The bits a list of fields takes. -/
def bitsOf (fs : List FieldVal) : Nat := (fs.map FieldVal.width).sum

/-- Every field, read one after the other from bit `p`, is a request of 1 to 64 bits that the window can serve
(40_bitreader.md R113, R116). -/
def servedFrom : Nat → List FieldVal → Prop
  | _, [] => True
  | p, f :: fs => 1 ≤ f.width ∧ f.width + p % 8 ≤ 64 ∧ servedFrom (p + f.width) fs

/-! ### The Field Tree -/

/-- A tree with fields appended at its root (41_field_model.md R131). -/
def Tree.withFields (t : Tree) (fs : List FieldVal) : Tree :=
  { t with children := t.children ++ fs.map fun f => ⟨f.name, f.value, []⟩ }

/-- A tree with one nested child appended, the fields being its children (41_field_model.md R132). -/
def Tree.withChild (t : Tree) (name : NodeName) (fs : List FieldVal) : Tree :=
  { t with children := t.children ++ [⟨name, 0, fs.map fun f => ⟨f.name, f.value⟩⟩] }

/-- The value of a field register at the root of a tree, if the tree has it (41_field_model.md R133). -/
def Tree.fieldOf (t : Tree) (f : FieldName) : Option Nat := (lookupNode (.field f) t.children).map BitVec.toNat

/-- Every name of a list is a field register of the tree. -/
def Tree.Has (t : Tree) (fs : List FieldName) : Prop := ∀ f ∈ fs, (t.fieldOf f).isSome

/-- What is due after the gates before `gs` have been passed: the record of the first gate whose flag has its value, else
the stuffing (30_encoding.md R95). -/
def dueAfter (gs : List Gate) (t : Tree) : Due :=
  match gs.find? fun g => t.fieldOf g.flag == some g.value with
  | some g => .record g.record
  | none => .stuffing

/-- The machine after a fatal error inside a reportable packet, EVT having room (60_exceptions.md R267; 42_demux_loop.md R146,
R147): the cursor stands as `rd`, the packet's event with status Error and its tree `tr` are pushed, `pktCnt` steps and the
run is aborted with the error's code, the packet's offset and its start code. -/
def State.failedPacket (code : BitVec 3) (rd : Reader) (tr : Tree) (s : State) : State :=
  { s with
    rd := rd
    pkt := { s.pkt with status := .error }
    ft := none
    work := Work.none
    run := .aborted
    err := ⟨code, s.pkt.offset, s.pkt.startCode⟩
    cnt := { s.cnt with pktCnt := s.cnt.pktCnt + 1 }
    evt := s.evt ++ [⟨s.pkt.offset, s.pkt.kind, .error⟩]
    tree := s.tree ++ [tr]
    evtLog := s.evtLog ++ [⟨s.pkt.offset, s.pkt.kind, .error⟩]
    treeLog := s.treeLog ++ [tr] }

/-- A record due, or the stuffing if there is none. -/
def dueOf : Option Rec → Due
  | some r => .record r
  | none => .stuffing

/-- The conditional records the flags of a base record ask for, in the fixed order (30_encoding.md R95; 46_pes_header.md
R201 to R207). -/
def wantedBase (b : PesBase) : List Rec :=
  (if b.PTS_DTS_flags = 2 then [.pesPts] else if b.PTS_DTS_flags = 3 then [.pesPtsDts] else []) ++
    (if b.ESCR_flag = 1 then [.pesEscr] else []) ++ (if b.ES_rate_flag = 1 then [.pesEsRate] else []) ++
    (if b.DSM_trick_mode_flag = 1 then [.pesTrick] else []) ++
    (if b.additional_copy_info_flag = 1 then [.pesCopyInfo] else []) ++
    (if b.PES_CRC_flag = 1 then [.pesCrc] else []) ++ (if b.PES_extension_flag = 1 then [.pesExtFlags] else [])

/-- The conditional records the extension flags ask for, in the fixed order (30_encoding.md R95; 46_pes_header.md R208 to
R212). -/
def wantedExt (e : PesExtFlags) : List Rec :=
  (if e.PES_private_data_flag = 1 then [.pesPrivateData] else []) ++
    (if e.pack_header_field_flag = 1 then [.pesPackField] else []) ++
    (if e.program_packet_sequence_counter_flag = 1 then [.pesSeqCounter] else []) ++
    (if e.P_STD_buffer_flag = 1 then [.pesPStd] else []) ++ (if e.PES_extension_flag_2 = 1 then [.pesExt2] else [])

/-- The state after a sequence of `read`s, if each delivers its bits (40_bitreader.md R118, R121). -/
def State.afterReads : List Nat → State → Option State
  | [], s => some s
  | n :: ns, s =>
    match exec (.read n) s with
    | .next t => if t.reply = .bits n (BitVec.ofNat 64 (s.env.src.bits s.rd.bitpos n)) then t.afterReads ns else none
    | .fault _ => none
    | .refused _ => none

/-- The lengths of the base record that the stuffing and the payload read back (46_pes_header.md R213, R214). -/
def pesLengths : List FieldName := [.PES_packet_length, .PES_header_data_length]

/-- The field registers read back after the base record has been decoded. -/
def pesNames : List FieldName := pesLengths ++ baseGates.map Gate.flag

/-- The field registers read back after the extension flags have been decoded. -/
def pesExtNames : List FieldName := pesLengths ++ extGates.map Gate.flag

/-- The field registers that must stand in the tree when a record is due, because a later step reads them back. -/
def needsOf : Rec → List FieldName
  | .packBody => []
  | .sysFixed => []
  | .sysStream => []
  | .psmFixed => []
  | .psmEsmLength => [.program_stream_map_length]
  | .psmEntry => [.program_stream_map_length]
  | .psmCrc => []
  | .pesBase => []
  | .pesPts => pesNames
  | .pesPtsDts => pesNames
  | .pesEscr => pesNames
  | .pesEsRate => pesNames
  | .pesTrick => pesNames
  | .pesCopyInfo => pesNames
  | .pesCrc => pesNames
  | .pesExtFlags => pesLengths
  | .pesPrivateData => pesExtNames
  | .pesPackField => pesExtNames
  | .pesSeqCounter => pesExtNames
  | .pesPStd => pesExtNames
  | .pesExt2 => pesExtNames

/-- The same for whatever is due. -/
def Due.needs : Due → List FieldName
  | .record r => needsOf r
  | .stuffing => pesLengths
  | .payload => pesLengths
  | .top => []
  | .pushEs => []
  | .finish => []

/-- Whether the demux task is inside a PES packet whose payload it has not disposed of yet. -/
def Due.inPes : Due → Bool
  | .record r => kindOfRec r == .videoPES
  | .stuffing => true
  | .payload => true
  | .pushEs => true
  | .top => false
  | .finish => false

/-- Whether what is due belongs to a packet of this kind (42_demux_loop.md R145). -/
def Due.ofKind : Due → PacketKind → Bool
  | .record r, k => kindOfRec r == k || (kindOfRec r == .videoPES && k == .audioPES)
  | .stuffing, k => k == .videoPES || k == .audioPES
  | .payload, k => k == .videoPES || k == .audioPES
  | .pushEs, k => k == .videoPES || k == .audioPES
  | .top, _ => true
  | .finish, _ => true

/-! ### Invariants -/

/-- The BitReader is coherent (10_state.md R25). -/
def State.ReaderInv (s : State) : Prop := s.rd.Coherent s.env.src

/-- Where the demux task stands in a run, and what must be there for it to go on: a byte-aligned cursor (10_state.md R22),
the tree of the packet's kind (R29) with the fields that will be read back (41_field_model.md R133), a pending error only at
the packet's end (42_demux_loop.md R145). -/
structure State.TaskInv (s : State) : Prop where
  aligned : s.run = .running → s.work.pending = none → s.rd.bitpos % 8 = 0
  pendingAtEnd : s.run = .running → s.work.pending ≠ none → s.work.due = .finish
  atTop : s.run = .running → s.work.due = .top → s.ft = none ∧ s.work = Work.none
  inPacket : s.run = .running → s.work.due ≠ .top →
    ∃ t, s.ft = some t ∧ t.name = .kind s.pkt.kind ∧ t.value = (codeOfKind s.pkt.kind).setWidth 64 ∧
      t.Has s.work.due.needs ∧ s.pkt.startCode = codeOfKind s.pkt.kind ∧ s.work.due.ofKind s.pkt.kind = true

/-- The error registers hold 0 unless the run aborted, and then one of the four codes that can end a run (10_state.md R33,
R34; 60_exceptions.md R266, R269); the error held pending is one of the three a packet's decode can raise. -/
structure State.ErrInv (s : State) : Prop where
  quiet : s.run ≠ .aborted → s.err = ⟨0, 0, 0⟩
  code : s.run = .aborted → s.err.code = 2 ∨ s.err.code = 3 ∨ s.err.code = 4 ∨ s.err.code = 5
  pending : s.work.pending = none ∨ s.work.pending = some .unexpectedEndOfData ∨ s.work.pending = some .checkLength ∨
    s.work.pending = some .formatMismatch

/-- The output ports (10_state.md R39 to R41): each queue is the tail of its log that is not consumed yet and never holds
more than its capacity; every event has its tree, of its kind; no event is a pack header's (42_demux_loop.md R146). -/
structure State.OutInv (s : State) : Prop where
  evtTail : s.evt <:+ s.evtLog
  esTail : s.es <:+ s.esLog
  treeTail : s.tree <:+ s.treeLog
  treeWithEvt : s.tree.length = s.evt.length
  evtRoom : s.evt.length ≤ s.env.qdepthLess1 + 1
  esRoom : s.es.length ≤ s.env.esDepthLess1 + 1
  trees : List.Forall₂
    (fun (e : EvtRec) (t : Tree) => t.name = .kind e.kind ∧ t.value = (codeOfKind e.kind).setWidth 64) s.evtLog s.treeLog
  noPackHeader : ∀ e ∈ s.evtLog, e.kind ≠ .packHeader

/-- One while the task is inside a packet. -/
def State.openPacket (s : State) : Nat := if s.run = .running ∧ s.work.due ≠ .top then 1 else 0

/-- One while the task is inside a PES packet of this kind whose payload it has not disposed of. -/
def State.openPes (s : State) (k : PacketKind) : Nat :=
  if s.run = .running ∧ s.pkt.kind = k ∧ s.work.due.inPes = true then 1 else 0

/-- The counters (70_reset_and_hazards.md R316): each packet counted has taken at least its 32-bit start code, so none can
overflow (10_state.md R35); a PES packet is errored, an I-frame or a P-frame at most once. -/
structure State.CountInv (s : State) : Prop where
  started : 32 * (s.cnt.totalVideoFrameCnt.toNat + s.cnt.totalAudioFrameCnt.toNat + s.cnt.psmCnt.toNat) ≤ s.rd.bitpos
  events : 32 * (s.cnt.pktCnt.toNat + s.openPacket) ≤ s.rd.bitpos
  logged : s.cnt.pktCnt.toNat = s.evtLog.length
  video : s.cnt.errVideoFrameCnt.toNat + s.cnt.iFrameCnt.toNat + s.cnt.pFrameCnt.toNat + s.openPes .videoPES ≤
    s.cnt.totalVideoFrameCnt.toNat
  audio : s.cnt.errAudioFrameCnt.toNat + s.openPes .audioPES ≤ s.cnt.totalAudioFrameCnt.toNat

end Sys2Proof.Machine
end

