-- ==== Sys2Proof/Certificates/Slice0/Obligations.lean ====
section
/-! DEFINITION. The statements for the provers, in the order of OBLIGATIONS.json: encoding, the step, the BitReader, the
Field Model, the loop and the start codes, the five packet decoders, errors and ports, the host, and the invariants. -/

open Sys2Proof Sys2Proof.Machine

/-! ### Encoding -/

/-- The decoder reads every encoded instruction back, whatever follows it (30_encoding.md R70 to R92): no bit of an
operand is dropped. -/
def Obligations.DecodeOfEncode : Prop :=
  ∀ (i : Instr) (c : Ctx) (rest : List Byte), i.ctx = some c → decode c (encode i ++ rest) = .ok (i, rest)

/-- The other way round: what the decoder reads an instruction from is that instruction's encoding, so each string of
bits has one meaning in its context (30_encoding.md R70, R99, R102). -/
def Obligations.EncodeOfDecode : Prop :=
  ∀ (c : Ctx) (bs rest : List Byte) (i : Instr), decode c bs = .ok (i, rest) → i.ctx = some c ∧ bs = encode i ++ rest

/-- Words written out from the tables of 30_encoding.md R70, R72, R77, R79 and R84 decode to what they stand for. -/
def Obligations.WrittenWordsDecode : Prop :=
  decode .startCode [0x00, 0x00, 0x01, 0xBA] = .ok (.pack, []) ∧
  decode .startCode [0x00, 0x00, 0x01, 0xC0, 0x55] = .ok (.apes, [0x55]) ∧
  decode .startCode [0x00, 0x00, 0x01, 0xB9] = .error (.unknownStartCode 0x000001B9) ∧
  decode (.record .packBody) [0x44, 0x00, 0x04, 0x00, 0x04, 0x01, 0x00, 0x00, 0x03, 0xF8] =
    .ok (.packBody ⟨1, 0, 1, 0, 1, 0, 1, 0, 1, 0, 1, 1, 31, 0⟩, []) ∧
  decode (.record .psmEntry) [0x1B, 0xE0, 0x12, 0x34] = .ok (.psmEntry ⟨0x1B, 0xE0, 0x1234⟩, []) ∧
  decode (.record .pesBase) [0x00, 0x32, 0x80, 0x80, 0x05] =
    .ok (.pesBase ⟨50, 2, 0, 0, 0, 0, 0, 2, 0, 0, 0, 0, 0, 0, 5⟩, []) ∧
  decode (.record .pesTrick) [0x52] = .ok (.pesTrick2 ⟨2, 2⟩, [])

/-- A start code is recognised at a byte position exactly when four bytes stand there and their big-endian value is
one of the five (47_pes_payload_resync.md R231; 00_scope.md R8). -/
def Obligations.RecognisedAtRule : Prop :=
  ∀ (m : Memory) (p : Nat), m.recognisedAt p = true ↔
    p + 4 ≤ m.sizeN ∧
      (m.byte p).toNat * 2 ^ 24 + (m.byte (p + 1)).toNat * 2 ^ 16 + (m.byte (p + 2)).toNat * 2 ^ 8 +
        (m.byte (p + 3)).toNat ∈ [0x000001BA, 0x000001BB, 0x000001BC, 0x000001E0, 0x000001C0]

/-- The round trip of 41_field_model.md R135: over the bits of a record built from field values, `decode` of the
record's list appends exactly those values to the packet's tree, whatever they are. -/
def Obligations.FieldModelRoundTrip : Prop :=
  ∀ (i : Instr) (r : Rec) (s : State) (t : Tree), i.ctx = some (.record r) → s.run.halted = false →
    s.rd.bitpos % 8 = 0 → s.ft = some t → s.rd.bitpos + r.width ≤ 8 * s.env.src.sizeN →
    s.env.src.bits s.rd.bitpos r.width = i.word →
    ∃ rd, s.rd.MovedTo s.env.src rd (s.rd.bitpos + bitsOf i.fields) ∧
      exec (.decode (i.fields.map fun f => (f.name, f.width))) s =
        .next { s with rd := rd, ft := some (t.withFields i.fields), reply := .done }

/-! ### The step -/

/-- Where the bytes at the cursor decode to an instruction in the context that is due, a step of the demux task is
that instruction; the header stuffing and the payload, which have no encoding, are run where they are due. Nothing is
added around it. That one step is one record, and `due` names what comes next, is the model's (log entry 5). -/
def Obligations.StepRunsDecoded : Prop :=
  ∀ (s : State), s.env.turns = [] → s.run = .running →
    (∀ i, s.work.due = .top → s.env.cancel = false → s.rd.bitpos % 8 = 0 → s.rd.bitpos / 8 ≠ s.env.src.sizeN →
      decode .startCode (s.env.src.read (s.rd.bitpos / 8) 4) = .ok (i, []) → step s = exec i s) ∧
    (∀ r i, s.work.due = .record r → s.rd.bitpos % 8 = 0 →
      decode (.record r) (s.env.src.read (s.rd.bitpos / 8) (r.width / 8)) = .ok (i, []) → step s = exec i s) ∧
    (s.work.due = .stuffing → step s = exec .pesStuffing s) ∧
    (s.work.due = .payload → step s = exec .pesPayload s)

/-- A request on the agenda is one step: it is run if it may be made, else it is answered and nothing happens. In a
run only the host's and the consumer's operations may be made, and a packet of the stream never; after an abort the
cursor is not readable: `offset` is not accepted and no answer to a request depends on the reader (48_host_ops.md
R257; 60_exceptions.md R267, R280). That an agenda orders the agents is the model's own (log entries 6 and 8). `reply`
is the model's place for what an operation returns (log entry 7). -/
def Obligations.StepServesRequests : Prop :=
  ∀ (s : State) (i : Instr) (ts : List Turn), s.env.turns = .request i :: ts →
    (s.accepts i = true → step s = exec i { s with env := { s.env with turns := ts } }) ∧
    (s.accepts i = false → step s = .next { s with env := { s.env with turns := ts }, reply := .notAccepted }) ∧
    (i.ctx ≠ none ∨ i = .pesStuffing ∨ i = .pesPayload → s.accepts i = false) ∧
    (s.run = .running → s.accepts i = true → i = .start ∨ i = .reset ∨ (∃ l, i = .cancel l) ∨
      (∃ o k, i = .parseDetail o k) ∨ i = .summaryRead ∨ ∃ p, i = .consumerPop p) ∧
    (s.run ≠ .running → i.ctx = none → i ≠ .pesStuffing → i ≠ .pesPayload → (s.run = .aborted → i ≠ .offset) →
      s.accepts i = true) ∧
    (s.run = .aborted → s.accepts .offset = false) ∧
    (s.run = .aborted → ∀ rd t, step s = .next t → ∃ u, step { s with rd := rd } = .next u ∧ u.reply = t.reply)

/-! ### The BitReader -/

/-- A read split in two delivers the same bits, a 32-bit field is four bytes, and a field across a byte boundary takes
the low bits of the earlier byte as its high bits (20_memory.md R54). -/
def Obligations.SplitReads : Prop :=
  (∀ (m : Memory) (p n1 n2 : Nat), m.bits p (n1 + n2) = m.bits p n1 * 2 ^ n2 + m.bits (p + n1) n2) ∧
  (∀ (m : Memory) (p : Nat), m.bits p 32 =
    m.bits p 8 * 2 ^ 24 + m.bits (p + 8) 8 * 2 ^ 16 + m.bits (p + 16) 8 * 2 ^ 8 + m.bits (p + 24) 8) ∧
  (∀ (m : Memory) (a k n : Nat), k ≤ 8 → n ≤ 8 → m.bits (8 * a + k) (8 - k + n) =
    (m.byte a).toNat % 2 ^ (8 - k) * 2 ^ n + (m.byte (a + 1)).toNat / 2 ^ (8 - n))

/-- `peek(n)` with its checks in order, and its mechanism: it may refill, after which the result is the top `n` bits
of the window (40_bitreader.md R113). Errors are stated outside a run, where they go back to the caller
(60_exceptions.md R269). `reply` is the model's place for what an operation returns (log entry 7). That a failed peek
leaves the hidden datapath registers alone too is the model's (log entry 11). -/
def Obligations.PeekRule : Prop :=
  ∀ (n : Nat) (s : State), 1 ≤ n →
    (64 < n → s.run = .idle → exec (.peek n) s = .next { s with reply := .raised .requestTooLong }) ∧
    (n ≤ 64 → 64 < n + s.rd.bitpos % 8 → s.run.halted = false → exec (.peek n) s = .refused .windowLimit) ∧
    (n + s.rd.bitpos % 8 ≤ 64 → 8 * s.env.src.sizeN < s.rd.bitpos + n → s.run = .idle →
      exec (.peek n) s = .next { s with reply := .raised .unexpectedEndOfData }) ∧
    (n + s.rd.bitpos % 8 ≤ 64 → s.rd.bitpos + n ≤ 8 * s.env.src.sizeN → s.run.halted = false →
      ∃ rd, s.rd.MovedTo s.env.src rd s.rd.bitpos ∧ (n ≤ s.rd.remaining.toNat → rd = s.rd) ∧
        (s.rd.Coherent s.env.src →
          n ≤ rd.remaining.toNat ∧ rd.window.toNat / 2 ^ (64 - n) = s.env.src.bits s.rd.bitpos n) ∧
        exec (.peek n) s =
          .next { s with rd := rd, reply := .bits n (BitVec.ofNat 64 (s.env.src.bits s.rd.bitpos n)) })

/-- `read(n)` delivers the next `n` bits and moves on by `n`; it is a `peek(n)` followed by the advance of the
mechanism, and where the peek fails so does the read, with nothing changed (40_bitreader.md R114). `reply` is the
model's place for what an operation returns (log entry 7). That a failed peek leaves the hidden datapath registers
alone too is the model's (log entry 11). -/
def Obligations.ReadRule : Prop :=
  ∀ (n : Nat) (s : State),
    (1 ≤ n → n + s.rd.bitpos % 8 ≤ 64 → s.rd.bitpos + n ≤ 8 * s.env.src.sizeN → s.run.halted = false →
      ∃ rd, s.rd.MovedTo s.env.src rd (s.rd.bitpos + n) ∧
        exec (.read n) s =
          .next { s with rd := rd, reply := .bits n (BitVec.ofNat 64 (s.env.src.bits s.rd.bitpos n)) }) ∧
    (∀ t v, exec (.peek n) s = .next t → t.reply = .bits n v → s.run = .idle →
      exec (.read n) s = .next { t with
        rd := ⟨t.rd.bitpos + n, t.rd.window <<< n, t.rd.remaining - BitVec.ofNat 7 n, t.rd.srcCursor⟩ }) ∧
    (∀ t e, exec (.peek n) s = .next t → t.reply = .raised e → s.run = .idle →
      exec (.read n) s = .next t ∧ t = { s with reply := .raised e })

/-- The requests the spec gives neither a value nor an error are refused, each by its name: a request the window
cannot serve, 0 bits, a bulk read and an offset at an unaligned cursor (40_bitreader.md R116, R117, R118, R122). -/
def Obligations.RefusedRequests : Prop :=
  ∀ (s : State), s.run.halted = false →
    (∀ n, n ≤ 64 → 64 < n + s.rd.bitpos % 8 →
      exec (.peek n) s = .refused .windowLimit ∧ exec (.read n) s = .refused .windowLimit) ∧
    (exec (.peek 0) s = .refused .zeroBits ∧ exec (.read 0) s = .refused .zeroBits) ∧
    (s.rd.bitpos % 8 ≠ 0 →
      (∀ len, exec (.readBytes len) s = .refused .unalignedReadBytes) ∧ exec .offset s = .refused .unalignedOffset)

/-- `offset()` at a byte-aligned cursor is the byte position, which is what the formula `srcCursor - remaining/8`
gives (40_bitreader.md R118). `reply` is the model's place for what an operation returns (log entry 7). -/
def Obligations.OffsetRule : Prop :=
  ∀ (s : State), s.rd.bitpos % 8 = 0 →
    exec .offset s = .next { s with reply := .word (BitVec.ofNat 64 (s.rd.bitpos / 8)) } ∧
    (s.rd.Coherent s.env.src →
      s.rd.bitpos / 8 = s.rd.srcCursor.toNat - s.rd.remaining.toNat / 8)

/-- `size()` returns SIZE in any state; `readAt` delivers the bytes at a position, or is short; neither touches a
register of the reader (40_bitreader.md R111, R120). -/
def Obligations.SizeAndReadAt : Prop :=
  ∀ (len pos : Nat) (s : State),
    exec .size s = .next { s with reply := .word s.env.src.size } ∧
    (pos + len ≤ s.env.src.sizeN → ∃ bs, exec (.readAt len pos) s = .next { s with reply := .bytes bs } ∧
      bs.length = len ∧ ∀ k, k < len → bs[k]? = some (s.env.src.byte (pos + k))) ∧
    (s.env.src.sizeN < pos + len → exec (.readAt len pos) s = .next { s with reply := .shortRead })

/-- `readBytes` at an aligned cursor: the bytes, the cursor behind them; nothing for 0 bytes; past the end an error
that changes nothing (40_bitreader.md R117). `reply` is the model's place for what an operation returns (log entry 7).
-/
def Obligations.ReadBytesRule : Prop :=
  ∀ (len : Nat) (s : State), s.rd.bitpos % 8 = 0 →
    (s.rd.bitpos / 8 + len ≤ s.env.src.sizeN → s.run.halted = false →
      ∃ rd bs, s.rd.MovedTo s.env.src rd (s.rd.bitpos + 8 * len) ∧ (len = 0 → rd = s.rd) ∧ bs.length = len ∧
        (∀ k, k < len → bs[k]? = some (s.env.src.byte (s.rd.bitpos / 8 + k))) ∧
        exec (.readBytes len) s = .next { s with rd := rd, reply := .bytes bs }) ∧
    (s.env.src.sizeN < s.rd.bitpos / 8 + len → s.run = .idle →
      exec (.readBytes len) s = .next { s with reply := .raised .unexpectedEndOfData })

/-- The laws of 40_bitreader.md R121: a peek and the read after it return the same value; two peeks agree; reads whose
widths sum to whole bytes leave the offset at the bytes consumed; two reads deliver what one wide read delivers. -/
def Obligations.BitReaderLaws : Prop :=
  (∀ (n : Nat) (v : Word) (s t : State), exec (.peek n) s = .next t → t.reply = .bits n v → s.run = .idle →
    exec (.peek n) t = .next t ∧
      ∃ rd, rd.bitpos = s.rd.bitpos + n ∧ exec (.read n) t = .next { t with rd := rd }) ∧
  (∀ (ns : List Nat) (s t : State), s.run = .idle → s.rd.bitpos = 0 → s.afterReads ns = some t → ns.sum % 8 = 0 →
    exec .offset t = .next { t with reply := .word (BitVec.ofNat 64 (ns.sum / 8)) }) ∧
  (∀ (a b : Nat) (s t u w : State), s.run = .idle → s.afterReads [a] = some t → t.afterReads [b] = some u →
    s.afterReads [a + b] = some w → ∃ x y, t.reply = .bits a x ∧ u.reply = .bits b y ∧
      w.reply = .bits (a + b) (BitVec.ofNat 64 (x.toNat * 2 ^ b + y.toNat)) ∧ w.rd.bitpos = u.rd.bitpos)

/-! ### The Field Model -/

/-- `decode` records one node for each entry, in order, each holding the bits at its place; where a read fails, the
entries before it stay and none after it is recorded (41_field_model.md R131). `reply` is the model's place for what
an operation returns (log entry 7). The root of a tree no packet owns is the model's (log entry 12). -/
def Obligations.DecodeRule : Prop :=
  ∀ (s : State),
    (∀ spec, s.run.halted = false → servedFrom s.rd.bitpos (s.env.src.fields s.rd.bitpos spec) →
      s.rd.bitpos + (spec.map Prod.snd).sum ≤ 8 * s.env.src.sizeN →
      ∃ rd, s.rd.MovedTo s.env.src rd (s.rd.bitpos + (spec.map Prod.snd).sum) ∧
        exec (.decode spec) s = .next { s with
          rd := rd, ft := some (s.theTree.withFields (s.env.src.fields s.rd.bitpos spec)), reply := .done }) ∧
    (∀ pre x w post, s.run = .idle → servedFrom s.rd.bitpos (s.env.src.fields s.rd.bitpos (pre ++ (x, w) :: post)) →
      s.rd.bitpos + (pre.map Prod.snd).sum ≤ 8 * s.env.src.sizeN →
      8 * s.env.src.sizeN < s.rd.bitpos + (pre.map Prod.snd).sum + w →
      ∃ rd, s.rd.MovedTo s.env.src rd (s.rd.bitpos + (pre.map Prod.snd).sum) ∧
        exec (.decode (pre ++ (x, w) :: post)) s = .next { s with
          rd := rd, ft := some (s.theTree.withFields (s.env.src.fields s.rd.bitpos pre)),
          reply := .raised .unexpectedEndOfData }) ∧
    (∀ pre x w post, (s.env.src.fields s.rd.bitpos (pre ++ (x, w) :: post))[pre.length]? =
      some ⟨x, w, BitVec.ofNat 64 (s.env.src.bits (s.rd.bitpos + (pre.map Prod.snd).sum) w)⟩)

/-- `decodeNested` appends one child of value 0 whose children are the entries, and returns it; where a read fails the
partly filled child stays (41_field_model.md R132). `reply` is the model's place for what an operation returns (log
entry 7). The root of a tree no packet owns is the model's (log entry 12). -/
def Obligations.DecodeNestedRule : Prop :=
  ∀ (s : State) (child : NodeName),
    (∀ spec, s.run.halted = false → servedFrom s.rd.bitpos (s.env.src.fields s.rd.bitpos spec) →
      s.rd.bitpos + (spec.map Prod.snd).sum ≤ 8 * s.env.src.sizeN →
      ∃ rd, s.rd.MovedTo s.env.src rd (s.rd.bitpos + (spec.map Prod.snd).sum) ∧
        exec (.decodeNested spec child) s = .next { s with
          rd := rd, ft := some (s.theTree.withChild child (s.env.src.fields s.rd.bitpos spec)),
          reply := .node ⟨child, 0, (s.env.src.fields s.rd.bitpos spec).map fun f => ⟨f.name, f.value⟩⟩ }) ∧
    (∀ pre x w post, s.run = .idle → servedFrom s.rd.bitpos (s.env.src.fields s.rd.bitpos (pre ++ (x, w) :: post)) →
      s.rd.bitpos + (pre.map Prod.snd).sum ≤ 8 * s.env.src.sizeN →
      8 * s.env.src.sizeN < s.rd.bitpos + (pre.map Prod.snd).sum + w →
      ∃ rd, s.rd.MovedTo s.env.src rd (s.rd.bitpos + (pre.map Prod.snd).sum) ∧
        exec (.decodeNested (pre ++ (x, w) :: post) child) s = .next { s with
          rd := rd, ft := some (s.theTree.withChild child (s.env.src.fields s.rd.bitpos pre)),
          reply := .raised .unexpectedEndOfData })

/-- `get` returns the value of the root's child of that name, changes nothing and says the same again; a name not
decoded is refused (41_field_model.md R133). `reply` is the model's place for what an operation returns (log entry 7).
That the current node is the root between operations is the model's reading (log entry 14). Where several children
bear the name, that the first one answers is the model's choice (log entry 30). -/
def Obligations.GetRule : Prop :=
  ∀ (s : State) (t : Tree) (name : NodeName), s.ft = some t →
    (∀ pre n post, t.children = pre ++ n :: post → n.name = name → (∀ m ∈ pre, m.name ≠ name) →
      exec (.get name) s = .next { s with reply := .word n.value } ∧
      ∀ u, exec (.get name) s = .next u → exec (.get name) u = .next u) ∧
    ((∀ n ∈ t.children, n.name ≠ name) → exec (.get name) s = .refused .absentName)

/-- `skipBytes(n)` moves the cursor over `n` bytes at any alignment and records nothing; 0 bytes is a no-op; past the
end it is an error that changes nothing (41_field_model.md R134). `reply` is the model's place for what an operation
returns (log entry 7). The mechanism of the skip is the model's (log entry 10). -/
def Obligations.SkipBytesRule : Prop :=
  ∀ (n : Nat) (s : State),
    (s.rd.bitpos + 8 * n ≤ 8 * s.env.src.sizeN → s.run.halted = false →
      ∃ rd, s.rd.MovedTo s.env.src rd (s.rd.bitpos + 8 * n) ∧ (n = 0 → rd = s.rd) ∧
        exec (.skipBytes n) s = .next { s with rd := rd, reply := .done }) ∧
    (8 * s.env.src.sizeN < s.rd.bitpos + 8 * n → s.run = .idle →
      exec (.skipBytes n) s = .next { s with reply := .raised .unexpectedEndOfData })

/-! ### The loop and the start codes -/

/-- The top of an iteration: CANCEL is sampled before anything else, then the end of the source ends the run normally
(42_demux_loop.md R141, R142). That one step is one record, and `due` names what comes next, is the model's (log entry
5). -/
def Obligations.LoopTopRule : Prop :=
  ∀ (s : State), s.env.turns = [] → s.run = .running → s.work.due = .top →
    (s.env.cancel = true → step s = .next { s with run := .cancelled }) ∧
    (s.env.cancel = false → s.rd.bitpos = 8 * s.env.src.sizeN → step s = .next { s with run := .done })

/-- A start code of any of the five kinds (PACK, SYS, PSM, VPES, APES): the fetch and the dispatch of 42_demux_loop.md
R142 and R144, with the counter stepped at the decoder's entry (45_program_stream_map.md R181, 46_pes_header.md R200);
nothing else changes. That one step is one record, and `due` names what comes next, is the model's (log entry 5). The
work registers' values outside a packet are the model's (log entry 15). -/
def Obligations.StartCodeDispatch : Prop :=
  ∀ (k : PacketKind) (s : State), s.run = .running → s.rd.bitpos % 8 = 0 →
    s.rd.bitpos + 32 ≤ 8 * s.env.src.sizeN →
    ∃ rd, s.rd.MovedTo s.env.src rd (s.rd.bitpos + 32) ∧
      exec (startInstr k) s = .next { s with
        rd := rd
        pkt := ⟨BitVec.ofNat 64 (s.rd.bitpos / 8), k, .ok, codeOfKind k⟩
        ft := some ⟨.kind k, (codeOfKind k).setWidth 64, []⟩
        cnt := { s.cnt with
          psmCnt := if k = .programStreamMap then s.cnt.psmCnt + 1 else s.cnt.psmCnt
          totalVideoFrameCnt := if k = .videoPES then s.cnt.totalVideoFrameCnt + 1 else s.cnt.totalVideoFrameCnt
          totalAudioFrameCnt := if k = .audioPES then s.cnt.totalAudioFrameCnt + 1 else s.cnt.totalAudioFrameCnt }
        work := ⟨.record (firstRecord k), 0, 0, 0, [], none⟩ }

/-- One to three bytes left where a start code is due: the run aborts with `UnexpectedEndOfData`, no event is pushed
and the start code recorded is 0 (42_demux_loop.md R142; 60_exceptions.md R267). The work registers' values outside a
packet are the model's (log entry 15). -/
def Obligations.ShortStartCode : Prop :=
  ∀ (s : State), s.env.turns = [] → s.run = .running → s.work.due = .top → s.env.cancel = false →
    s.rd.bitpos % 8 = 0 → s.rd.bitpos < 8 * s.env.src.sizeN → 8 * s.env.src.sizeN < s.rd.bitpos + 32 →
    step s = .next { s with
      pkt := { s.pkt with offset := BitVec.ofNat 64 (s.rd.bitpos / 8), startCode := 0 }
      err := ⟨2, BitVec.ofNat 64 (s.rd.bitpos / 8), 0⟩
      run := .aborted
      ft := none
      work := Work.none }

/-- Four bytes that are no recognised start code where one is due: the run aborts with `UnknownStartCode`, which
records them; they stay consumed and no event is pushed (42_demux_loop.md R143). The work registers' values outside a
packet are the model's (log entry 15). -/
def Obligations.UnknownStartCodeAborts : Prop :=
  ∀ (s : State), s.env.turns = [] → s.run = .running → s.work.due = .top → s.env.cancel = false →
    s.rd.bitpos % 8 = 0 → s.rd.bitpos + 32 ≤ 8 * s.env.src.sizeN → s.env.src.recognisedAt (s.rd.bitpos / 8) = false →
    ∃ rd, s.rd.MovedTo s.env.src rd (s.rd.bitpos + 32) ∧
      step s = .next { s with
        rd := rd
        pkt := { s.pkt with
          offset := BitVec.ofNat 64 (s.rd.bitpos / 8), startCode := s.env.src.codeAt (s.rd.bitpos / 8) }
        err := ⟨3, BitVec.ofNat 64 (s.rd.bitpos / 8), s.env.src.codeAt (s.rd.bitpos / 8)⟩
        run := .aborted
        ft := none
        work := Work.none }

/-! ### Pack header and system header -/

/-- PACK.body: fourteen fields recorded, the stuffing bytes skipped, and the packet ends (43_pack_header.md R160).
That a record's operands are the bits at the cursor is how the model passes them (log entry 20). -/
def Obligations.PackBodyRule : Prop :=
  ∀ (r : PackBody) (s : State) (t : Tree), s.run = .running → s.rd.bitpos % 8 = 0 → s.ft = some t →
    s.rd.bitpos + 80 + 8 * r.pack_stuffing_length.toNat ≤ 8 * s.env.src.sizeN →
    ∃ rd, s.rd.MovedTo s.env.src rd (s.rd.bitpos + 80 + 8 * r.pack_stuffing_length.toNat) ∧
      exec (.packBody r) s =
        .next ({ s with rd := rd, ft := some (t.withFields (fieldsOfPackBody r)) } : State).finishPacket

/-- A pack header cut short, in its record or in its stuffing, aborts the run with its offset and its start code and
no event (43_pack_header.md R161). The work registers' values outside a packet are the model's (log entry 15). -/
def Obligations.PackErrors : Prop :=
  ∀ (r : PackBody) (s : State) (t : Tree), s.run = .running → s.rd.bitpos % 8 = 0 → s.ft = some t →
    s.work.due = .record .packBody → s.pkt.kind = .packHeader → s.pkt.startCode = 0x000001BA →
    8 * s.env.src.sizeN < s.rd.bitpos + 80 + 8 * r.pack_stuffing_length.toNat →
    ∃ rd, exec (.packBody r) s = .next { s with
      rd := rd
      pkt := { s.pkt with status := .error }
      err := ⟨2, s.pkt.offset, 0x000001BA⟩
      run := .aborted
      ft := none
      work := Work.none }

/-- SYS.fixed and SYS.stream: the record is recorded, a stream-detail record as a nested child, and the next bit
decides: 1 is another record, 0 ends the packet (44_system_header.md R170, R172). That one step is one record, and
`due` names what comes next, is the model's (log entry 5). That a record's operands are the bits at the cursor is how
the model passes them (log entry 20). -/
def Obligations.SystemHeaderRule : Prop :=
  ∀ (s : State) (t : Tree), s.run = .running → s.rd.bitpos % 8 = 0 → s.ft = some t →
    (∀ r : SysFixed, s.rd.bitpos + 64 + 1 ≤ 8 * s.env.src.sizeN →
      ∃ rd, s.rd.MovedTo s.env.src rd (s.rd.bitpos + 64) ∧
        (s.env.src.bit (s.rd.bitpos + 64) = true → exec (.sysFixed r) s = .next { s with
          rd := rd, ft := some (t.withFields (fieldsOfSysFixed r)),
          work := { s.work with due := .record .sysStream } }) ∧
        (s.env.src.bit (s.rd.bitpos + 64) = false → exec (.sysFixed r) s =
          .next ({ s with rd := rd, ft := some (t.withFields (fieldsOfSysFixed r)) } : State).finishPacket)) ∧
    (∀ r : SysStream, s.rd.bitpos + 24 + 1 ≤ 8 * s.env.src.sizeN →
      ∃ rd, s.rd.MovedTo s.env.src rd (s.rd.bitpos + 24) ∧
        (s.env.src.bit (s.rd.bitpos + 24) = true → exec (.sysStream r) s = .next { s with
          rd := rd, ft := some (t.withChild .stream (fieldsOfSysStream r)),
          work := { s.work with due := .record .sysStream } }) ∧
        (s.env.src.bit (s.rd.bitpos + 24) = false → exec (.sysStream r) s =
          .next ({ s with rd := rd, ft := some (t.withChild .stream (fieldsOfSysStream r)) } : State).finishPacket))

/-- A system header cut short in its fixed record, in a stream-detail record or at the bit after either: one event
with status Error, then the abort (44_system_header.md R173). -/
def Obligations.SystemHeaderErrors : Prop :=
  ∀ (s : State) (t : Tree) (i : Instr) (w : Nat), s.run = .running → s.rd.bitpos % 8 = 0 → s.ft = some t →
    s.pkt.kind = .systemHeader → s.work.due ≠ .top → s.evt.length ≤ s.env.qdepthLess1 →
    (∃ r, i = .sysFixed r ∧ w = 64) ∨ (∃ r, i = .sysStream r ∧ w = 24) →
    8 * s.env.src.sizeN < s.rd.bitpos + w + 1 →
    ∃ u, exec i s = .next u ∧ u.run = .aborted ∧ u.err = ⟨2, s.pkt.offset, s.pkt.startCode⟩ ∧
      u.evtLog = s.evtLog ++ [⟨s.pkt.offset, .systemHeader, .error⟩] ∧
      u.cnt = { s.cnt with pktCnt := s.cnt.pktCnt + 1 } ∧ u.env = s.env ∧ u.es = s.es ∧ u.esLog = s.esLog ∧
      u.videoStreamType = s.videoStreamType ∧ u.audioStreamType = s.audioStreamType

/-! ### Program stream map -/

/-- PSM.fixed: seven fields recorded, `psmMark` at the byte after the length field, the descriptor bytes skipped.
PSM.crc: 32 bits recorded, whatever they are, and the packet ends (45_program_stream_map.md R180, R182, R188;
30_encoding.md R78). That one step is one record, and `due` names what comes next, is the model's (log entry 5). That
a record's operands are the bits at the cursor is how the model passes them (log entry 20). -/
def Obligations.PsmFixedAndCrc : Prop :=
  ∀ (s : State) (t : Tree), s.run = .running → s.rd.bitpos % 8 = 0 → s.ft = some t →
    (∀ r : PsmFixed, s.rd.bitpos + 48 + 8 * r.program_stream_info_length.toNat ≤ 8 * s.env.src.sizeN →
      ∃ rd, s.rd.MovedTo s.env.src rd (s.rd.bitpos + 48 + 8 * r.program_stream_info_length.toNat) ∧
        exec (.psmFixed r) s = .next { s with
          rd := rd, ft := some (t.withFields (fieldsOfPsmFixed r)),
          work := { s.work with psmMark := s.rd.bitpos / 8 + 2, due := .record .psmEsmLength } }) ∧
    (∀ r : PsmCrc, s.rd.bitpos + 32 ≤ 8 * s.env.src.sizeN →
      ∃ rd, s.rd.MovedTo s.env.src rd (s.rd.bitpos + 32) ∧
        exec (.psmCrc r) s =
          .next ({ s with rd := rd, ft := some (t.withFields (fieldsOfPsmCrc r)) } : State).finishPacket)

/-- PSM.esm_length: the field recorded, the loop counter started; with entries to come the first is due, with none the
map reconciles or not, and no stream-type register is written (45_program_stream_map.md R180, R183, R188). That one
step is one record, and `due` names what comes next, is the model's (log entry 5). That a record's operands are the
bits at the cursor is how the model passes them (log entry 20). -/
def Obligations.PsmEsmLengthRule : Prop :=
  ∀ (r : PsmEsmLength) (s : State) (t : Tree) (len : Nat), s.run = .running → s.rd.bitpos % 8 = 0 → s.ft = some t →
    t.fieldOf .program_stream_map_length = some len → s.rd.bitpos + 16 ≤ 8 * s.env.src.sizeN →
    ∃ rd, s.rd.MovedTo s.env.src rd (s.rd.bitpos + 16) ∧
      (0 < r.elementary_stream_map_length.toNat → exec (.psmEsmLength r) s = .next { s with
        rd := rd, ft := some (t.withFields (fieldsOfPsmEsmLength r)),
        work := { s.work with
          esmRemaining := r.elementary_stream_map_length.toNat, due := .record .psmEntry } }) ∧
      (r.elementary_stream_map_length.toNat = 0 →
        (len : Int) - (((s.rd.bitpos / 8 + 2 : Nat) : Int) - s.work.psmMark) = 4 →
        exec (.psmEsmLength r) s = .next { s with
          rd := rd, ft := some (t.withFields (fieldsOfPsmEsmLength r)),
          work := { s.work with esmRemaining := 0, due := .record .psmCrc } })

/-- PSM.entry that passes its check: recorded as a nested child, its stream type written to the register its id
selects, its descriptor bytes skipped, the counter stepped; then the next entry or, with the counter at 0 and the
lengths reconciled, the CRC (45_program_stream_map.md R180, R184, R186, R188). That one step is one record, and `due`
names what comes next, is the model's (log entry 5). That a record's operands are the bits at the cursor is how the
model passes them (log entry 20). -/
def Obligations.PsmEntryRule : Prop :=
  ∀ (r : PsmEntry) (s : State) (t : Tree) (len size : Nat), s.run = .running → s.rd.bitpos % 8 = 0 → s.ft = some t →
    t.fieldOf .program_stream_map_length = some len → size = r.elementary_stream_info_length.toNat + 4 →
    size ≤ s.work.esmRemaining → s.rd.bitpos + 8 * size ≤ 8 * s.env.src.sizeN →
    (size = s.work.esmRemaining →
      (len : Int) - (((s.rd.bitpos / 8 + size : Nat) : Int) - s.work.psmMark) = 4) →
    ∃ rd, s.rd.MovedTo s.env.src rd (s.rd.bitpos + 8 * size) ∧
      exec (.psmEntry r) s = .next { s with
        rd := rd
        ft := some (t.withChild .es_map_entry (fieldsOfPsmEntry r))
        videoStreamType :=
          if 0xE0 ≤ r.elementary_stream_id.toNat ∧ r.elementary_stream_id.toNat ≤ 0xEF then r.stream_type
          else s.videoStreamType
        audioStreamType :=
          if 0xC0 ≤ r.elementary_stream_id.toNat ∧ r.elementary_stream_id.toNat ≤ 0xDF then r.stream_type
          else s.audioStreamType
        work := { s.work with
          esmRemaining := s.work.esmRemaining - size
          due := if size = s.work.esmRemaining then .record .psmCrc else .record .psmEntry } }

/-- `CheckLength`: an entry larger than the counter is recorded, writes no stream-type register and aborts the run
after the map's event with status Error (45_program_stream_map.md R185; 60_exceptions.md R271). The work registers'
values outside a packet are the model's (log entry 15). That the tree is gone after its packet is the model's (log
entry 29). -/
def Obligations.CheckLengthRule : Prop :=
  ∀ (r : PsmEntry) (s : State) (t : Tree), s.run = .running → s.rd.bitpos % 8 = 0 → s.ft = some t →
    s.work.due = .record .psmEntry → s.pkt.kind = .programStreamMap → s.evt.length ≤ s.env.qdepthLess1 →
    s.rd.bitpos + 32 ≤ 8 * s.env.src.sizeN → s.work.esmRemaining < r.elementary_stream_info_length.toNat + 4 →
    ∃ rd, s.rd.MovedTo s.env.src rd (s.rd.bitpos + 32) ∧
      exec (.psmEntry r) s = .next { s with
        rd := rd
        pkt := { s.pkt with status := .error }
        ft := none
        work := Work.none
        run := .aborted
        err := ⟨4, s.pkt.offset, s.pkt.startCode⟩
        cnt := { s.cnt with pktCnt := s.cnt.pktCnt + 1 }
        evt := s.evt ++ [⟨s.pkt.offset, .programStreamMap, .error⟩]
        tree := s.tree ++ [t.withChild .es_map_entry (fieldsOfPsmEntry r)]
        evtLog := s.evtLog ++ [⟨s.pkt.offset, .programStreamMap, .error⟩]
        treeLog := s.treeLog ++ [t.withChild .es_map_entry (fieldsOfPsmEntry r)] }

/-- `FormatMismatch`: with no entry left and any other remainder than 4 the run aborts after the map's event with
status Error, the CRC unread; what was decoded is in the tree and the last entry's stream type has been written to the
register its id selects (45_program_stream_map.md R186, R188, R189). The work registers' values outside a packet are
the model's (log entry 15). That the tree is gone after its packet is the model's (log entry 29). -/
def Obligations.FormatMismatchRule : Prop :=
  ∀ (s : State) (t : Tree) (len : Nat), s.run = .running → s.rd.bitpos % 8 = 0 → s.ft = some t →
    s.work.due ≠ .top → s.pkt.kind = .programStreamMap → s.evt.length ≤ s.env.qdepthLess1 →
    t.fieldOf .program_stream_map_length = some len →
    (∀ r : PsmEsmLength, s.rd.bitpos + 16 ≤ 8 * s.env.src.sizeN → r.elementary_stream_map_length = 0 →
      (len : Int) - (((s.rd.bitpos / 8 + 2 : Nat) : Int) - s.work.psmMark) ≠ 4 →
      ∃ rd, s.rd.MovedTo s.env.src rd (s.rd.bitpos + 16) ∧
        exec (.psmEsmLength r) s = .next (s.failedPacket 5 rd (t.withFields (fieldsOfPsmEsmLength r)))) ∧
    (∀ (r : PsmEntry) (size : Nat), size = r.elementary_stream_info_length.toNat + 4 → size = s.work.esmRemaining →
      s.rd.bitpos + 8 * size ≤ 8 * s.env.src.sizeN →
      (len : Int) - (((s.rd.bitpos / 8 + size : Nat) : Int) - s.work.psmMark) ≠ 4 →
      ∃ rd, s.rd.MovedTo s.env.src rd (s.rd.bitpos + 8 * size) ∧
        exec (.psmEntry r) s = .next (State.failedPacket 5 rd (t.withChild .es_map_entry (fieldsOfPsmEntry r)) { s with
          videoStreamType :=
            if 0xE0 ≤ r.elementary_stream_id.toNat ∧ r.elementary_stream_id.toNat ≤ 0xEF then r.stream_type
            else s.videoStreamType
          audioStreamType :=
            if 0xC0 ≤ r.elementary_stream_id.toNat ∧ r.elementary_stream_id.toNat ≤ 0xDF then r.stream_type
            else s.audioStreamType }))

/-! ### PES header -/

/-- PES.base: fifteen fields recorded, `hdrMark` at the byte after them; PES.ext_flags: six fields recorded; after
each the first conditional record its flags ask for is due (46_pes_header.md R200, R207). That one step is one record,
and `due` names what comes next, is the model's (log entry 5). That a record's operands are the bits at the cursor is
how the model passes them (log entry 20). -/
def Obligations.PesFlagRecords : Prop :=
  ∀ (s : State) (t : Tree), s.run = .running → s.rd.bitpos % 8 = 0 → s.ft = some t →
    (∀ r : PesBase, s.rd.bitpos + 40 ≤ 8 * s.env.src.sizeN →
      ∃ rd, s.rd.MovedTo s.env.src rd (s.rd.bitpos + 40) ∧
        exec (.pesBase r) s = .next { s with
          rd := rd, ft := some (t.withFields (fieldsOfPesBase r)),
          work := { s.work with
            hdrMark := s.rd.bitpos / 8 + 5, due := dueAfter baseGates (t.withFields (fieldsOfPesBase r)) } }) ∧
    (∀ r : PesExtFlags, s.rd.bitpos + 8 ≤ 8 * s.env.src.sizeN →
      ∃ rd, s.rd.MovedTo s.env.src rd (s.rd.bitpos + 8) ∧
        exec (.pesExtFlags r) s = .next { s with
          rd := rd, ft := some (t.withFields (fieldsOfPesExtFlags r)),
          work := { s.work with due := dueAfter extGates (t.withFields (fieldsOfPesExtFlags r)) } })

/-- The records the base record gates (PES.pts, PES.pts_dts, PES.escr, PES.es_rate, PES.trick_0 to PES.trick_7,
PES.copy_info, PES.crc): the fields recorded as they are, nothing checked, and the next record the flags ask for is
due (46_pes_header.md R201 to R206). That one step is one record, and `due` names what comes next, is the model's (log
entry 5). That a record's operands are the bits at the cursor is how the model passes them (log entry 20). -/
def Obligations.PesBaseGatedRule : Prop :=
  ∀ (i : Instr) (r : Rec) (s : State) (t : Tree), i.ctx = some (.record r) →
    r ∈ [.pesPts, .pesPtsDts, .pesEscr, .pesEsRate, .pesTrick, .pesCopyInfo, .pesCrc] →
    s.run = .running → s.rd.bitpos % 8 = 0 → s.ft = some t → t.Has pesNames →
    s.rd.bitpos + r.width ≤ 8 * s.env.src.sizeN →
    ∃ rd, s.rd.MovedTo s.env.src rd (s.rd.bitpos + r.width) ∧
      exec i s = .next { s with
        rd := rd, ft := some (t.withFields i.fields),
        work := { s.work with due := dueAfter (gatesAfter r baseGates) (t.withFields i.fields) } }

/-- The records the extension flags gate: the private data is skipped and not recorded, the pack-field and extension-2
blocks record their length and skip it, the sequence counter and the P-STD record are recorded; then the next one
asked for (46_pes_header.md R208 to R212). `n` is the number of bytes skipped. That one step is one record, and `due`
names what comes next, is the model's (log entry 5). That a record's operands are the bits at the cursor is how the
model passes them (log entry 20). -/
def Obligations.PesExtGatedRule : Prop :=
  ∀ (i : Instr) (rec : Rec) (n : Nat) (s : State) (t : Tree),
    (∃ r, i = .pesPrivateData r ∧ rec = .pesPrivateData ∧ n = 16) ∨
      (∃ r, i = .pesPackField r ∧ rec = .pesPackField ∧ n = r.pack_field_length.toNat) ∨
      (∃ r, i = .pesSeqCounter r ∧ rec = .pesSeqCounter ∧ n = 0) ∨
      (∃ r, i = .pesPStd r ∧ rec = .pesPStd ∧ n = 0) ∨
      (∃ r, i = .pesExt2 r ∧ rec = .pesExt2 ∧ n = r.PES_extension_field_length.toNat) →
    s.run = .running → s.rd.bitpos % 8 = 0 → s.ft = some t → t.Has pesExtNames →
    s.rd.bitpos + bitsOf i.fields + 8 * n ≤ 8 * s.env.src.sizeN →
    ∃ rd, s.rd.MovedTo s.env.src rd (s.rd.bitpos + bitsOf i.fields + 8 * n) ∧
      exec i s = .next { s with
        rd := rd, ft := some (t.withFields i.fields),
        work := { s.work with due := dueAfter (gatesAfter rec extGates) (t.withFields i.fields) } }

/-- The fixed order of the conditional records: in a tree that holds the flags of a base record, and of an extension
flags record, the records due one after another are exactly those the flags ask for, and after the last the stuffing
(30_encoding.md R95). That one step is one record, and `due` names what comes next, is the model's (log entry 5). -/
def Obligations.RecordOrder : Prop :=
  (∀ (b : PesBase) (t : Tree), t.fieldOf .PTS_DTS_flags = some b.PTS_DTS_flags.toNat →
    t.fieldOf .ESCR_flag = some b.ESCR_flag.toNat → t.fieldOf .ES_rate_flag = some b.ES_rate_flag.toNat →
    t.fieldOf .DSM_trick_mode_flag = some b.DSM_trick_mode_flag.toNat →
    t.fieldOf .additional_copy_info_flag = some b.additional_copy_info_flag.toNat →
    t.fieldOf .PES_CRC_flag = some b.PES_CRC_flag.toNat →
    t.fieldOf .PES_extension_flag = some b.PES_extension_flag.toNat →
    dueAfter baseGates t = dueOf (wantedBase b).head? ∧
      ∀ pre r post, wantedBase b = pre ++ r :: post → dueAfter (gatesAfter r baseGates) t = dueOf post.head?) ∧
  (∀ (e : PesExtFlags) (t : Tree), t.fieldOf .PES_private_data_flag = some e.PES_private_data_flag.toNat →
    t.fieldOf .pack_header_field_flag = some e.pack_header_field_flag.toNat →
    t.fieldOf .program_packet_sequence_counter_flag = some e.program_packet_sequence_counter_flag.toNat →
    t.fieldOf .P_STD_buffer_flag = some e.P_STD_buffer_flag.toNat →
    t.fieldOf .PES_extension_flag_2 = some e.PES_extension_flag_2.toNat →
    dueAfter extGates t = dueOf (wantedExt e).head? ∧
      ∀ pre r post, wantedExt e = pre ++ r :: post → dueAfter (gatesAfter r extGates) t = dueOf post.head?)

/-- PES.stuffing: a positive difference between the declared header length and the bytes consumed since `hdrMark` is
skipped; 0 or a negative one skips nothing and is no error (46_pes_header.md R213). That one step is one record, and
`due` names what comes next, is the model's (log entry 5). -/
def Obligations.PesStuffingRule : Prop :=
  ∀ (s : State) (t : Tree) (declared skipped : Nat), s.run = .running → s.rd.bitpos % 8 = 0 → s.ft = some t →
    t.fieldOf .PES_header_data_length = some declared →
    skipped = ((declared : Int) - (((s.rd.bitpos / 8 : Nat) : Int) - s.work.hdrMark)).toNat →
    s.rd.bitpos + 8 * skipped ≤ 8 * s.env.src.sizeN →
    ∃ rd, s.rd.MovedTo s.env.src rd (s.rd.bitpos + 8 * skipped) ∧
      exec .pesStuffing s = .next { s with rd := rd, work := { s.work with due := .payload } }

/-! ### PES payload -/

/-- The declared length is trusted exactly when it is not negative and a start code is recognised at its end; so it is
not where fewer than four bytes are left there, and a length of 0 is where one stands at the payload's start
(47_pes_payload_resync.md R232; 46_pes_header.md R214). -/
def Obligations.TrustedRule : Prop :=
  ∀ (m : Memory) (a packetLength headerLength : Nat) (len : Int),
    len = (packetLength : Int) - 3 - (headerLength : Int) →
    payloadLengthOf packetLength headerLength = len ∧
    (trusted m a len = true ↔ 0 ≤ len ∧ m.recognisedAt (a + len.toNat) = true) ∧
    (len < 0 → trusted m a len = false) ∧
    ((m.sizeN : Int) < a + len + 4 → trusted m a len = false) ∧
    (len = 0 → trusted m a len = m.recognisedAt a)

/-- PES.payload on the valid path: exactly the declared bytes are read, forwarded to ES with their kind and, for
video, classified; then the packet ends. With ES full they wait in the buffer (47_pes_payload_resync.md R230, R236 to
R238). That one step is one record, and `due` names what comes next, is the model's (log entry 5). The work registers'
values outside a packet are the model's (log entry 15). Where the payload waits is the model's (log entry 16). -/
def Obligations.PayloadForwarded : Prop :=
  ∀ (s : State) (t : Tree) (packetLength headerLength n : Nat), s.run = .running → s.rd.bitpos % 8 = 0 →
    s.ft = some t → t.fieldOf .PES_packet_length = some packetLength →
    t.fieldOf .PES_header_data_length = some headerLength → packetLength = n + 3 + headerLength →
    s.env.src.recognisedAt (s.rd.bitpos / 8 + n) = true →
    ∃ rd, s.rd.MovedTo s.env.src rd (s.rd.bitpos + 8 * n) ∧
      (s.es.length ≤ s.env.esDepthLess1 → exec .pesPayload s = .next ({ s with
        rd := rd
        es := s.es ++ [⟨streamKindOf s.pkt.kind, s.env.src.read (s.rd.bitpos / 8) n⟩]
        esLog := s.esLog ++ [⟨streamKindOf s.pkt.kind, s.env.src.read (s.rd.bitpos / 8) n⟩]
        cnt := if s.pkt.kind = .videoPES then classify (s.env.src.read (s.rd.bitpos / 8) n) s.cnt else s.cnt
        work := { s.work with payload := [] } } : State).finishPacket) ∧
      (s.env.esDepthLess1 < s.es.length → exec .pesPayload s = .next { s with
        rd := rd
        work := { s.work with payload := s.env.src.read (s.rd.bitpos / 8) n, due := .pushEs } })

/-- The classification of a video payload on the valid path: its fifth byte, compared whole, steps one counter or
none, and a shorter payload steps none; the kind of an ES record is the packet's (47_pes_payload_resync.md R237,
R238). -/
def Obligations.ClassifyRule : Prop :=
  ∀ (bs : List Byte) (c : Counters),
    (bs.length < 5 → classify bs c = c) ∧
    (∀ b, bs[4]? = some b →
      (b = 0x65 → classify bs c = { c with iFrameCnt := c.iFrameCnt + 1 }) ∧
      (b = 0x61 → classify bs c = { c with pFrameCnt := c.pFrameCnt + 1 }) ∧
      (b ≠ 0x65 → b ≠ 0x61 → classify bs c = c)) ∧
    streamKindOf .videoPES = .video ∧ streamKindOf .audioPES = .audio

/-- PES.payload with an untrusted length (`PayloadLengthInvalid`): everything up to the resynchronised position is
discarded and not forwarded, the error counter of the kind steps, the packet ends with status Error, the error
registers are not written and the run goes on (47_pes_payload_resync.md R233 to R235; 60_exceptions.md R273). -/
def Obligations.PayloadResync : Prop :=
  ∀ (s : State) (t : Tree) (packetLength headerLength : Nat), s.run = .running → s.rd.bitpos % 8 = 0 →
    s.rd.bitpos ≤ 8 * s.env.src.sizeN → s.ft = some t → t.fieldOf .PES_packet_length = some packetLength →
    t.fieldOf .PES_header_data_length = some headerLength → s.pkt.kind = .videoPES ∨ s.pkt.kind = .audioPES →
    trusted s.env.src (s.rd.bitpos / 8) ((packetLength : Int) - 3 - (headerLength : Int)) = false →
    ∃ rd, s.rd.MovedTo s.env.src rd (8 * s.env.src.resyncFrom (s.rd.bitpos / 8)) ∧
      exec .pesPayload s = .next ({ s with
        rd := rd
        pkt := { s.pkt with status := .error }
        cnt := { s.cnt with
          errVideoFrameCnt :=
            if s.pkt.kind = .videoPES then s.cnt.errVideoFrameCnt + 1 else s.cnt.errVideoFrameCnt
          errAudioFrameCnt :=
            if s.pkt.kind = .audioPES then s.cnt.errAudioFrameCnt + 1 else s.cnt.errAudioFrameCnt } } :
          State).finishPacket

/-- The resync scan finds the least recognised position at or after the current one, the current one included, or the
end of the source if there is none; none of the last three positions is recognised (47_pes_payload_resync.md R233). -/
def Obligations.ResyncFindsLeast : Prop :=
  ∀ (m : Memory) (a : Nat), a ≤ m.sizeN →
    a ≤ m.resyncFrom a ∧ m.resyncFrom a ≤ m.sizeN ∧
    (∀ p, a ≤ p → p < m.resyncFrom a → m.recognisedAt p = false) ∧
    (m.resyncFrom a = m.sizeN ∨ m.recognisedAt (m.resyncFrom a) = true) ∧
    (m.recognisedAt a = true → m.resyncFrom a = a) ∧
    (∀ p, m.sizeN < p + 4 → m.recognisedAt p = false)

/-! ### The end of a packet, errors, waiting -/

/-- The end of a packet: a reportable one waits for room in EVT and then pushes one event with its tree and steps
`pktCnt`, a pack header pushes nothing and its tree is dropped; after that a pending fatal error aborts the run, else
the loop is at its top (42_demux_loop.md R146, R147, R148). A step of the waiting task is the same. That one step is
one record, and `due` names what comes next, is the model's (log entry 5). The work registers' values outside a packet
are the model's (log entry 15). That the tree is gone after its packet is the model's (log entry 29). -/
def Obligations.PacketEnd : Prop :=
  ∀ (s : State),
    (s.pkt.kind ≠ .packHeader → s.evt.length ≤ s.env.qdepthLess1 → ∀ u : State,
      u = { s with
        evt := s.evt ++ [⟨s.pkt.offset, s.pkt.kind, s.pkt.status⟩]
        tree := s.tree ++ [s.theTree]
        evtLog := s.evtLog ++ [⟨s.pkt.offset, s.pkt.kind, s.pkt.status⟩]
        treeLog := s.treeLog ++ [s.theTree]
        cnt := { s.cnt with pktCnt := s.cnt.pktCnt + 1 } } →
      (s.work.pending = none → s.finishPacket = { u with ft := none, work := Work.none }) ∧
      (∀ e, s.work.pending = some e → s.finishPacket = { u with
        ft := none, work := Work.none, run := .aborted, err := ⟨e.code, s.pkt.offset, s.pkt.startCode⟩ })) ∧
    (s.pkt.kind ≠ .packHeader → s.env.qdepthLess1 < s.evt.length →
      s.finishPacket = { s with work := { s.work with due := .finish } }) ∧
    (s.pkt.kind = .packHeader → s.work.pending = none → s.finishPacket = { s with ft := none, work := Work.none }) ∧
    (s.env.turns = [] → s.run = .running → s.work.due = .finish → step s = .next s.finishPacket)

/-- Any record cut short by the end of the source inside a reportable packet: the fields before the failing read are
in the tree, at its root or, of a stream-detail record and of a map entry, in the nested child; the cursor stands at
the failing read; the event is pushed with status Error and the run aborts with `UnexpectedEndOfData`; nothing else
changes, no counter but `pktCnt` (60_exceptions.md R267, R268; 41_field_model.md R131, R132; 46_pes_header.md R215).
`pre` are the fields before the failing one `f`, which there may be none of. The work registers' values outside a
packet are the model's (log entry 15). That the tree is gone after its packet is the model's (log entry 29). -/
def Obligations.RecordPastEnd : Prop :=
  ∀ (i : Instr) (r : Rec) (s : State) (t : Tree) (pre : List FieldVal) (f : FieldVal) (post : List FieldVal),
    i.ctx = some (.record r) → s.run = .running → s.rd.bitpos % 8 = 0 → s.ft = some t → s.work.due ≠ .top →
    s.pkt.kind ≠ .packHeader → s.evt.length ≤ s.env.qdepthLess1 → i.fields = pre ++ f :: post →
    pre = [] ∨ s.rd.bitpos + bitsOf pre ≤ 8 * s.env.src.sizeN →
    8 * s.env.src.sizeN < s.rd.bitpos + bitsOf pre + f.width →
    ∃ rd, s.rd.MovedTo s.env.src rd (s.rd.bitpos + bitsOf pre) ∧
      exec i s = .next (s.failedPacket 2 rd
        (if r = .sysStream then t.withChild .stream pre
          else if r = .psmEntry then t.withChild .es_map_entry pre
          else t.withFields pre))

/-- A skip that passes the end of the source: the descriptor bytes of a program stream map and of its entries, the
private data, the content of the pack-field and extension-2 blocks, and the header stuffing. The record before the
skip is in the tree, an entry's stream type has been written, the cursor stands before the bytes to skip, the event is
pushed with status Error and the run aborts with `UnexpectedEndOfData` (60_exceptions.md R267, R268; 41_field_model.md
R134; 45_program_stream_map.md R180, R186, R189; 46_pes_header.md R208, R209, R212, R213, R215). `n` is the number of
bytes to skip, `tr` the tree and `u` the state before the skip but for its cursor and tree. The work registers' values
outside a packet are the model's (log entry 15). That the tree is gone after its packet is the model's (log entry 29).
-/
def Obligations.SkipPastEnd : Prop :=
  ∀ (i : Instr) (n : Nat) (s u : State) (t tr : Tree),
    (∃ r, i = .psmEntry r ∧ n = r.elementary_stream_info_length.toNat ∧ n + 4 ≤ s.work.esmRemaining ∧
        tr = t.withChild .es_map_entry i.fields ∧ u = { s with
          videoStreamType :=
            if 0xE0 ≤ r.elementary_stream_id.toNat ∧ r.elementary_stream_id.toNat ≤ 0xEF then r.stream_type
            else s.videoStreamType
          audioStreamType :=
            if 0xC0 ≤ r.elementary_stream_id.toNat ∧ r.elementary_stream_id.toNat ≤ 0xDF then r.stream_type
            else s.audioStreamType }) ∨
      u = s ∧ tr = t.withFields i.fields ∧
        ((∃ r, i = .psmFixed r ∧ n = r.program_stream_info_length.toNat) ∨
          (∃ r, i = .pesPrivateData r ∧ n = 16) ∨
          (∃ r, i = .pesPackField r ∧ n = r.pack_field_length.toNat) ∨
          (∃ r, i = .pesExt2 r ∧ n = r.PES_extension_field_length.toNat) ∨
          (∃ declared, i = .pesStuffing ∧ t.fieldOf .PES_header_data_length = some declared ∧
            n = ((declared : Int) - (((s.rd.bitpos / 8 : Nat) : Int) - s.work.hdrMark)).toNat)) →
    s.run = .running → s.rd.bitpos % 8 = 0 → s.ft = some t → s.work.due ≠ .top → s.pkt.kind ≠ .packHeader →
    s.evt.length ≤ s.env.qdepthLess1 → s.rd.bitpos + bitsOf i.fields ≤ 8 * s.env.src.sizeN →
    8 * s.env.src.sizeN < s.rd.bitpos + bitsOf i.fields + 8 * n →
    ∃ rd, s.rd.MovedTo s.env.src rd (s.rd.bitpos + bitsOf i.fields) ∧ exec i s = .next (u.failedPacket 2 rd tr)

/-- Taking a fatal error: in the start-code read or the dispatch the run aborts at once; inside a packet the status
becomes Error and the packet ends with the error pending (60_exceptions.md R267; 42_demux_loop.md R145). The work
registers' values outside a packet are the model's (log entry 15). That the tree is gone after its packet is the
model's (log entry 29). -/
def Obligations.FatalErrorTaken : Prop :=
  ∀ (s : State) (e : Err),
    (s.work.due = .top → s.raiseFatal e = { s with
      err := ⟨e.code, s.pkt.offset, s.pkt.startCode⟩, run := .aborted, ft := none, work := Work.none }) ∧
    (s.work.due ≠ .top → s.raiseFatal e =
      ({ s with pkt := { s.pkt with status := .error }, work := { s.work with pending := some e } } :
        State).finishPacket) ∧
    (s.run = .running → ∀ n, 64 < n →
      exec (.read n) s = .next (s.raiseFatal .requestTooLong) ∧ exec (.peek n) s = .next (s.raiseFatal .requestTooLong))

/-- While a push waits on a full queue nothing changes, whatever the level of CANCEL, and the run goes on; with room
the waiting payload is pushed and its packet ends (70_reset_and_hazards.md R309; 10_state.md R49; 48_host_ops.md
R252). That one step is one record, and `due` names what comes next, is the model's (log entry 5). The work registers'
values outside a packet are the model's (log entry 15). Where the payload waits is the model's (log entry 16). -/
def Obligations.WaitingPush : Prop :=
  ∀ (s : State), s.env.turns = [] → s.run = .running →
    (s.work.due = .finish → s.pkt.kind ≠ .packHeader → s.env.qdepthLess1 < s.evt.length → step s = .next s) ∧
    (s.work.due = .pushEs → s.env.esDepthLess1 < s.es.length → step s = .next s) ∧
    (s.work.due = .pushEs → s.es.length ≤ s.env.esDepthLess1 → step s = .next ({ s with
      es := s.es ++ [⟨streamKindOf s.pkt.kind, s.work.payload⟩]
      esLog := s.esLog ++ [⟨streamKindOf s.pkt.kind, s.work.payload⟩]
      cnt := if s.pkt.kind = .videoPES then classify s.work.payload s.cnt else s.cnt
      work := { s.work with payload := [] } } : State).finishPacket)

/-! ### The host and the consumer -/

/-- START in IDLE begins a run with all state at its reset values, and in any other phase it has no effect; RESET in
any phase puts every register to its reset value and empties the queues and logs (48_host_ops.md R250, R251). The
inputs stay as presented. That the inputs keep their values is the model's (log entry 2). `reply` is the model's place
for what an operation returns (log entry 7). That START puts every field to its reset value is the model's reading
(log entry 18). -/
def Obligations.StartAndReset : Prop :=
  ∀ (s : State),
    (s.run = .idle → exec .start s = .next { State.reset with env := s.env, run := .running, reply := .done }) ∧
    (s.run ≠ .idle → exec .start s = .next { s with reply := .notAccepted }) ∧
    exec .reset s = .next { State.reset with env := s.env, reply := .done }

/-- CANCEL sets the level the loop samples, SummaryRead returns the registers; neither changes anything else
(48_host_ops.md R252, R254). That the inputs keep their values is the model's (log entry 2). `reply` is the model's
place for what an operation returns (log entry 7). -/
def Obligations.CancelAndSummary : Prop :=
  ∀ (s : State),
    (∀ level, exec (.cancel level) s = .next { s with env := { s.env with cancel := level }, reply := .done }) ∧
    exec .summaryRead s = .next { s with
      reply := .summary ⟨s.run, s.err, s.cnt, s.videoStreamType, s.audioStreamType⟩ }

/-- ConsumerPop removes the head record of EVT with its tree, or of ES, and changes nothing else; an empty queue is
left (48_host_ops.md R255). `reply` is the model's place for what an operation returns (log entry 7). -/
def Obligations.ConsumerPopRule : Prop :=
  ∀ (s : State),
    (∀ e es tr trs, s.evt = e :: es → s.tree = tr :: trs →
      exec (.consumerPop .evt) s = .next { s with evt := es, tree := trs, reply := .event e (some tr) }) ∧
    (∀ r rs, s.es = r :: rs → exec (.consumerPop .es) s = .next { s with es := rs, reply := .payload r }) ∧
    (s.evt = [] → exec (.consumerPop .evt) s = .next { s with reply := .empty }) ∧
    (s.es = [] → exec (.consumerPop .es) s = .next { s with reply := .empty })

/-- ParseDetail is accepted in a halted phase only. There it always answers: the empty tree with `UnknownStartCode`
where the bytes at the offset are not the kind's start code, and else a tree of that kind; it changes nothing but the
reply and answers the same again (48_host_ops.md R253). `reply` is the model's place for what an operation returns
(log entry 7). What an empty tree is, and the answer outside a halted phase, are the model's (log entry 13). -/
def Obligations.ParseDetailRule : Prop :=
  ∀ (s : State) (offset : Word) (k : PacketKind),
    (s.run.halted = false → exec (.parseDetail offset k) s = .next { s with reply := .notAccepted }) ∧
    (s.run.halted = true → ∃ tree status,
      exec (.parseDetail offset k) s = .next { s with reply := .detail tree status } ∧
      exec (.parseDetail offset k) { s with reply := .detail tree status } =
        .next { s with reply := .detail tree status } ∧
      (offset.toNat + 4 ≤ s.env.src.sizeN → s.env.src.codeAt offset.toNat ≠ codeOfKind k →
        tree = none ∧ status = some .unknownStartCode) ∧
      (offset.toNat + 4 ≤ s.env.src.sizeN → s.env.src.codeAt offset.toNat = codeOfKind k →
        ∃ t, tree = some t ∧ t.name = .kind k ∧ t.value = (codeOfKind k).setWidth 64))

/-- ParseDetail of a pack header, which no event carries: its fourteen fields and OK (48_host_ops.md R253;
43_pack_header.md R160). `reply` is the model's place for what an operation returns (log entry 7). That a record's
operands are the bits at the cursor is how the model passes them (log entry 20). -/
def Obligations.ParseDetailPack : Prop :=
  ∀ (s : State) (offset : Word) (r : PackBody), s.run.halted = true →
    s.env.src.codeAt offset.toNat = 0x000001BA →
    decodePackBody (s.env.src.bits (8 * (offset.toNat + 4)) 80) = r →
    offset.toNat + 14 + r.pack_stuffing_length.toNat ≤ s.env.src.sizeN →
    exec (.parseDetail offset .packHeader) s = .next { s with
      reply := .detail (some ⟨.kind .packHeader, 0x1BA, (fieldsOfPackBody r).map fun f => ⟨f.name, f.value, []⟩⟩) none }

/-! ### Reset and invariants -/

/-- RESET, in any state, leaves every register, port and log at the value the spec gives it, as the model's reset
state has it (70_reset_and_hazards.md R300; 10_state.md R45). -/
def Obligations.ResetValues : Prop :=
  ∀ (s : State), ∃ t, exec .reset s = .next t ∧ ∀ u, u = t ∨ u = State.reset →
    u.rd = ⟨0, 0, 0, 0⟩ ∧ u.run = .idle ∧ u.err = ⟨0, 0, 0⟩ ∧ u.cnt = ⟨0, 0, 0, 0, 0, 0, 0, 0⟩ ∧
    u.videoStreamType = 0 ∧ u.audioStreamType = 0 ∧ u.ft = none ∧ u.evt = [] ∧ u.es = [] ∧ u.tree = [] ∧
    u.evtLog = [] ∧ u.esLog = [] ∧ u.treeLog = []

/-- The invariants hold after reset, and the source presented there is in its canonical form. The per-packet
registers' values there are the model's (log entry 4). The work registers' values outside a packet are the model's
(log entry 15). -/
def Obligations.InvariantsAtReset : Prop :=
  State.reset.ReaderInv ∧ State.reset.TaskInv ∧ State.reset.ErrInv ∧ State.reset.OutInv ∧ State.reset.CountInv ∧
    State.reset.env.src.wf = true

/-- Every step keeps the BitReader's datapath coherent with its cursor (10_state.md R25), from any coherent state. -/
def Obligations.ReaderInvKept : Prop :=
  ∀ (s t : State), s.ReaderInv → step s = .next t → t.ReaderInv

/-- Every step, of the demux task or of a request, keeps the invariants of the run, of the error registers and of the
output ports (10_state.md R22, R29, R34, R39 to R41; 42_demux_loop.md R145, R146). That one step is one record, and
`due` names what comes next, is the model's (log entry 5). -/
def Obligations.RunInvKept : Prop :=
  ∀ (s t : State), s.TaskInv → s.ErrInv → s.OutInv → step s = .next t → t.TaskInv ∧ t.ErrInv ∧ t.OutInv

/-- Every step keeps the counters as 70_reset_and_hazards.md R316 says they stand, and none overflows (10_state.md
R35). -/
def Obligations.CountInvKept : Prop :=
  ∀ (s t : State), s.ReaderInv → s.TaskInv → s.CountInv → step s = .next t → t.CountInv

/-- The demux task never stops with a refusal or a fault: in every state that meets the invariant of the task its step
answers a next state, whatever the source holds (93_implementation_defined.md Part 1; 40_bitreader.md R116, R118). -/
def Obligations.TaskNeverStops : Prop :=
  ∀ (s : State), s.TaskInv → s.env.turns = [] → ∃ t, step s = .next t

/-- The source, its size and the capacities never change, and no step moves the cursor back in a run (20_memory.md
R60; 10_state.md R21). -/
def Obligations.SourceFixedCursorForward : Prop :=
  ∀ (s t : State), step s = .next t →
    t.env.src = s.env.src ∧ t.env.qdepthLess1 = s.env.qdepthLess1 ∧ t.env.esDepthLess1 = s.env.esDepthLess1 ∧
    (s.run = .running → t.run ≠ .idle → s.rd.bitpos ≤ t.rd.bitpos)

/-- In a halted phase nothing but RESET, the consumer and the host's CANCEL input changes any state: a step of the
demux task changes nothing, and any other request leaves all but the reply as it was (10_state.md R32;
60_exceptions.md R276). That an agenda says who moves is the model's (log entry 6). `reply` is the model's place for
what an operation returns (log entry 7). What an empty tree is, and the answer outside a halted phase, are the model's
(log entry 13). -/
def Obligations.HaltedStays : Prop :=
  ∀ (s t : State), s.run.halted = true → step s = .next t →
    (s.env.turns = [] → t = s) ∧
    (∀ ts, s.env.turns = .task :: ts → t = { s with env := { s.env with turns := ts } }) ∧
    (∀ i ts, s.env.turns = .request i :: ts → i ≠ .reset → (∀ p, i ≠ .consumerPop p) → (∀ l, i ≠ .cancel l) →
      t = { s with env := { s.env with turns := ts }, reply := t.reply })
end

