-- ==== Sys2Proof/Laws/State.lean ====
section
/-! SUPPORT. What each named update of the state does to each field, so that no later proof unfolds a record update; the
fields of the state after reset; and the same for the updates of a reader, a tree and a source. -/

namespace Sys2Proof.Machine

/-! ### The abort -/

@[simp] theorem State.abort_env (e : Err) (s : State) : (s.abort e).env = s.env := rfl
@[simp] theorem State.abort_rd (e : Err) (s : State) : (s.abort e).rd = s.rd := rfl
@[simp] theorem State.abort_pkt (e : Err) (s : State) : (s.abort e).pkt = s.pkt := rfl
@[simp] theorem State.abort_ft (e : Err) (s : State) : (s.abort e).ft = none := rfl
@[simp] theorem State.abort_work (e : Err) (s : State) : (s.abort e).work = Work.none := rfl
@[simp] theorem State.abort_run (e : Err) (s : State) : (s.abort e).run = .aborted := rfl
@[simp] theorem State.abort_err (e : Err) (s : State) : (s.abort e).err = ⟨e.code, s.pkt.offset, s.pkt.startCode⟩ := rfl
@[simp] theorem State.abort_cnt (e : Err) (s : State) : (s.abort e).cnt = s.cnt := rfl
@[simp] theorem State.abort_videoStreamType (e : Err) (s : State) : (s.abort e).videoStreamType = s.videoStreamType := rfl
@[simp] theorem State.abort_audioStreamType (e : Err) (s : State) : (s.abort e).audioStreamType = s.audioStreamType := rfl
@[simp] theorem State.abort_evt (e : Err) (s : State) : (s.abort e).evt = s.evt := rfl
@[simp] theorem State.abort_es (e : Err) (s : State) : (s.abort e).es = s.es := rfl
@[simp] theorem State.abort_tree (e : Err) (s : State) : (s.abort e).tree = s.tree := rfl
@[simp] theorem State.abort_evtLog (e : Err) (s : State) : (s.abort e).evtLog = s.evtLog := rfl
@[simp] theorem State.abort_esLog (e : Err) (s : State) : (s.abort e).esLog = s.esLog := rfl
@[simp] theorem State.abort_treeLog (e : Err) (s : State) : (s.abort e).treeLog = s.treeLog := rfl
@[simp] theorem State.abort_reply (e : Err) (s : State) : (s.abort e).reply = s.reply := rfl

/-! ### The push of an event -/

@[simp] theorem State.pushEvent_env (s : State) : (s.pushEvent).env = s.env := rfl
@[simp] theorem State.pushEvent_rd (s : State) : (s.pushEvent).rd = s.rd := rfl
@[simp] theorem State.pushEvent_pkt (s : State) : (s.pushEvent).pkt = s.pkt := rfl
@[simp] theorem State.pushEvent_ft (s : State) : (s.pushEvent).ft = s.ft := rfl
@[simp] theorem State.pushEvent_work (s : State) : (s.pushEvent).work = s.work := rfl
@[simp] theorem State.pushEvent_run (s : State) : (s.pushEvent).run = s.run := rfl
@[simp] theorem State.pushEvent_err (s : State) : (s.pushEvent).err = s.err := rfl
@[simp] theorem State.pushEvent_cnt (s : State) : (s.pushEvent).cnt = { s.cnt with pktCnt := s.cnt.pktCnt + 1 } := rfl
@[simp] theorem State.pushEvent_videoStreamType (s : State) : (s.pushEvent).videoStreamType = s.videoStreamType := rfl
@[simp] theorem State.pushEvent_audioStreamType (s : State) : (s.pushEvent).audioStreamType = s.audioStreamType := rfl
@[simp] theorem State.pushEvent_evt (s : State) : (s.pushEvent).evt = s.evt ++ [s.event] := rfl
@[simp] theorem State.pushEvent_es (s : State) : (s.pushEvent).es = s.es := rfl
@[simp] theorem State.pushEvent_tree (s : State) : (s.pushEvent).tree = s.tree ++ [s.theTree] := rfl
@[simp] theorem State.pushEvent_evtLog (s : State) : (s.pushEvent).evtLog = s.evtLog ++ [s.event] := rfl
@[simp] theorem State.pushEvent_esLog (s : State) : (s.pushEvent).esLog = s.esLog := rfl
@[simp] theorem State.pushEvent_treeLog (s : State) : (s.pushEvent).treeLog = s.treeLog ++ [s.theTree] := rfl
@[simp] theorem State.pushEvent_reply (s : State) : (s.pushEvent).reply = s.reply := rfl

/-! ### The dispatch -/

@[simp] theorem State.dispatch_env (k : PacketKind) (first : Rec) (s : State) : (s.dispatch k first).env = s.env := rfl
@[simp] theorem State.dispatch_rd (k : PacketKind) (first : Rec) (s : State) : (s.dispatch k first).rd = s.rd := rfl
@[simp] theorem State.dispatch_pkt (k : PacketKind) (first : Rec) (s : State) : (s.dispatch k first).pkt = ⟨s.pkt.offset, k, .ok, codeOfKind k⟩ := rfl
@[simp] theorem State.dispatch_ft (k : PacketKind) (first : Rec) (s : State) : (s.dispatch k first).ft = some (Tree.ofKind k (codeOfKind k)) := rfl
@[simp] theorem State.dispatch_work (k : PacketKind) (first : Rec) (s : State) : (s.dispatch k first).work = { Work.none with due := .record first } := rfl
@[simp] theorem State.dispatch_run (k : PacketKind) (first : Rec) (s : State) : (s.dispatch k first).run = s.run := rfl
@[simp] theorem State.dispatch_err (k : PacketKind) (first : Rec) (s : State) : (s.dispatch k first).err = s.err := rfl
@[simp] theorem State.dispatch_cnt (k : PacketKind) (first : Rec) (s : State) : (s.dispatch k first).cnt = countEntry k s.cnt := rfl
@[simp] theorem State.dispatch_videoStreamType (k : PacketKind) (first : Rec) (s : State) : (s.dispatch k first).videoStreamType = s.videoStreamType := rfl
@[simp] theorem State.dispatch_audioStreamType (k : PacketKind) (first : Rec) (s : State) : (s.dispatch k first).audioStreamType = s.audioStreamType := rfl
@[simp] theorem State.dispatch_evt (k : PacketKind) (first : Rec) (s : State) : (s.dispatch k first).evt = s.evt := rfl
@[simp] theorem State.dispatch_es (k : PacketKind) (first : Rec) (s : State) : (s.dispatch k first).es = s.es := rfl
@[simp] theorem State.dispatch_tree (k : PacketKind) (first : Rec) (s : State) : (s.dispatch k first).tree = s.tree := rfl
@[simp] theorem State.dispatch_evtLog (k : PacketKind) (first : Rec) (s : State) : (s.dispatch k first).evtLog = s.evtLog := rfl
@[simp] theorem State.dispatch_esLog (k : PacketKind) (first : Rec) (s : State) : (s.dispatch k first).esLog = s.esLog := rfl
@[simp] theorem State.dispatch_treeLog (k : PacketKind) (first : Rec) (s : State) : (s.dispatch k first).treeLog = s.treeLog := rfl
@[simp] theorem State.dispatch_reply (k : PacketKind) (first : Rec) (s : State) : (s.dispatch k first).reply = s.reply := rfl

/-! ### The copy ParseDetail works on -/

@[simp] theorem State.scratch_env (a : Nat) (s : State) : (s.scratch a).env = s.env := rfl
@[simp] theorem State.scratch_rd (a : Nat) (s : State) : (s.scratch a).rd = Reader.atByte a := rfl
@[simp] theorem State.scratch_pkt (a : Nat) (s : State) : (s.scratch a).pkt = s.pkt := rfl
@[simp] theorem State.scratch_ft (a : Nat) (s : State) : (s.scratch a).ft = none := rfl
@[simp] theorem State.scratch_work (a : Nat) (s : State) : (s.scratch a).work = Work.none := rfl
@[simp] theorem State.scratch_run (a : Nat) (s : State) : (s.scratch a).run = s.run := rfl
@[simp] theorem State.scratch_err (a : Nat) (s : State) : (s.scratch a).err = s.err := rfl
@[simp] theorem State.scratch_cnt (a : Nat) (s : State) : (s.scratch a).cnt = s.cnt := rfl
@[simp] theorem State.scratch_videoStreamType (a : Nat) (s : State) : (s.scratch a).videoStreamType = s.videoStreamType := rfl
@[simp] theorem State.scratch_audioStreamType (a : Nat) (s : State) : (s.scratch a).audioStreamType = s.audioStreamType := rfl
@[simp] theorem State.scratch_evt (a : Nat) (s : State) : (s.scratch a).evt = [] := rfl
@[simp] theorem State.scratch_es (a : Nat) (s : State) : (s.scratch a).es = [] := rfl
@[simp] theorem State.scratch_tree (a : Nat) (s : State) : (s.scratch a).tree = [] := rfl
@[simp] theorem State.scratch_evtLog (a : Nat) (s : State) : (s.scratch a).evtLog = s.evtLog := rfl
@[simp] theorem State.scratch_esLog (a : Nat) (s : State) : (s.scratch a).esLog = s.esLog := rfl
@[simp] theorem State.scratch_treeLog (a : Nat) (s : State) : (s.scratch a).treeLog = s.treeLog := rfl
@[simp] theorem State.scratch_reply (a : Nat) (s : State) : (s.scratch a).reply = .none := rfl

/-! ### The tree an operation works on -/

@[simp] theorem State.withTree_env (s : State) : (s.withTree).env = s.env := rfl
@[simp] theorem State.withTree_rd (s : State) : (s.withTree).rd = s.rd := rfl
@[simp] theorem State.withTree_pkt (s : State) : (s.withTree).pkt = s.pkt := rfl
@[simp] theorem State.withTree_ft (s : State) : (s.withTree).ft = some s.theTree := rfl
@[simp] theorem State.withTree_work (s : State) : (s.withTree).work = s.work := rfl
@[simp] theorem State.withTree_run (s : State) : (s.withTree).run = s.run := rfl
@[simp] theorem State.withTree_err (s : State) : (s.withTree).err = s.err := rfl
@[simp] theorem State.withTree_cnt (s : State) : (s.withTree).cnt = s.cnt := rfl
@[simp] theorem State.withTree_videoStreamType (s : State) : (s.withTree).videoStreamType = s.videoStreamType := rfl
@[simp] theorem State.withTree_audioStreamType (s : State) : (s.withTree).audioStreamType = s.audioStreamType := rfl
@[simp] theorem State.withTree_evt (s : State) : (s.withTree).evt = s.evt := rfl
@[simp] theorem State.withTree_es (s : State) : (s.withTree).es = s.es := rfl
@[simp] theorem State.withTree_tree (s : State) : (s.withTree).tree = s.tree := rfl
@[simp] theorem State.withTree_evtLog (s : State) : (s.withTree).evtLog = s.evtLog := rfl
@[simp] theorem State.withTree_esLog (s : State) : (s.withTree).esLog = s.esLog := rfl
@[simp] theorem State.withTree_treeLog (s : State) : (s.withTree).treeLog = s.treeLog := rfl
@[simp] theorem State.withTree_reply (s : State) : (s.withTree).reply = s.reply := rfl

/-! ### The state after reset -/

@[simp] theorem State.reset_env : State.reset.env = Env.initial := rfl
@[simp] theorem State.reset_rd : State.reset.rd = Reader.atByte 0 := rfl
@[simp] theorem State.reset_pkt : State.reset.pkt = ⟨0, .packHeader, .ok, 0⟩ := rfl
@[simp] theorem State.reset_ft : State.reset.ft = none := rfl
@[simp] theorem State.reset_work : State.reset.work = Work.none := rfl
@[simp] theorem State.reset_run : State.reset.run = .idle := rfl
@[simp] theorem State.reset_err : State.reset.err = ⟨0, 0, 0⟩ := rfl
@[simp] theorem State.reset_cnt : State.reset.cnt = ⟨0, 0, 0, 0, 0, 0, 0, 0⟩ := rfl
@[simp] theorem State.reset_videoStreamType : State.reset.videoStreamType = 0 := rfl
@[simp] theorem State.reset_audioStreamType : State.reset.audioStreamType = 0 := rfl
@[simp] theorem State.reset_evt : State.reset.evt = [] := rfl
@[simp] theorem State.reset_es : State.reset.es = [] := rfl
@[simp] theorem State.reset_tree : State.reset.tree = [] := rfl
@[simp] theorem State.reset_evtLog : State.reset.evtLog = [] := rfl
@[simp] theorem State.reset_esLog : State.reset.esLog = [] := rfl
@[simp] theorem State.reset_treeLog : State.reset.treeLog = [] := rfl
@[simp] theorem State.reset_reply : State.reset.reply = .none := rfl

/-! ### A field recorded -/

@[simp] theorem State.record_env (p : Place) (v : FieldVal) (s : State) : (s.record p v).env = s.env := by cases p <;> rfl
@[simp] theorem State.record_rd (p : Place) (v : FieldVal) (s : State) : (s.record p v).rd = s.rd := by cases p <;> rfl
@[simp] theorem State.record_pkt (p : Place) (v : FieldVal) (s : State) : (s.record p v).pkt = s.pkt := by cases p <;> rfl
@[simp] theorem State.record_work (p : Place) (v : FieldVal) (s : State) : (s.record p v).work = s.work := by cases p <;> rfl
@[simp] theorem State.record_run (p : Place) (v : FieldVal) (s : State) : (s.record p v).run = s.run := by cases p <;> rfl
@[simp] theorem State.record_err (p : Place) (v : FieldVal) (s : State) : (s.record p v).err = s.err := by cases p <;> rfl
@[simp] theorem State.record_cnt (p : Place) (v : FieldVal) (s : State) : (s.record p v).cnt = s.cnt := by cases p <;> rfl
@[simp] theorem State.record_videoStreamType (p : Place) (v : FieldVal) (s : State) : (s.record p v).videoStreamType = s.videoStreamType := by cases p <;> rfl
@[simp] theorem State.record_audioStreamType (p : Place) (v : FieldVal) (s : State) : (s.record p v).audioStreamType = s.audioStreamType := by cases p <;> rfl
@[simp] theorem State.record_evt (p : Place) (v : FieldVal) (s : State) : (s.record p v).evt = s.evt := by cases p <;> rfl
@[simp] theorem State.record_es (p : Place) (v : FieldVal) (s : State) : (s.record p v).es = s.es := by cases p <;> rfl
@[simp] theorem State.record_tree (p : Place) (v : FieldVal) (s : State) : (s.record p v).tree = s.tree := by cases p <;> rfl
@[simp] theorem State.record_evtLog (p : Place) (v : FieldVal) (s : State) : (s.record p v).evtLog = s.evtLog := by cases p <;> rfl
@[simp] theorem State.record_esLog (p : Place) (v : FieldVal) (s : State) : (s.record p v).esLog = s.esLog := by cases p <;> rfl
@[simp] theorem State.record_treeLog (p : Place) (v : FieldVal) (s : State) : (s.record p v).treeLog = s.treeLog := by cases p <;> rfl
@[simp] theorem State.record_reply (p : Place) (v : FieldVal) (s : State) : (s.record p v).reply = s.reply := by cases p <;> rfl
@[simp] theorem State.record_root_ft (v : FieldVal) (s : State) :
    (s.record .root v).ft = some (s.theTree.append ⟨v.name, v.value, []⟩) := rfl
@[simp] theorem State.record_lastChild_ft (v : FieldVal) (s : State) :
    (s.record .lastChild v).ft = some (s.theTree.appendLeaf ⟨v.name, v.value⟩) := rfl

/-! ### The stream-type registers -/

@[simp] theorem State.setStreamType_env (t id : Byte) (s : State) : (setStreamType t id s).env = s.env := by
  unfold setStreamType; repeat (split <;> try rfl)
@[simp] theorem State.setStreamType_rd (t id : Byte) (s : State) : (setStreamType t id s).rd = s.rd := by
  unfold setStreamType; repeat (split <;> try rfl)
@[simp] theorem State.setStreamType_pkt (t id : Byte) (s : State) : (setStreamType t id s).pkt = s.pkt := by
  unfold setStreamType; repeat (split <;> try rfl)
@[simp] theorem State.setStreamType_ft (t id : Byte) (s : State) : (setStreamType t id s).ft = s.ft := by
  unfold setStreamType; repeat (split <;> try rfl)
@[simp] theorem State.setStreamType_work (t id : Byte) (s : State) : (setStreamType t id s).work = s.work := by
  unfold setStreamType; repeat (split <;> try rfl)
@[simp] theorem State.setStreamType_run (t id : Byte) (s : State) : (setStreamType t id s).run = s.run := by
  unfold setStreamType; repeat (split <;> try rfl)
@[simp] theorem State.setStreamType_err (t id : Byte) (s : State) : (setStreamType t id s).err = s.err := by
  unfold setStreamType; repeat (split <;> try rfl)
@[simp] theorem State.setStreamType_cnt (t id : Byte) (s : State) : (setStreamType t id s).cnt = s.cnt := by
  unfold setStreamType; repeat (split <;> try rfl)
@[simp] theorem State.setStreamType_evt (t id : Byte) (s : State) : (setStreamType t id s).evt = s.evt := by
  unfold setStreamType; repeat (split <;> try rfl)
@[simp] theorem State.setStreamType_es (t id : Byte) (s : State) : (setStreamType t id s).es = s.es := by
  unfold setStreamType; repeat (split <;> try rfl)
@[simp] theorem State.setStreamType_tree (t id : Byte) (s : State) : (setStreamType t id s).tree = s.tree := by
  unfold setStreamType; repeat (split <;> try rfl)
@[simp] theorem State.setStreamType_evtLog (t id : Byte) (s : State) : (setStreamType t id s).evtLog = s.evtLog := by
  unfold setStreamType; repeat (split <;> try rfl)
@[simp] theorem State.setStreamType_esLog (t id : Byte) (s : State) : (setStreamType t id s).esLog = s.esLog := by
  unfold setStreamType; repeat (split <;> try rfl)
@[simp] theorem State.setStreamType_treeLog (t id : Byte) (s : State) : (setStreamType t id s).treeLog = s.treeLog := by
  unfold setStreamType; repeat (split <;> try rfl)
@[simp] theorem State.setStreamType_reply (t id : Byte) (s : State) : (setStreamType t id s).reply = s.reply := by
  unfold setStreamType; repeat (split <;> try rfl)

/-! ### The reader, the tree, the source -/

@[simp] theorem Reader.fetchByte_bitpos (m : Memory) (r : Reader) : (r.fetchByte m).bitpos = r.bitpos := rfl
@[simp] theorem Reader.fetchByte_remaining (m : Memory) (r : Reader) : (r.fetchByte m).remaining = r.remaining + 8 := rfl
@[simp] theorem Reader.fetchByte_srcCursor (m : Memory) (r : Reader) : (r.fetchByte m).srcCursor = r.srcCursor + 1 := rfl
@[simp] theorem Reader.advance_bitpos (n : Nat) (r : Reader) : (r.advance n).bitpos = r.bitpos + n := rfl
@[simp] theorem Reader.advance_window (n : Nat) (r : Reader) : (r.advance n).window = r.window <<< n := rfl
@[simp] theorem Reader.advance_srcCursor (n : Nat) (r : Reader) : (r.advance n).srcCursor = r.srcCursor := rfl
@[simp] theorem Reader.bulk_bitpos (len : Nat) (r : Reader) : (r.bulk len).bitpos = r.bitpos + 8 * len := rfl
@[simp] theorem Reader.atByte_bitpos (a : Nat) : (Reader.atByte a).bitpos = 8 * a := rfl
@[simp] theorem Reader.atByte_window (a : Nat) : (Reader.atByte a).window = 0 := rfl
@[simp] theorem Reader.atByte_remaining (a : Nat) : (Reader.atByte a).remaining = 0 := rfl
@[simp] theorem Reader.atByte_srcCursor (a : Nat) : (Reader.atByte a).srcCursor = BitVec.ofNat 64 a := rfl
@[simp] theorem Tree.append_name (n : Node) (t : Tree) : (t.append n).name = t.name := rfl
@[simp] theorem Tree.append_value (n : Node) (t : Tree) : (t.append n).value = t.value := rfl
@[simp] theorem Tree.append_children (n : Node) (t : Tree) : (t.append n).children = t.children ++ [n] := rfl
@[simp] theorem Tree.appendLeaf_name (l : Leaf) (t : Tree) : (t.appendLeaf l).name = t.name := rfl
@[simp] theorem Tree.appendLeaf_value (l : Leaf) (t : Tree) : (t.appendLeaf l).value = t.value := rfl
@[simp] theorem Memory.write_size (m : Memory) (a : Nat) (b : Byte) : (m.write a b).size = m.size := by
  unfold Memory.write; split <;> rfl
@[simp] theorem Memory.write_sizeN (m : Memory) (a : Nat) (b : Byte) : (m.write a b).sizeN = m.sizeN := by
  simp [Memory.sizeN]

end Sys2Proof.Machine
end

