-- ==== Sys2Proof/Laws/Memory.lean ====
section
/-! SUPPORT. The source: a byte written reads back and no other byte changes, every operation keeps the canonical form, and
the bits of a number are the bits of the stream. -/

namespace Sys2Proof.Machine

/-! ### Cells -/

/-- Cells in the canonical form. -/
def CellsOk (cs : List Host.Cell) : Prop := cs.Pairwise (fun a b => a.1 < b.1) ∧ ∀ c ∈ cs, c.2 ≠ 0

theorem Memory.wf_iff (m : Memory) : m.wf = true ↔ CellsOk m.cells ∧ ∀ c ∈ m.cells, c.1 < m.sizeN := by
  simp only [Memory.wf, CellsOk, Memory.sizeN, Bool.and_eq_true, decide_eq_true_eq, List.all_eq_true, bne_iff_ne]
  constructor
  · rintro ⟨h, h'⟩
    exact ⟨⟨h, fun c hc => (h' c hc).1⟩, fun c hc => (h' c hc).2⟩
  · rintro ⟨⟨h, h'⟩, h''⟩
    exact ⟨h, fun c hc => ⟨h' c hc, h'' c hc⟩⟩

theorem lookupCell_absent {cs : List Host.Cell} {a : Nat} (h : ∀ c ∈ cs, c.1 ≠ a) : lookupCell cs a = 0 := by
  induction cs with
  | nil => rfl
  | cons c cs ih =>
    simp only [lookupCell]
    rw [if_neg (h c (by simp))]
    exact ih fun d hd => h d (by simp [hd])

theorem mem_writeCell {a : Nat} {b : Byte} {cs : List Host.Cell} {c : Host.Cell} (h : c ∈ writeCell a b cs) :
    c ∈ cs ∨ (c = (a, b) ∧ b ≠ 0) := by
  induction cs with
  | nil =>
    simp only [writeCell] at h
    split at h
    · simp at h
    · rename_i hb; right; exact ⟨by simpa using h, hb⟩
  | cons d cs ih =>
    simp only [writeCell] at h
    split at h
    · split at h
      · left; exact h
      · rename_i hb
        rcases List.mem_cons.1 h with h | h
        · right; exact ⟨h, hb⟩
        · left; exact h
    · split at h
      · split at h
        · left; simp [h]
        · rename_i hb
          rcases List.mem_cons.1 h with h | h
          · right; exact ⟨h, hb⟩
          · left; simp [h]
      · rcases List.mem_cons.1 h with h | h
        · left; simp [h]
        · rcases ih h with h | h
          · left; simp [h]
          · right; exact h

theorem cellsOk_writeCell (a : Nat) (b : Byte) {cs : List Host.Cell} (h : CellsOk cs) : CellsOk (writeCell a b cs) := by
  refine ⟨?_, fun c hc => ?_⟩
  · obtain ⟨h, -⟩ := h
    induction cs with
    | nil => simp only [writeCell]; split <;> simp
    | cons d cs ih =>
      obtain ⟨hd, hcs⟩ := List.pairwise_cons.1 h
      simp only [writeCell]
      split
      · rename_i hlt
        split
        · exact h
        · refine List.pairwise_cons.2 ⟨fun e he => ?_, h⟩
          rcases List.mem_cons.1 he with rfl | he
          · exact hlt
          · exact Nat.lt_trans hlt (hd e he)
      · split
        · rename_i heq
          split
          · exact hcs
          · exact List.pairwise_cons.2 ⟨fun e he => heq ▸ hd e he, hcs⟩
        · rename_i hlt heq
          refine List.pairwise_cons.2 ⟨fun e he => ?_, ih hcs⟩
          rcases mem_writeCell he with he | ⟨rfl, -⟩
          · exact hd e he
          · show d.1 < a
            omega
  · rcases mem_writeCell hc with hc | ⟨rfl, hb⟩
    · exact h.2 c hc
    · exact hb

theorem lookupCell_writeCell {cs : List Host.Cell} (h : CellsOk cs) (a : Nat) (b : Byte) (x : Nat) :
    lookupCell (writeCell a b cs) x = if x = a then b else lookupCell cs x := by
  obtain ⟨h, -⟩ := h
  induction cs with
  | nil =>
    simp only [writeCell]
    by_cases hb : b = 0
    · simp [hb, lookupCell]
    · simp only [if_neg hb, lookupCell]
      by_cases hx : x = a
      · simp [hx]
      · simp [hx, Ne.symm hx]
  | cons c cs ih =>
    obtain ⟨hc, hcs⟩ := List.pairwise_cons.1 h
    simp only [writeCell]
    by_cases hlt : a < c.1
    · have habs : lookupCell (c :: cs) a = 0 := lookupCell_absent fun d hd => by
        rcases List.mem_cons.1 hd with rfl | hd
        · omega
        · have := hc d hd; omega
      rw [if_pos hlt]
      by_cases hb : b = 0
      · rw [if_pos hb]
        by_cases hx : x = a
        · rw [if_pos hx, hx, habs, hb]
        · rw [if_neg hx]
      · rw [if_neg hb]
        simp only [lookupCell]
        by_cases hx : x = a
        · simp [hx]
        · simp [hx, Ne.symm hx]
    · rw [if_neg hlt]
      by_cases heq : a = c.1
      · rw [if_pos heq]
        by_cases hb : b = 0
        · rw [if_pos hb]
          by_cases hx : x = a
          · rw [if_pos hx, hb]
            exact lookupCell_absent fun d hd => by have := hc d hd; omega
          · rw [if_neg hx, lookupCell, if_neg (by omega)]
        · rw [if_neg hb]
          simp only [lookupCell]
          by_cases hx : x = a
          · simp [hx]
          · rw [if_neg (Ne.symm hx), if_neg hx, if_neg (by omega)]
      · rw [if_neg heq]
        simp only [lookupCell]
        by_cases hcx : c.1 = x
        · rw [if_pos hcx, if_pos hcx, if_neg (by omega)]
        · rw [if_neg hcx, if_neg hcx]
          exact ih hcs

/-! ### The source -/

/-- A byte written reads back, and every other byte reads as before. -/
theorem Memory.byte_write {m : Memory} (h : m.wf = true) {a : Nat} (ha : a < m.sizeN) (b : Byte) (x : Nat) :
    (m.write a b).byte x = if x = a then b else m.byte x := by
  simp only [Memory.write, if_pos ha, Memory.byte]
  exact lookupCell_writeCell ((m.wf_iff).1 h).1 a b x

/-- A write keeps the canonical form. -/
theorem Memory.wf_write {m : Memory} (h : m.wf = true) (a : Nat) (b : Byte) : (m.write a b).wf = true := by
  unfold Memory.write
  split
  · rename_i ha
    rw [Memory.wf_iff] at h ⊢
    refine ⟨cellsOk_writeCell a b h.1, fun c hc => ?_⟩
    rcases mem_writeCell hc with hc | ⟨rfl, -⟩
    · exact h.2 c hc
    · exact ha
  · exact h

theorem Memory.wf_writeBytes {m : Memory} (h : m.wf = true) (a : Nat) (bs : List Byte) :
    (m.writeBytes a bs).wf = true := by
  induction bs generalizing m a with
  | nil => exact h
  | cons b bs ih => exact ih (Memory.wf_write h a b) (a + 1)

@[simp] theorem Memory.writeBytes_sizeN (m : Memory) (a : Nat) (bs : List Byte) :
    (m.writeBytes a bs).sizeN = m.sizeN := by
  induction bs generalizing m a with
  | nil => rfl
  | cons b bs ih => rw [Memory.writeBytes, ih, Memory.write_sizeN]

/-- Bytes presented read back, and every other byte reads as before. -/
theorem Memory.byte_writeBytes {m : Memory} (h : m.wf = true) (a : Nat) (bs : List Byte) (hs : a + bs.length ≤ m.sizeN)
    (x : Nat) : (m.writeBytes a bs).byte x = if a ≤ x then (bs[x - a]?).getD (m.byte x) else m.byte x := by
  induction bs generalizing m a with
  | nil => simp [Memory.writeBytes]
  | cons b bs ih =>
    simp only [List.length_cons] at hs
    rw [Memory.writeBytes, ih (Memory.wf_write h a b) (a + 1) (by simpa using by omega),
      Memory.byte_write h (by omega)]
    rcases Nat.lt_trichotomy x a with hx | rfl | hx
    · rw [if_neg (by omega), if_neg (by omega), if_neg (by omega)]
    · rw [if_neg (by omega), if_pos rfl, if_pos (Nat.le_refl x)]
      simp
    · rw [if_pos (by omega), if_neg (by omega), if_pos (by omega)]
      obtain ⟨d, rfl⟩ : ∃ d, x = a + 1 + d := ⟨x - (a + 1), by omega⟩
      have h1 : a + 1 + d - (a + 1) = d := by omega
      have h2 : a + 1 + d - a = d + 1 := by omega
      rw [h1, h2, List.getElem?_cons_succ]

/-- A source of given bytes is in the canonical form. -/
theorem Memory.wf_ofBytes (bs : List Byte) : (Memory.ofBytes bs).wf = true :=
  Memory.wf_writeBytes (by rfl) 0 bs

/-- A grown source stays in the canonical form. -/
theorem Memory.wf_grow {m : Memory} (h : m.wf = true) {n : Word} (hn : m.sizeN ≤ n.toNat) :
    ({ m with size := n } : Memory).wf = true := by
  rw [Memory.wf_iff] at h ⊢
  exact ⟨h.1, fun c hc => Nat.lt_of_lt_of_le (h.2 c hc) hn⟩

/-- Placing an instruction keeps the canonical form, where the grown source still has a 64-bit size. -/
theorem Memory.wf_place {m : Memory} (h : m.wf = true) (a : Nat) (bs : List Byte) (ha : a + longestBytes < 2 ^ 64) :
    (m.place a bs).wf = true := by
  refine Memory.wf_writeBytes (Memory.wf_grow h ?_) _ _
  have : m.sizeN < 2 ^ 64 := m.size.isLt
  rw [BitVec.toNat_ofNat, Nat.mod_eq_of_lt (by omega)]
  exact Nat.le_max_left _ _

theorem reset_memory_wf : State.reset.env.src.wf = true := by rfl

/-! ### Bytes and bits -/

@[simp] theorem Memory.length_read (m : Memory) (a n : Nat) : (m.read a n).length = n := by
  induction n generalizing a with
  | zero => rfl
  | succ n ih => simp [Memory.read, ih]

theorem Memory.getElem?_read (m : Memory) (a n k : Nat) :
    (m.read a n)[k]? = if k < n then some (m.byte (a + k)) else none := by
  induction n generalizing a k with
  | zero => simp [Memory.read]
  | succ n ih =>
    cases k with
    | zero => simp [Memory.read]
    | succ k =>
      rw [Memory.read, List.getElem?_cons_succ, ih]
      simp only [Nat.add_lt_add_iff_right]
      congr 3
      omega

theorem Memory.bits_lt (m : Memory) (p n : Nat) : m.bits p n < 2 ^ n := by
  induction n with
  | zero => simp [Memory.bits]
  | succ n ih =>
    have : (m.bit (p + n)).toNat ≤ 1 := Bool.toNat_le _
    rw [Memory.bits, Nat.pow_succ]
    omega

/-- Bit `i` of `Bits(p, n)`: the digits are the stream bits, the first the most significant. -/
theorem Memory.testBit_bits (m : Memory) (p n i : Nat) :
    (m.bits p n).testBit i = (decide (i < n) && m.bit (p + (n - 1 - i))) := by
  induction n generalizing i with
  | zero => simp [Memory.bits]
  | succ n ih =>
    have hb : m.bits p (n + 1) = Nat.bit (m.bit (p + n)) (m.bits p n) := by
      rw [Memory.bits, Nat.bit_val]
    rw [hb]
    cases i with
    | zero => simp
    | succ i =>
      rw [Nat.testBit_bit_succ, ih]
      have h1 : decide (i + 1 < n + 1) = decide (i < n) := by simp
      have h2 : n + 1 - 1 - (i + 1) = n - 1 - i := by omega
      rw [h1, h2]

theorem Memory.bits_one (m : Memory) (p : Nat) : m.bits p 1 = (m.bit p).toNat := by
  simp [Memory.bits]

/-- One byte is its eight bits. -/
theorem Memory.bits_byte (m : Memory) (a : Nat) : m.bits (8 * a) 8 = (m.byte a).toNat := by
  apply Nat.eq_of_testBit_eq
  intro i
  rw [Memory.testBit_bits, ← BitVec.getLsbD]
  by_cases hi : i < 8
  · have h1 : (8 * a + (8 - 1 - i)) / 8 = a := by omega
    have h2 : 7 - (8 * a + (8 - 1 - i)) % 8 = i := by omega
    rw [Memory.bit, h1, h2]
    simp [hi]
  · rw [BitVec.getLsbD_of_ge _ _ (by omega)]
    simp [hi]

theorem beNat_append (bs : List Byte) (b : Byte) : beNat (bs ++ [b]) = beNat bs * 256 + b.toNat := by
  simp [beNat]

theorem Memory.read_succ (m : Memory) (a n : Nat) : m.read a (n + 1) = m.read a n ++ [m.byte (a + n)] := by
  induction n generalizing a with
  | zero => simp [Memory.read]
  | succ n ih =>
    rw [Memory.read, ih, Memory.read]
    simp [Nat.add_assoc, Nat.add_comm 1]

/-- Whole bytes, most significant first, are their bits (20_memory.md R52). -/
theorem Memory.beNat_read (m : Memory) (a n : Nat) : beNat (m.read a n) = m.bits (8 * a) (8 * n) := by
  apply Nat.eq_of_testBit_eq
  intro i
  induction n generalizing i with
  | zero => simp [Memory.read, beNat, Memory.bits]
  | succ n ih =>
    have h8 : (m.byte (a + n)).toNat < 2 ^ 8 := (m.byte (a + n)).isLt
    rw [Memory.read_succ, beNat_append, Memory.testBit_bits, show (256 : Nat) = 2 ^ 8 from rfl,
      Nat.mul_comm, Nat.testBit_two_pow_mul_add _ h8]
    by_cases hi : i < 8
    · rw [if_pos hi, ← Memory.bits_byte, Memory.testBit_bits]
      have h1 : 8 * (a + n) + (8 - 1 - i) = 8 * a + (8 * (n + 1) - 1 - i) := by omega
      rw [h1]
      have h2 : i < 8 * (n + 1) := by omega
      simp [hi, h2]
    · rw [if_neg hi, ih, Memory.testBit_bits]
      have h1 : 8 * n - 1 - (i - 8) = 8 * (n + 1) - 1 - i := by omega
      rw [h1]
      congr 1
      simp only [decide_eq_decide]
      omega

end Sys2Proof.Machine
end

