-- ==== Sys2Proof/Laws/Reader.lean ====
section
/-! SUPPORT. The BitReader: every operation keeps its datapath coherent with its cursor (10_state.md R25), the window holds
the bits asked for when a request is served, and for each operation one lemma for each way it can end. -/

namespace Sys2Proof.Machine

/-! ### The datapath -/

theorem Reader.Coherent.bitpos_le {m : Memory} {r : Reader} (h : r.Coherent m) : r.bitpos ≤ 8 * m.sizeN := by
  obtain ⟨-, h2, h3, -⟩ := h
  omega

theorem Reader.coherent_atByte {m : Memory} {a : Nat} (ha : a ≤ m.sizeN) : (Reader.atByte a).Coherent m := by
  have hs : m.sizeN < 2 ^ 64 := m.size.isLt
  have ht : (BitVec.ofNat 64 a).toNat = a := by rw [BitVec.toNat_ofNat, Nat.mod_eq_of_lt (by omega)]
  refine ⟨by simp, ?_, ?_, fun k _ => ?_⟩
  · simpa [ht] using ha
  · simp [ht]
  · simp

theorem Reader.Coherent.fetchByte {m : Memory} {r : Reader} (h : r.Coherent m) (h8 : r.remaining.toNat ≤ 56)
    (hs : r.srcCursor.toNat < m.sizeN) : (r.fetchByte m).Coherent m := by
  obtain ⟨-, -, h3, h4⟩ := h
  have hsz : m.sizeN < 2 ^ 64 := m.size.isLt
  have hr : (r.remaining + 8).toNat = r.remaining.toNat + 8 := by
    rw [BitVec.toNat_add]
    show (r.remaining.toNat + 8) % 2 ^ 7 = _
    omega
  have hc : (r.srcCursor + 1).toNat = r.srcCursor.toNat + 1 := by
    rw [BitVec.toNat_add]
    show (r.srcCursor.toNat + 1) % 2 ^ 64 = _
    omega
  refine ⟨by simp only [Reader.fetchByte_remaining, hr]; omega, by simp only [Reader.fetchByte_srcCursor, hc]; omega,
    by simp only [Reader.fetchByte_remaining, Reader.fetchByte_srcCursor, Reader.fetchByte_bitpos, hr, hc]; omega,
    fun k hk => ?_⟩
  simp only [Reader.fetchByte_remaining, Reader.fetchByte_bitpos, hr]
  show (r.window ||| ((m.byte r.srcCursor.toNat).setWidth 64 <<< (64 - r.remaining.toNat - 8))).getLsbD (63 - k) = _
  rw [BitVec.getLsbD_or, h4 k hk, BitVec.getLsbD_shiftLeft, BitVec.getLsbD_setWidth]
  by_cases h1 : k < r.remaining.toNat
  · have h2 : 8 ≤ 63 - k - (64 - r.remaining.toNat - 8) := by omega
    have h5 : k < r.remaining.toNat + 8 := by omega
    rw [BitVec.getLsbD_of_ge (m.byte _) _ h2]
    simp [h1, h5]
  · by_cases h2 : k < r.remaining.toNat + 8
    · have h5 : ¬63 - k < 64 - r.remaining.toNat - 8 := by omega
      have h6 : 63 - k < 64 := by omega
      have h7 : 63 - k - (64 - r.remaining.toNat - 8) < 64 := by omega
      have h8 : m.bit (r.bitpos + k) =
          (m.byte r.srcCursor.toNat).getLsbD (63 - k - (64 - r.remaining.toNat - 8)) := by
        have e1 : (r.bitpos + k) / 8 = r.srcCursor.toNat := by omega
        have e2 : 7 - (r.bitpos + k) % 8 = 63 - k - (64 - r.remaining.toNat - 8) := by omega
        rw [Memory.bit, e1, e2]
      simp [h1, h2, h5, h6, h7, h8]
    · have h5 : 63 - k < 64 - r.remaining.toNat - 8 := by omega
      simp [h1, h2, h5]

@[simp] theorem Reader.fetch_bitpos (m : Memory) (k : Nat) (r : Reader) : (r.fetch m k).bitpos = r.bitpos := by
  induction k generalizing r with
  | zero => rfl
  | succ k ih => rw [Reader.fetch, ih, Reader.fetchByte_bitpos]

theorem Reader.Coherent.fetch {m : Memory} {r : Reader} (h : r.Coherent m) (k : Nat)
    (h8 : r.remaining.toNat + 8 * k ≤ 64) (hs : r.srcCursor.toNat + k ≤ m.sizeN) :
    (r.fetch m k).Coherent m ∧ (r.fetch m k).remaining.toNat = r.remaining.toNat + 8 * k := by
  induction k generalizing r with
  | zero => exact ⟨h, rfl⟩
  | succ k ih =>
    have hsz : m.sizeN < 2 ^ 64 := m.size.isLt
    have hr : (r.fetchByte m).remaining.toNat = r.remaining.toNat + 8 := by
      rw [Reader.fetchByte_remaining, BitVec.toNat_add]
      show (r.remaining.toNat + 8) % 2 ^ 7 = _
      omega
    have hc : (r.fetchByte m).srcCursor.toNat = r.srcCursor.toNat + 1 := by
      rw [Reader.fetchByte_srcCursor, BitVec.toNat_add]
      show (r.srcCursor.toNat + 1) % 2 ^ 64 = _
      omega
    obtain ⟨h1, h2⟩ := ih (h.fetchByte (by omega) (by omega)) (by omega) (by omega)
    exact ⟨h1, by rw [Reader.fetch, h2, hr]; omega⟩

@[simp] theorem Reader.refill_bitpos (m : Memory) (r : Reader) : (r.refill m).bitpos = r.bitpos := by
  simp [Reader.refill]

@[simp] theorem Reader.ready_bitpos (m : Memory) (n : Nat) (r : Reader) : (r.ready m n).bitpos = r.bitpos := by
  unfold Reader.ready
  split <;> simp

theorem Reader.Coherent.refill {m : Memory} {r : Reader} (h : r.Coherent m) :
    (r.refill m).Coherent m ∧ (r.refill m).remaining.toNat =
      r.remaining.toNat + 8 * min ((64 - r.remaining.toNat) / 8) (m.sizeN - r.srcCursor.toNat) :=
  h.fetch _ (by have := h.1; omega) (by have := h.2.1; omega)

/-- A request the window can serve and the source can fill finds its bits buffered (40_bitreader.md R112, R113). -/
theorem Reader.Coherent.ready {m : Memory} {r : Reader} (h : r.Coherent m) {n : Nat} (hw : n + r.bitpos % 8 ≤ 64)
    (he : r.bitpos + n ≤ 8 * m.sizeN) : (r.ready m n).Coherent m ∧ n ≤ (r.ready m n).remaining.toNat := by
  unfold Reader.ready
  split
  · obtain ⟨h1, h2⟩ := h.refill
    refine ⟨h1, ?_⟩
    obtain ⟨h3, h4, h5, -⟩ := h
    rw [h2]
    omega
  · exact ⟨h, by omega⟩

theorem Reader.Coherent.advance {m : Memory} {r : Reader} (h : r.Coherent m) {n : Nat} (hn : n ≤ r.remaining.toNat) :
    (r.advance n).Coherent m := by
  obtain ⟨h1, h2, h3, h4⟩ := h
  have hr : (r.advance n).remaining.toNat = r.remaining.toNat - n := by
    show (r.remaining - BitVec.ofNat 7 n).toNat = _
    rw [BitVec.toNat_sub, BitVec.toNat_ofNat]
    omega
  refine ⟨by omega, h2, by simp only [Reader.advance_bitpos, Reader.advance_srcCursor, hr]; omega, fun k hk => ?_⟩
  rw [hr, Reader.advance_window, Reader.advance_bitpos, BitVec.getLsbD_shiftLeft]
  by_cases hkn : k + n < 64
  · have h5 : 63 - k - n = 63 - (k + n) := by omega
    have h6 : ¬63 - k < n := by omega
    have h7 : 63 - k < 64 := by omega
    rw [h5, h4 (k + n) hkn]
    have h8 : r.bitpos + n + k = r.bitpos + (k + n) := by omega
    have h9 : decide (k + n < r.remaining.toNat) = decide (k < r.remaining.toNat - n) := by
      simp only [decide_eq_decide]; omega
    simp [h6, h7, h8, h9]
  · have h6 : 63 - k < n := by omega
    have h7 : ¬k < r.remaining.toNat - n := by omega
    simp [h6, h7]

theorem Reader.Coherent.bulk {m : Memory} {r : Reader} (h : r.Coherent m) {len : Nat} (ha : r.bitpos % 8 = 0)
    (he : r.bitpos / 8 + len ≤ m.sizeN) : (r.bulk len).Coherent m := by
  obtain ⟨h1, h2, h3, h4⟩ := h
  have hsz : m.sizeN < 2 ^ 64 := m.size.isLt
  by_cases hk : len ≤ r.remaining.toNat / 8
  · have hm : min len (r.remaining.toNat / 8) = len := Nat.min_eq_left hk
    have hb : r.bulk len = r.advance (8 * len) := by
      simp only [Reader.bulk, hm, Reader.advance, Nat.sub_self]
      simp
    rw [hb]
    exact Reader.Coherent.advance ⟨h1, h2, h3, h4⟩ (by omega)
  · have hm : min len (r.remaining.toNat / 8) = r.remaining.toNat / 8 := Nat.min_eq_right (by omega)
    have h8 : 8 * (r.remaining.toNat / 8) = r.remaining.toNat := by omega
    have hr : (r.bulk len).remaining.toNat = 0 := by
      simp only [Reader.bulk, hm, h8]
      rw [BitVec.toNat_sub, BitVec.toNat_ofNat]
      omega
    have hc : (r.bulk len).srcCursor.toNat = r.srcCursor.toNat + (len - r.remaining.toNat / 8) := by
      simp only [Reader.bulk, hm]
      rw [BitVec.toNat_add, BitVec.toNat_ofNat]
      omega
    refine ⟨by omega, by omega, by rw [hr, hc, Reader.bulk_bitpos]; omega, fun k hk64 => ?_⟩
    rw [hr]
    have hw : (r.bulk len).window = r.window <<< r.remaining.toNat := by simp only [Reader.bulk, hm, h8]
    rw [hw, BitVec.getLsbD_shiftLeft]
    by_cases hkn : k + r.remaining.toNat < 64
    · have h5 : 63 - k - r.remaining.toNat = 63 - (k + r.remaining.toNat) := by omega
      rw [h5, h4 _ hkn]
      simp
    · have h6 : 63 - k < r.remaining.toNat := by omega
      simp [h6]

@[simp] theorem Reader.dropBytes_bitpos (m : Memory) (n : Nat) (r : Reader) :
    (r.dropBytes m n).bitpos = r.bitpos + 8 * n := by
  induction n generalizing r with
  | zero => rfl
  | succ n ih =>
    rw [Reader.dropBytes, ih, Reader.advance_bitpos, Reader.ready_bitpos]
    omega

theorem Reader.Coherent.dropBytes {m : Memory} {r : Reader} (h : r.Coherent m) {n : Nat}
    (he : r.bitpos + 8 * n ≤ 8 * m.sizeN) : (r.dropBytes m n).Coherent m := by
  induction n generalizing r with
  | zero => exact h
  | succ n ih =>
    obtain ⟨h1, h2⟩ := h.ready (n := 8) (by omega) (by omega)
    refine ih (h1.advance h2) ?_
    rw [Reader.advance_bitpos, Reader.ready_bitpos]
    omega

/-- The top `n` bits of a window that holds them are the next `n` bits of the stream (40_bitreader.md R113). -/
theorem Reader.Coherent.window_top {m : Memory} {r : Reader} (h : r.Coherent m) {n : Nat} (hn : n ≤ r.remaining.toNat) :
    r.window.toNat / 2 ^ (64 - n) = m.bits r.bitpos n := by
  obtain ⟨h1, -, -, h4⟩ := h
  apply Nat.eq_of_testBit_eq
  intro i
  rw [Memory.testBit_bits, Nat.testBit_div_two_pow, ← BitVec.getLsbD]
  by_cases hi : i < n
  · have h5 : 63 - (n - 1 - i) = 64 - n + i := by omega
    have h6 := h4 (n - 1 - i) (by omega)
    rw [h5] at h6
    have h7 : n - 1 - i < r.remaining.toNat := by omega
    rw [show i + (64 - n) = 64 - n + i by omega, h6]
    simp [hi, h7]
  · rw [BitVec.getLsbD_of_ge _ _ (by omega)]
    simp [hi]

/-! ### How each operation ends -/

theorem Reader.peek_eq_ok {m : Memory} {r : Reader} {n : Nat} (h1 : 1 ≤ n) (hw : n + r.bitpos % 8 ≤ 64)
    (he : r.bitpos + n ≤ 8 * m.sizeN) : r.peek m n = .ok (m.bits r.bitpos n) (r.ready m n) := by
  rw [Reader.peek, if_neg (by omega), if_neg (by omega), if_neg (by omega), if_neg (by omega)]

theorem Reader.peek_ok {m : Memory} {r r' : Reader} {n v : Nat} (h : r.peek m n = .ok v r') :
    1 ≤ n ∧ n + r.bitpos % 8 ≤ 64 ∧ r.bitpos + n ≤ 8 * m.sizeN ∧ v = m.bits r.bitpos n ∧ r' = r.ready m n := by
  unfold Reader.peek at h
  repeat' split at h
  all_goals cases h
  exact ⟨by omega, by omega, by omega, rfl, rfl⟩

theorem Reader.peek_raise {m : Memory} {r r' : Reader} {n : Nat} {e : Err} (h : r.peek m n = .raise e r') :
    r' = r ∧ (64 < n ∧ e = .requestTooLong ∨
      1 ≤ n ∧ n + r.bitpos % 8 ≤ 64 ∧ 8 * m.sizeN < r.bitpos + n ∧ e = .unexpectedEndOfData) := by
  unfold Reader.peek at h
  repeat' split at h
  all_goals cases h
  · exact ⟨rfl, .inl ⟨by assumption, rfl⟩⟩
  · exact ⟨rfl, .inr ⟨by omega, by omega, by assumption, rfl⟩⟩

theorem Reader.peek_refuse {m : Memory} {r : Reader} {n : Nat} {x : Refusal} (h : r.peek m n = .refuse x) :
    n = 0 ∧ x = .zeroBits ∨ n ≤ 64 ∧ 64 < n + r.bitpos % 8 ∧ x = .windowLimit := by
  unfold Reader.peek at h
  repeat' split at h
  all_goals cases h
  · exact .inl ⟨by assumption, rfl⟩
  · exact .inr ⟨by omega, by assumption, rfl⟩

theorem Reader.read_eq_ok {m : Memory} {r : Reader} {n : Nat} (h1 : 1 ≤ n) (hw : n + r.bitpos % 8 ≤ 64)
    (he : r.bitpos + n ≤ 8 * m.sizeN) : r.read m n = .ok (m.bits r.bitpos n) ((r.ready m n).advance n) := by
  rw [Reader.read, Reader.peek_eq_ok h1 hw he]
  rfl

theorem Reader.read_ok {m : Memory} {r r' : Reader} {n v : Nat} (h : r.read m n = .ok v r') :
    1 ≤ n ∧ n + r.bitpos % 8 ≤ 64 ∧ r.bitpos + n ≤ 8 * m.sizeN ∧ v = m.bits r.bitpos n ∧
      r' = (r.ready m n).advance n := by
  unfold Reader.read at h
  rcases hp : r.peek m n with ⟨v', r''⟩ | ⟨e, r''⟩ | x <;> rw [hp] at h <;> cases h
  obtain ⟨h1, h2, h3, h4, h5⟩ := Reader.peek_ok hp
  exact ⟨h1, h2, h3, h4, by rw [h5]⟩

theorem Reader.read_raise {m : Memory} {r r' : Reader} {n : Nat} {e : Err} (h : r.read m n = .raise e r') :
    r' = r ∧ (64 < n ∧ e = .requestTooLong ∨
      1 ≤ n ∧ n + r.bitpos % 8 ≤ 64 ∧ 8 * m.sizeN < r.bitpos + n ∧ e = .unexpectedEndOfData) := by
  unfold Reader.read at h
  rcases hp : r.peek m n with ⟨v', r''⟩ | ⟨e', r''⟩ | x <;> rw [hp] at h <;> cases h
  exact Reader.peek_raise hp

theorem Reader.read_refuse {m : Memory} {r : Reader} {n : Nat} {x : Refusal} (h : r.read m n = .refuse x) :
    n = 0 ∧ x = .zeroBits ∨ n ≤ 64 ∧ 64 < n + r.bitpos % 8 ∧ x = .windowLimit := by
  unfold Reader.read at h
  rcases hp : r.peek m n with ⟨v', r''⟩ | ⟨e', r''⟩ | y <;> rw [hp] at h <;> cases h
  exact Reader.peek_refuse hp

theorem Reader.readBytes_ok {m : Memory} {r r' : Reader} {len : Nat} {bs : List Byte}
    (h : r.readBytes m len = .ok bs r') :
    r.bitpos % 8 = 0 ∧ r.bitpos / 8 + len ≤ m.sizeN ∧ bs = m.read (r.bitpos / 8) len ∧ r' = r.bulk len := by
  unfold Reader.readBytes at h
  repeat' split at h
  all_goals cases h
  exact ⟨by omega, by omega, rfl, rfl⟩

theorem Reader.readBytes_eq_ok {m : Memory} {r : Reader} {len : Nat} (ha : r.bitpos % 8 = 0)
    (he : r.bitpos / 8 + len ≤ m.sizeN) : r.readBytes m len = .ok (m.read (r.bitpos / 8) len) (r.bulk len) := by
  rw [Reader.readBytes, if_neg (by omega), if_neg (by omega)]

theorem Reader.readBytes_raise {m : Memory} {r r' : Reader} {len : Nat} {e : Err}
    (h : r.readBytes m len = .raise e r') :
    r' = r ∧ r.bitpos % 8 = 0 ∧ m.sizeN < r.bitpos / 8 + len ∧ e = .unexpectedEndOfData := by
  unfold Reader.readBytes at h
  repeat' split at h
  all_goals cases h
  exact ⟨rfl, by omega, by omega, rfl⟩

theorem Reader.readBytes_refuse {m : Memory} {r : Reader} {len : Nat} {x : Refusal}
    (h : r.readBytes m len = .refuse x) : r.bitpos % 8 ≠ 0 ∧ x = .unalignedReadBytes := by
  unfold Reader.readBytes at h
  repeat' split at h
  all_goals cases h
  exact ⟨by omega, rfl⟩

theorem Reader.skipBytes_ok {m : Memory} {r r' : Reader} {n : Nat} (h : r.skipBytes m n = .ok () r') :
    r.bitpos + 8 * n ≤ 8 * m.sizeN ∧ r' = if r.bitpos % 8 = 0 then r.bulk n else r.dropBytes m n := by
  unfold Reader.skipBytes at h
  split at h
  · cases h
  · injection h with _ h
    exact ⟨by omega, h.symm⟩

theorem Reader.skipBytes_eq_ok {m : Memory} {r : Reader} {n : Nat} (he : r.bitpos + 8 * n ≤ 8 * m.sizeN) :
    r.skipBytes m n = .ok () (if r.bitpos % 8 = 0 then r.bulk n else r.dropBytes m n) := by
  rw [Reader.skipBytes, if_neg (by omega)]

theorem Reader.skipBytes_raise {m : Memory} {r r' : Reader} {n : Nat} {e : Err} (h : r.skipBytes m n = .raise e r') :
    r' = r ∧ 8 * m.sizeN < r.bitpos + 8 * n ∧ e = .unexpectedEndOfData := by
  unfold Reader.skipBytes at h
  split at h
  · cases h
    exact ⟨rfl, by assumption, rfl⟩
  · cases h

theorem Reader.skipBytes_refuse {m : Memory} {r : Reader} {n : Nat} {x : Refusal} :
    r.skipBytes m n ≠ .refuse x := by
  unfold Reader.skipBytes
  split <;> simp

theorem Reader.offset_ok {r r' : Reader} {a : Nat} (h : r.offset = .ok a r') :
    r.bitpos % 8 = 0 ∧ a = r.bitpos / 8 ∧ r' = r := by
  unfold Reader.offset at h
  split at h <;> cases h
  exact ⟨by omega, rfl, rfl⟩

theorem Reader.offset_eq_ok {r : Reader} (ha : r.bitpos % 8 = 0) : r.offset = .ok (r.bitpos / 8) r := by
  rw [Reader.offset, if_neg (by omega)]

theorem Reader.offset_raise {r r' : Reader} {e : Err} : r.offset ≠ .raise e r' := by
  unfold Reader.offset
  split <;> simp

theorem Reader.offset_refuse {r : Reader} {x : Refusal} (h : r.offset = .refuse x) :
    r.bitpos % 8 ≠ 0 ∧ x = .unalignedOffset := by
  unfold Reader.offset at h
  split at h <;> cases h
  exact ⟨by assumption, rfl⟩

/-! ### Where each operation leaves the reader -/

theorem Reader.movedTo_refl (m : Memory) (r : Reader) : r.MovedTo m r r.bitpos := ⟨rfl, id⟩

theorem Reader.MovedTo.trans {m : Memory} {r r' r'' : Reader} {p q : Nat} (h : r.MovedTo m r' p)
    (h' : r'.MovedTo m r'' q) : r.MovedTo m r'' q := ⟨h'.1, fun hc => h'.2 (h.2 hc)⟩

theorem Reader.movedTo_of_peek_ok {m : Memory} {r r' : Reader} {n v : Nat} (h : r.peek m n = .ok v r') :
    r.MovedTo m r' r.bitpos := by
  obtain ⟨-, h2, h3, -, rfl⟩ := Reader.peek_ok h
  exact ⟨Reader.ready_bitpos m n r, fun hc => (hc.ready h2 h3).1⟩

theorem Reader.movedTo_of_read_ok {m : Memory} {r r' : Reader} {n v : Nat} (h : r.read m n = .ok v r') :
    r.MovedTo m r' (r.bitpos + n) := by
  obtain ⟨-, h2, h3, -, rfl⟩ := Reader.read_ok h
  exact ⟨by rw [Reader.advance_bitpos, Reader.ready_bitpos], fun hc => (hc.ready h2 h3).1.advance (hc.ready h2 h3).2⟩

theorem Reader.movedTo_of_readBytes_ok {m : Memory} {r r' : Reader} {len : Nat} {bs : List Byte}
    (h : r.readBytes m len = .ok bs r') : r.MovedTo m r' (r.bitpos + 8 * len) := by
  obtain ⟨h1, h2, -, rfl⟩ := Reader.readBytes_ok h
  exact ⟨Reader.bulk_bitpos len r, fun hc => hc.bulk h1 h2⟩

theorem Reader.movedTo_of_skipBytes_ok {m : Memory} {r r' : Reader} {n : Nat} (h : r.skipBytes m n = .ok () r') :
    r.MovedTo m r' (r.bitpos + 8 * n) := by
  obtain ⟨h1, rfl⟩ := Reader.skipBytes_ok h
  split
  · rename_i ha
    exact ⟨Reader.bulk_bitpos n r, fun hc => hc.bulk ha (by omega)⟩
  · exact ⟨Reader.dropBytes_bitpos m n r, fun hc => hc.dropBytes h1⟩

end Sys2Proof.Machine
end

