-- ==== Sys2Proof/Laws/Field.lean ====
section
/-! SUPPORT. The Field Model: how sequenced operations end, one lemma for each shared operation that says everything it can
do, and what the trees they build hold. -/

namespace Sys2Proof.Machine

/-! ### How an operation ends -/

/-- How an operation can end: with a value, with an error, with a refusal. -/
def Res.Sat {σ α : Type} (r : Res σ α) (P : α → σ → Prop) (Q : Err → σ → Prop) (N : Refusal → Prop) : Prop :=
  match r with
  | .ok a s => P a s
  | .raise e s => Q e s
  | .refuse x => N x

theorem Res.Sat.mono {σ α : Type} {r : Res σ α} {P P' : α → σ → Prop} {Q Q' : Err → σ → Prop} {N N' : Refusal → Prop}
    (h : r.Sat P Q N) (hP : ∀ a s, P a s → P' a s) (hQ : ∀ e s, Q e s → Q' e s) (hN : ∀ x, N x → N' x) :
    r.Sat P' Q' N' := by
  cases r with
  | ok a s => exact hP a s h
  | raise e s => exact hQ e s h
  | refuse x => exact hN x h

/-- Sequencing: how the second operation ends, or the first one where it does not answer. -/
theorem Res.Sat.bind {σ α β : Type} {r : Res σ α} {f : α → σ → Res σ β} {P : α → σ → Prop} {P' : β → σ → Prop}
    {Q : Err → σ → Prop} {N : Refusal → Prop} (h : r.Sat P Q N) (hf : ∀ a s, P a s → (f a s).Sat P' Q N) :
    (r.bind f).Sat P' Q N := by
  cases r with
  | ok a s => exact hf a s h
  | raise e s => exact h
  | refuse x => exact h

@[simp] theorem Res.bind_ok {σ α β : Type} (a : α) (s : σ) (f : α → σ → Res σ β) : (Res.ok a s).bind f = f a s := rfl
@[simp] theorem Res.bind_raise {σ α β : Type} (e : Err) (s : σ) (f : α → σ → Res σ β) :
    (Res.raise e s : Res σ α).bind f = .raise e s := rfl
@[simp] theorem Res.bind_refuse {σ α β : Type} (x : Refusal) (f : α → σ → Res σ β) :
    (Res.refuse x : Res σ α).bind f = .refuse x := rfl

/-! ### The BitReader as the machine's own -/

/-- Everything `read(n)` can do (40_bitreader.md R114). -/
theorem State.read_sat (n : Nat) (s : State) :
    (s.read n).Sat
      (fun v s' => 1 ≤ n ∧ n + s.rd.bitpos % 8 ≤ 64 ∧ s.rd.bitpos + n ≤ 8 * s.env.src.sizeN ∧
        v = s.env.src.bits s.rd.bitpos n ∧ ∃ rd, s.rd.MovedTo s.env.src rd (s.rd.bitpos + n) ∧ s' = { s with rd := rd })
      (fun e s' => s' = s ∧ (64 < n ∧ e = .requestTooLong ∨ 1 ≤ n ∧ n + s.rd.bitpos % 8 ≤ 64 ∧
        8 * s.env.src.sizeN < s.rd.bitpos + n ∧ e = .unexpectedEndOfData))
      (fun x => n = 0 ∧ x = .zeroBits ∨ n ≤ 64 ∧ 64 < n + s.rd.bitpos % 8 ∧ x = .windowLimit) := by
  unfold State.read State.onReader
  rcases h : s.rd.read s.env.src n with ⟨v, rd⟩ | ⟨e, rd⟩ | x
  · obtain ⟨h1, h2, h3, h4, -⟩ := Reader.read_ok h
    exact ⟨h1, h2, h3, h4, rd, Reader.movedTo_of_read_ok h, rfl⟩
  · obtain ⟨rfl, h1⟩ := Reader.read_raise h
    exact ⟨rfl, h1⟩
  · exact Reader.read_refuse h

/-- Everything `peek(n)` can do (40_bitreader.md R113). -/
theorem State.peek_sat (n : Nat) (s : State) :
    (s.peek n).Sat
      (fun v s' => 1 ≤ n ∧ n + s.rd.bitpos % 8 ≤ 64 ∧ s.rd.bitpos + n ≤ 8 * s.env.src.sizeN ∧
        v = s.env.src.bits s.rd.bitpos n ∧ ∃ rd, s.rd.MovedTo s.env.src rd s.rd.bitpos ∧ s' = { s with rd := rd })
      (fun e s' => s' = s ∧ (64 < n ∧ e = .requestTooLong ∨ 1 ≤ n ∧ n + s.rd.bitpos % 8 ≤ 64 ∧
        8 * s.env.src.sizeN < s.rd.bitpos + n ∧ e = .unexpectedEndOfData))
      (fun x => n = 0 ∧ x = .zeroBits ∨ n ≤ 64 ∧ 64 < n + s.rd.bitpos % 8 ∧ x = .windowLimit) := by
  unfold State.peek State.onReader
  rcases h : s.rd.peek s.env.src n with ⟨v, rd⟩ | ⟨e, rd⟩ | x
  · obtain ⟨h1, h2, h3, h4, -⟩ := Reader.peek_ok h
    exact ⟨h1, h2, h3, h4, rd, Reader.movedTo_of_peek_ok h, rfl⟩
  · obtain ⟨rfl, h1⟩ := Reader.peek_raise h
    exact ⟨rfl, h1⟩
  · exact Reader.peek_refuse h

/-- Everything `readBytes` can do (40_bitreader.md R117). -/
theorem State.readBytes_sat (len : Nat) (s : State) :
    (s.readBytes len).Sat
      (fun bs s' => s.rd.bitpos % 8 = 0 ∧ s.rd.bitpos / 8 + len ≤ s.env.src.sizeN ∧
        bs = s.env.src.read (s.rd.bitpos / 8) len ∧
        ∃ rd, s.rd.MovedTo s.env.src rd (s.rd.bitpos + 8 * len) ∧ s' = { s with rd := rd })
      (fun e s' => s' = s ∧ s.rd.bitpos % 8 = 0 ∧ s.env.src.sizeN < s.rd.bitpos / 8 + len ∧ e = .unexpectedEndOfData)
      (fun x => s.rd.bitpos % 8 ≠ 0 ∧ x = .unalignedReadBytes) := by
  unfold State.readBytes State.onReader
  rcases h : s.rd.readBytes s.env.src len with ⟨v, rd⟩ | ⟨e, rd⟩ | x
  · obtain ⟨h1, h2, h3, -⟩ := Reader.readBytes_ok h
    exact ⟨h1, h2, h3, rd, Reader.movedTo_of_readBytes_ok h, rfl⟩
  · obtain ⟨rfl, h1⟩ := Reader.readBytes_raise h
    exact ⟨rfl, h1⟩
  · exact Reader.readBytes_refuse h

/-- Everything `skipBytes(n)` can do (41_field_model.md R134). -/
theorem State.skip_sat (n : Nat) (s : State) :
    (s.skip n).Sat
      (fun _ s' => s.rd.bitpos + 8 * n ≤ 8 * s.env.src.sizeN ∧
        ∃ rd, s.rd.MovedTo s.env.src rd (s.rd.bitpos + 8 * n) ∧ s' = { s with rd := rd })
      (fun e s' => s' = s ∧ 8 * s.env.src.sizeN < s.rd.bitpos + 8 * n ∧ e = .unexpectedEndOfData)
      (fun _ => False) := by
  unfold State.skip State.onReader
  rcases h : s.rd.skipBytes s.env.src n with ⟨v, rd⟩ | ⟨e, rd⟩ | x
  · exact ⟨(Reader.skipBytes_ok h).1, rd, Reader.movedTo_of_skipBytes_ok h, rfl⟩
  · obtain ⟨rfl, h1⟩ := Reader.skipBytes_raise h
    exact ⟨rfl, h1⟩
  · exact Reader.skipBytes_refuse h

/-- `off()` at an aligned cursor (00_scope.md R11). -/
theorem State.off_eq_ok {s : State} (h : s.rd.bitpos % 8 = 0) : s.off = .ok (s.rd.bitpos / 8) s := by
  rw [State.off, Reader.offset_eq_ok h]
  rfl

/-- Everything `off()` can do (40_bitreader.md R118). -/
theorem State.off_sat (s : State) :
    s.off.Sat (fun a s' => s.rd.bitpos % 8 = 0 ∧ a = s.rd.bitpos / 8 ∧ s' = s) (fun _ _ => False)
      (fun x => s.rd.bitpos % 8 ≠ 0 ∧ x = .unalignedOffset) := by
  unfold State.off State.onReader
  rcases h : s.rd.offset with ⟨v, rd⟩ | ⟨e, rd⟩ | x
  · obtain ⟨h1, h2, rfl⟩ := Reader.offset_ok h
    exact ⟨h1, h2, rfl⟩
  · exact Reader.offset_raise h
  · exact Reader.offset_refuse h

/-! ### Trees -/

@[simp] theorem Tree.withFields_name (t : Tree) (fs : List FieldVal) : (t.withFields fs).name = t.name := rfl
@[simp] theorem Tree.withFields_value (t : Tree) (fs : List FieldVal) : (t.withFields fs).value = t.value := rfl
@[simp] theorem Tree.withChild_name (t : Tree) (n : NodeName) (fs : List FieldVal) :
    (t.withChild n fs).name = t.name := rfl
@[simp] theorem Tree.withChild_value (t : Tree) (n : NodeName) (fs : List FieldVal) :
    (t.withChild n fs).value = t.value := rfl

@[simp] theorem Tree.withFields_nil (t : Tree) : t.withFields [] = t := by
  simp [Tree.withFields]

theorem Tree.withFields_append (t : Tree) (fs gs : List FieldVal) :
    t.withFields (fs ++ gs) = (t.withFields fs).withFields gs := by
  simp [Tree.withFields]

theorem Tree.withFields_cons (t : Tree) (f : FieldVal) (fs : List FieldVal) :
    t.withFields (f :: fs) = (t.append ⟨f.name, f.value, []⟩).withFields fs := by
  simp [Tree.withFields, Tree.append]

theorem appendToLast_append (l : Leaf) (ns : List Node) (n : Node) :
    appendToLast l (ns ++ [n]) = ns ++ [{ n with children := n.children ++ [l] }] := by
  induction ns with
  | nil => rfl
  | cons m ns ih =>
    cases ns with
    | nil => rfl
    | cons k ns => exact congrArg (m :: ·) ih

theorem Tree.withChild_snoc (t : Tree) (name : NodeName) (fs : List FieldVal) (f : FieldVal) :
    (t.withChild name fs).appendLeaf ⟨f.name, f.value⟩ = t.withChild name (fs ++ [f]) := by
  simp [Tree.withChild, Tree.appendLeaf, appendToLast_append]

theorem lookupNode_append (name : NodeName) (ns ms : List Node) :
    lookupNode name (ns ++ ms) = (lookupNode name ns).or (lookupNode name ms) := by
  induction ns with
  | nil => rfl
  | cons n ns ih =>
    simp only [List.cons_append, lookupNode]
    split
    · rfl
    · exact ih

theorem Tree.fieldOf_withFields {t : Tree} {f : FieldName} {v : Nat} (h : t.fieldOf f = some v) (fs : List FieldVal) :
    (t.withFields fs).fieldOf f = some v := by
  obtain ⟨w, hw, rfl⟩ := Option.map_eq_some_iff.1 h
  simp [Tree.fieldOf, Tree.withFields, lookupNode_append, hw]

theorem Tree.fieldOf_withChild {t : Tree} {f : FieldName} {v : Nat} (h : t.fieldOf f = some v) (name : NodeName)
    (fs : List FieldVal) : (t.withChild name fs).fieldOf f = some v := by
  obtain ⟨w, hw, rfl⟩ := Option.map_eq_some_iff.1 h
  simp [Tree.fieldOf, Tree.withChild, lookupNode_append, hw]

theorem lookupNode_isSome_of_mem {name : NodeName} {fs : List FieldVal} (h : name ∈ fs.map FieldVal.name) :
    (lookupNode name (fs.map fun f => ⟨f.name, f.value, []⟩)).isSome := by
  induction fs with
  | nil => simp at h
  | cons f fs ih =>
    simp only [List.map_cons, lookupNode]
    split
    · rfl
    · rename_i hne
      rcases List.mem_cons.1 h with rfl | h
      · exact absurd rfl hne
      · exact ih h

/-- A field just decoded can be read back. -/
theorem Tree.isSome_fieldOf_withFields (t : Tree) {f : FieldName} {fs : List FieldVal}
    (h : NodeName.field f ∈ fs.map FieldVal.name) : ((t.withFields fs).fieldOf f).isSome := by
  simp [Tree.fieldOf, Tree.withFields, lookupNode_append, lookupNode_isSome_of_mem h]

theorem Tree.Has.withFields {t : Tree} {ns : List FieldName} (h : t.Has ns) (fs : List FieldVal) :
    (t.withFields fs).Has ns := fun f hf => by
  obtain ⟨v, hv⟩ := Option.isSome_iff_exists.1 (h f hf)
  simp [Tree.fieldOf_withFields hv fs]

theorem Tree.Has.withChild {t : Tree} {ns : List FieldName} (h : t.Has ns) (name : NodeName) (fs : List FieldVal) :
    (t.withChild name fs).Has ns := fun f hf => by
  obtain ⟨v, hv⟩ := Option.isSome_iff_exists.1 (h f hf)
  simp [Tree.fieldOf_withChild hv name fs]

theorem Tree.has_withFields (t : Tree) {ns : List FieldName} {fs : List FieldVal}
    (h : ∀ f ∈ ns, NodeName.field f ∈ fs.map FieldVal.name) : (t.withFields fs).Has ns :=
  fun f hf => t.isSome_fieldOf_withFields (h f hf)

theorem Tree.Has.append {t : Tree} {ns ms : List FieldName} (h : t.Has ns) (h' : t.Has ms) : t.Has (ns ++ ms) :=
  fun f hf => (List.mem_append.1 hf).elim (h f) (h' f)

/-! ### Reading a field back -/

/-- `F[name]` of a field register the tree has (41_field_model.md R133). -/
theorem State.field_eq_ok {s : State} {t : Tree} {f : FieldName} {v : Nat} (ht : s.ft = some t)
    (h : t.fieldOf f = some v) : s.field f = .ok v s := by
  obtain ⟨w, hw, rfl⟩ := Option.map_eq_some_iff.1 h
  simp [State.field, State.get, ht, hw]

/-- `F[name]` of a name the tree has not: refused (93_implementation_defined.md U5). -/
theorem State.field_eq_refuse {s : State} {t : Tree} {f : FieldName} (ht : s.ft = some t) (h : t.fieldOf f = none) :
    s.field f = .refuse .absentName := by
  have hw : lookupNode (.field f) t.children = none := by simpa [Tree.fieldOf] using h
  simp [State.field, State.get, ht, hw]

/-- The next conditional record, where every flag can be read back: nothing but the answer (30_encoding.md R95). -/
theorem firstGate_eq_ok {s : State} {t : Tree} {gs : List Gate} (ht : s.ft = some t) (h : t.Has (gs.map Gate.flag)) :
    firstGate gs s = .ok (dueAfter gs t) s := by
  induction gs with
  | nil => rfl
  | cons g gs ih =>
    obtain ⟨v, hv⟩ := Option.isSome_iff_exists.1 (h g.flag (by simp))
    rw [firstGate, State.field_eq_ok ht hv, Res.bind_ok]
    by_cases hg : v = g.value
    · rw [if_pos hg]
      simp [dueAfter, hv, hg]
    · rw [if_neg hg, ih fun f hf => h f (by simp [hf])]
      have hn : (t.fieldOf g.flag == some g.value) = false := by simp [hv, hg]
      simp [dueAfter, hn]

/-! ### Decoding a list of fields -/

/-- Every field has 1 to 57 bits, so the window serves it at any cursor (40_bitreader.md R116). -/
def Narrow (fs : List FieldVal) : Prop := ∀ f ∈ fs, 1 ≤ f.width ∧ f.width ≤ 57

theorem Narrow.servedFrom {fs : List FieldVal} (h : Narrow fs) (p : Nat) : servedFrom p fs := by
  induction fs generalizing p with
  | nil => trivial
  | cons f fs ih =>
    obtain ⟨h1, h2⟩ := h f (by simp)
    exact ⟨h1, by omega, ih (fun g hg => h g (by simp [hg])) _⟩

@[simp] theorem bitsOf_nil : bitsOf [] = 0 := rfl
@[simp] theorem bitsOf_cons (f : FieldVal) (fs : List FieldVal) : bitsOf (f :: fs) = f.width + bitsOf fs := by
  simp [bitsOf]
@[simp] theorem bitsOf_append (fs gs : List FieldVal) : bitsOf (fs ++ gs) = bitsOf fs + bitsOf gs := by
  simp [bitsOf]

/-- Everything `decode` can do with fields the window serves (41_field_model.md R131): all of them recorded at the root, or
those before the first that passes the end of the source. -/
theorem State.decodeFields_root_sat {fs : List FieldVal} {s : State} {t : Tree} (ht : s.ft = some t)
    (hs : servedFrom s.rd.bitpos fs) :
    (State.decodeFields .root fs s).Sat
      (fun _ s' => s.rd.bitpos + bitsOf fs ≤ max s.rd.bitpos (8 * s.env.src.sizeN) ∧
        ∃ rd, s.rd.MovedTo s.env.src rd (s.rd.bitpos + bitsOf fs) ∧
          s' = { s with rd := rd, ft := some (t.withFields fs) })
      (fun e s' => e = .unexpectedEndOfData ∧ ∃ pre f post rd, fs = pre ++ f :: post ∧
        s.rd.bitpos + bitsOf pre ≤ max s.rd.bitpos (8 * s.env.src.sizeN) ∧
        8 * s.env.src.sizeN < s.rd.bitpos + bitsOf pre + f.width ∧
        s.rd.MovedTo s.env.src rd (s.rd.bitpos + bitsOf pre) ∧
          s' = { s with rd := rd, ft := some (t.withFields pre) })
      (fun _ => False) := by
  induction fs generalizing s t with
  | nil => exact ⟨by simp, s.rd, Reader.movedTo_refl _ _, by simp [← ht]⟩
  | cons f fs ih =>
    obtain ⟨h1, h2, h3⟩ := hs
    rw [State.decodeFields]
    have hr := State.read_sat f.width s
    rcases h : s.read f.width with ⟨v, s1⟩ | ⟨e, s1⟩ | x <;> rw [h] at hr
    · obtain ⟨-, -, he, -, rd, hm, rfl⟩ := hr
      have hrec : ({ s with rd := rd } : State).record .root f =
          { s with rd := rd, ft := some (t.append ⟨f.name, f.value, []⟩) } := by
        simp [State.record, State.theTree, ht]
      rw [Res.bind_ok, hrec]
      refine (ih (t := t.append ⟨f.name, f.value, []⟩) rfl (by simpa [hm.1] using h3)).mono ?_ ?_ (fun _ => id)
      · rintro _ s' ⟨he', rd', hm', rfl⟩
        simp only [hm.1] at he' hm'
        refine ⟨?_, rd', ?_, ?_⟩
        · rw [bitsOf_cons]; omega
        · rw [bitsOf_cons, ← Nat.add_assoc]
          exact hm.trans hm'
        · rw [Tree.withFields_cons]
      · rintro e s' ⟨rfl, pre, g, post, rd', rfl, hle, hlt, hm', rfl⟩
        simp only [hm.1] at hle hlt hm'
        refine ⟨rfl, f :: pre, g, post, rd', rfl, ?_, ?_, ?_, ?_⟩
        · rw [bitsOf_cons]; omega
        · rw [bitsOf_cons]; simpa [Nat.add_assoc] using hlt
        · rw [bitsOf_cons, ← Nat.add_assoc]
          exact hm.trans hm'
        · rw [Tree.withFields_cons]
    · obtain ⟨rfl, ⟨hbig, -⟩ | ⟨-, -, hlt, rfl⟩⟩ := hr
      · exact absurd hbig (by omega)
      · exact ⟨rfl, [], f, fs, s1.rd, rfl, by simp, by simpa using hlt, Reader.movedTo_refl _ _, by simp [← ht]⟩
    · rcases hr with ⟨h0, -⟩ | ⟨-, hw, -⟩ <;> omega

/-- `decode` of fields that lie inside the source (41_field_model.md R131). -/
theorem State.decodeFields_root_eq_ok {fs : List FieldVal} {s : State} {t : Tree} (ht : s.ft = some t)
    (hs : servedFrom s.rd.bitpos fs) (he : s.rd.bitpos + bitsOf fs ≤ 8 * s.env.src.sizeN) :
    ∃ rd, s.rd.MovedTo s.env.src rd (s.rd.bitpos + bitsOf fs) ∧
      State.decodeFields .root fs s = .ok () { s with rd := rd, ft := some (t.withFields fs) } := by
  have h := State.decodeFields_root_sat ht hs
  rcases hd : State.decodeFields .root fs s with ⟨v, s1⟩ | ⟨e, s1⟩ | x <;> rw [hd] at h
  · obtain ⟨-, rd, hm, rfl⟩ := h
    exact ⟨rd, hm, rfl⟩
  · obtain ⟨-, pre, f, post, -, rfl, -, hlt, -⟩ := h
    simp at he
    omega
  · exact h.elim

theorem State.decodeFields_lastChild_sat {fs : List FieldVal} {s : State} {t : Tree} {name : NodeName}
    {gs : List FieldVal} (ht : s.ft = some (t.withChild name gs)) (hs : servedFrom s.rd.bitpos fs) :
    (State.decodeFields .lastChild fs s).Sat
      (fun _ s' => s.rd.bitpos + bitsOf fs ≤ max s.rd.bitpos (8 * s.env.src.sizeN) ∧
        ∃ rd, s.rd.MovedTo s.env.src rd (s.rd.bitpos + bitsOf fs) ∧
          s' = { s with rd := rd, ft := some (t.withChild name (gs ++ fs)) })
      (fun e s' => e = .unexpectedEndOfData ∧ ∃ pre f post rd, fs = pre ++ f :: post ∧
        s.rd.bitpos + bitsOf pre ≤ max s.rd.bitpos (8 * s.env.src.sizeN) ∧
        8 * s.env.src.sizeN < s.rd.bitpos + bitsOf pre + f.width ∧
        s.rd.MovedTo s.env.src rd (s.rd.bitpos + bitsOf pre) ∧
          s' = { s with rd := rd, ft := some (t.withChild name (gs ++ pre)) })
      (fun _ => False) := by
  induction fs generalizing s gs with
  | nil => exact ⟨by simp, s.rd, Reader.movedTo_refl _ _, by simp [← ht]⟩
  | cons f fs ih =>
    obtain ⟨h1, h2, h3⟩ := hs
    rw [State.decodeFields]
    have hr := State.read_sat f.width s
    rcases h : s.read f.width with ⟨v, s1⟩ | ⟨e, s1⟩ | x <;> rw [h] at hr
    · obtain ⟨-, -, he, -, rd, hm, rfl⟩ := hr
      have hrec : ({ s with rd := rd } : State).record .lastChild f =
          { s with rd := rd, ft := some (t.withChild name (gs ++ [f])) } := by
        simp [State.record, State.theTree, ht, Tree.withChild_snoc]
      rw [Res.bind_ok, hrec]
      refine (ih (gs := gs ++ [f]) rfl (by simpa [hm.1] using h3)).mono ?_ ?_ (fun _ => id)
      · rintro _ s' ⟨he', rd', hm', rfl⟩
        simp only [hm.1] at he' hm'
        refine ⟨?_, rd', ?_, ?_⟩
        · rw [bitsOf_cons]; omega
        · rw [bitsOf_cons, ← Nat.add_assoc]
          exact hm.trans hm'
        · simp
      · rintro e s' ⟨rfl, pre, g, post, rd', rfl, hle, hlt, hm', rfl⟩
        simp only [hm.1] at hle hlt hm'
        refine ⟨rfl, f :: pre, g, post, rd', rfl, ?_, ?_, ?_, ?_⟩
        · rw [bitsOf_cons]; omega
        · rw [bitsOf_cons]; simpa [Nat.add_assoc] using hlt
        · rw [bitsOf_cons, ← Nat.add_assoc]
          exact hm.trans hm'
        · simp
    · obtain ⟨rfl, ⟨hbig, -⟩ | ⟨-, -, hlt, rfl⟩⟩ := hr
      · exact absurd hbig (by omega)
      · exact ⟨rfl, [], f, fs, s1.rd, rfl, by simp, by simpa using hlt, Reader.movedTo_refl _ _, by simp [← ht]⟩
    · rcases hr with ⟨h0, -⟩ | ⟨-, hw, -⟩ <;> omega

/-- Everything `decodeNested` can do with fields the window serves (41_field_model.md R132). -/
theorem State.decodeChild_sat {fs : List FieldVal} {s : State} {t : Tree} (name : NodeName) (ht : s.ft = some t)
    (hs : servedFrom s.rd.bitpos fs) :
    (State.decodeChild name fs s).Sat
      (fun _ s' => s.rd.bitpos + bitsOf fs ≤ max s.rd.bitpos (8 * s.env.src.sizeN) ∧
        ∃ rd, s.rd.MovedTo s.env.src rd (s.rd.bitpos + bitsOf fs) ∧
          s' = { s with rd := rd, ft := some (t.withChild name fs) })
      (fun e s' => e = .unexpectedEndOfData ∧ ∃ pre f post rd, fs = pre ++ f :: post ∧
        s.rd.bitpos + bitsOf pre ≤ max s.rd.bitpos (8 * s.env.src.sizeN) ∧
        8 * s.env.src.sizeN < s.rd.bitpos + bitsOf pre + f.width ∧
        s.rd.MovedTo s.env.src rd (s.rd.bitpos + bitsOf pre) ∧
          s' = { s with rd := rd, ft := some (t.withChild name pre) })
      (fun _ => False) := by
  have hc : s.theTree.append ⟨name, 0, []⟩ = t.withChild name [] := by
    simp [State.theTree, ht, Tree.append, Tree.withChild]
  rw [State.decodeChild, hc]
  exact State.decodeFields_lastChild_sat (s := { s with ft := some (t.withChild name []) }) (gs := []) rfl hs

/-- `decodeNested` of fields that lie inside the source (41_field_model.md R132). -/
theorem State.decodeChild_eq_ok {fs : List FieldVal} {s : State} {t : Tree} (name : NodeName) (ht : s.ft = some t)
    (hs : servedFrom s.rd.bitpos fs) (he : s.rd.bitpos + bitsOf fs ≤ 8 * s.env.src.sizeN) :
    ∃ rd, s.rd.MovedTo s.env.src rd (s.rd.bitpos + bitsOf fs) ∧
      State.decodeChild name fs s = .ok () { s with rd := rd, ft := some (t.withChild name fs) } := by
  have h := State.decodeChild_sat name ht hs
  rcases hd : State.decodeChild name fs s with ⟨v, s1⟩ | ⟨e, s1⟩ | x <;> rw [hd] at h
  · obtain ⟨-, rd, hm, rfl⟩ := h
    exact ⟨rd, hm, rfl⟩
  · obtain ⟨-, pre, f, post, -, rfl, -, hlt, -⟩ := h
    simp at he
    omega
  · exact h.elim

/-- `skipBytes(n)` of bytes that lie inside the source (41_field_model.md R134). -/
theorem State.skip_eq_ok {s : State} {n : Nat} (he : s.rd.bitpos + 8 * n ≤ 8 * s.env.src.sizeN) :
    ∃ rd, s.rd.MovedTo s.env.src rd (s.rd.bitpos + 8 * n) ∧ s.skip n = .ok () { s with rd := rd } := by
  have h := State.skip_sat n s
  rcases hd : s.skip n with ⟨v, s1⟩ | ⟨e, s1⟩ | x <;> rw [hd] at h
  · obtain ⟨-, rd, hm, rfl⟩ := h
    exact ⟨rd, hm, rfl⟩
  · obtain ⟨-, hlt, -⟩ := h
    omega
  · exact h.elim

/-- `read(n)` of bits that lie inside the source and that the window serves (40_bitreader.md R114). -/
theorem State.read_eq_ok {s : State} {n : Nat} (h1 : 1 ≤ n) (hw : n + s.rd.bitpos % 8 ≤ 64)
    (he : s.rd.bitpos + n ≤ 8 * s.env.src.sizeN) :
    ∃ rd, s.rd.MovedTo s.env.src rd (s.rd.bitpos + n) ∧
      s.read n = .ok (s.env.src.bits s.rd.bitpos n) { s with rd := rd } := by
  have h := State.read_sat n s
  rcases hd : s.read n with ⟨v, s1⟩ | ⟨e, s1⟩ | x <;> rw [hd] at h
  · obtain ⟨-, -, -, rfl, rd, hm, rfl⟩ := h
    exact ⟨rd, hm, rfl⟩
  · obtain ⟨-, ⟨h64, -⟩ | ⟨-, -, hlt, -⟩⟩ := h <;> omega
  · rcases h with ⟨h0, -⟩ | ⟨-, h64, -⟩ <;> omega

/-! ### Operations that pass the end of the source -/

/-- `read(n)` of bits that pass the end of the source and that the window could serve: nothing changes (40_bitreader.md R114,
R119). -/
theorem State.read_eq_raise {s : State} {n : Nat} (h1 : 1 ≤ n) (hw : n + s.rd.bitpos % 8 ≤ 64)
    (he : 8 * s.env.src.sizeN < s.rd.bitpos + n) : s.read n = .raise .unexpectedEndOfData s := by
  have h := State.read_sat n s
  rcases hd : s.read n with ⟨v, s1⟩ | ⟨e, s1⟩ | x <;> rw [hd] at h
  · obtain ⟨-, -, hle, -⟩ := h
    omega
  · obtain ⟨rfl, ⟨h64, -⟩ | ⟨-, -, -, rfl⟩⟩ := h
    · omega
    · rfl
  · rcases h with ⟨h0, -⟩ | ⟨-, h64, -⟩ <;> omega

/-- `skipBytes(n)` of bytes that pass the end of the source: nothing changes (41_field_model.md R134). -/
theorem State.skip_eq_raise {s : State} {n : Nat} (he : 8 * s.env.src.sizeN < s.rd.bitpos + 8 * n) :
    s.skip n = .raise .unexpectedEndOfData s := by
  have h := State.skip_sat n s
  rcases hd : s.skip n with ⟨v, s1⟩ | ⟨e, s1⟩ | x <;> rw [hd] at h
  · obtain ⟨hle, -⟩ := h
    omega
  · obtain ⟨rfl, -, rfl⟩ := h
    rfl
  · exact h.elim

/-- Decoding a list of fields is decoding its first part and then the rest. -/
theorem State.decodeFields_append (p : Place) (fs gs : List FieldVal) (s : State) :
    State.decodeFields p (fs ++ gs) s = (State.decodeFields p fs s).bind fun _ s' => State.decodeFields p gs s' := by
  induction fs generalizing s with
  | nil => rfl
  | cons f fs ih =>
    rw [List.cons_append, State.decodeFields, State.decodeFields]
    cases s.read f.width with
    | ok v s1 => exact ih _
    | raise e s1 => rfl
    | refuse x => rfl

/-- `decode` whose field `f` passes the end of the source: the fields before it are recorded (41_field_model.md R131). -/
theorem State.decodeFields_root_eq_raise {pre post : List FieldVal} {f : FieldVal} {s : State} {t : Tree}
    (ht : s.ft = some t) (hs : Narrow (pre ++ f :: post)) (hp : pre = [] ∨ s.rd.bitpos + bitsOf pre ≤ 8 * s.env.src.sizeN)
    (he : 8 * s.env.src.sizeN < s.rd.bitpos + bitsOf pre + f.width) :
    ∃ rd, s.rd.MovedTo s.env.src rd (s.rd.bitpos + bitsOf pre) ∧
      State.decodeFields .root (pre ++ f :: post) s =
        .raise .unexpectedEndOfData { s with rd := rd, ft := some (t.withFields pre) } := by
  obtain ⟨h1, h2⟩ := hs f (by simp)
  obtain ⟨rd, hm, h⟩ : ∃ rd, s.rd.MovedTo s.env.src rd (s.rd.bitpos + bitsOf pre) ∧
      State.decodeFields .root pre s = .ok () { s with rd := rd, ft := some (t.withFields pre) } := by
    rcases hp with rfl | hp
    · exact ⟨s.rd, Reader.movedTo_refl _ _, by simp [State.decodeFields, ← ht]⟩
    · exact State.decodeFields_root_eq_ok ht (Narrow.servedFrom (fun g hg => hs g (by simp [hg])) _) hp
  refine ⟨rd, hm, ?_⟩
  rw [State.decodeFields_append, h, Res.bind_ok, State.decodeFields,
    State.read_eq_raise h1 (by omega) (by rw [hm.1]; exact he), Res.bind_raise]

/-- `decodeNested` whose field `f` passes the end of the source: the partly filled child stays (41_field_model.md R132). -/
theorem State.decodeChild_eq_raise {pre post : List FieldVal} {f : FieldVal} {s : State} {t : Tree} (name : NodeName)
    (ht : s.ft = some t) (hs : Narrow (pre ++ f :: post))
    (hp : pre = [] ∨ s.rd.bitpos + bitsOf pre ≤ 8 * s.env.src.sizeN)
    (he : 8 * s.env.src.sizeN < s.rd.bitpos + bitsOf pre + f.width) :
    ∃ rd, s.rd.MovedTo s.env.src rd (s.rd.bitpos + bitsOf pre) ∧
      State.decodeChild name (pre ++ f :: post) s =
        .raise .unexpectedEndOfData { s with rd := rd, ft := some (t.withChild name pre) } := by
  obtain ⟨h1, h2⟩ := hs f (by simp)
  obtain ⟨rd, hm, h⟩ : ∃ rd, s.rd.MovedTo s.env.src rd (s.rd.bitpos + bitsOf pre) ∧
      State.decodeChild name pre s = .ok () { s with rd := rd, ft := some (t.withChild name pre) } := by
    rcases hp with rfl | hp
    · exact ⟨s.rd, Reader.movedTo_refl _ _, by
        simp [State.decodeChild, State.decodeFields, State.theTree, ht, Tree.append, Tree.withChild]⟩
    · exact State.decodeChild_eq_ok name ht (Narrow.servedFrom (fun g hg => hs g (by simp [hg])) _) hp
  refine ⟨rd, hm, ?_⟩
  rw [State.decodeChild] at h ⊢
  rw [State.decodeFields_append, h, Res.bind_ok, State.decodeFields,
    State.read_eq_raise h1 (by omega) (by rw [hm.1]; exact he), Res.bind_raise]

end Sys2Proof.Machine
end

