-- ==== Sys2Proof/Laws/PerInstr.lean ====
section
/-! SUPPORT. One lemma for each constructor of `Instr`: its encoding has the length its row of spec/opcode_table.json gives
it, 32 bits for a start code, the record's width for a record, none for an operation without an encoding. -/

namespace Sys2Proof

/-- A number written in `k` bytes has `k` bytes. -/
theorem length_beBytes (k v : Nat) : (beBytes k v).length = k := by
  induction k generalizing v with
  | zero => rfl
  | succ k ih => rw [beBytes, List.length_cons, ih]

theorem length_encode {i : Instr} {c : Ctx} (h : i.ctx = some c) : (encode i).length = c.bytes := by
  rw [encode, h]
  exact length_beBytes _ _

theorem length_encode_none {i : Instr} (h : i.ctx = none) : (encode i).length = 0 := by
  rw [encode, h]
  rfl

namespace Laws.EncodeLength

/-- The bits of an instruction's row (30_encoding.md R70, R72 to R92); 0 for a row without an encoding. -/
def rowBits (i : Instr) : Nat :=
  match i.ctx with
  | some .startCode => 32
  | some (.record r) => r.width
  | none => 0

/-- The encoding of an instruction is as long as its row says. -/
def Statement (i : Instr) : Prop := 8 * (encode i).length = rowBits i

theorem of_startCode {i : Instr} (h : i.ctx = some .startCode) : Statement i := by
  rw [Statement, length_encode h, rowBits, h]
  rfl

theorem of_record {i : Instr} {r : Rec} (h : i.ctx = some (.record r)) : Statement i := by
  rw [Statement, length_encode h, rowBits, h]
  cases r <;> rfl

theorem of_none {i : Instr} (h : i.ctx = none) : Statement i := by
  rw [Statement, length_encode_none h, rowBits, h]

theorem pack : Statement .pack := of_startCode rfl
theorem sys : Statement .sys := of_startCode rfl
theorem psm : Statement .psm := of_startCode rfl
theorem vpes : Statement .vpes := of_startCode rfl
theorem apes : Statement .apes := of_startCode rfl
theorem packBody : ∀ a, Statement (.packBody a) := fun _ => of_record rfl
theorem sysFixed : ∀ a, Statement (.sysFixed a) := fun _ => of_record rfl
theorem sysStream : ∀ a, Statement (.sysStream a) := fun _ => of_record rfl
theorem psmFixed : ∀ a, Statement (.psmFixed a) := fun _ => of_record rfl
theorem psmEsmLength : ∀ a, Statement (.psmEsmLength a) := fun _ => of_record rfl
theorem psmEntry : ∀ a, Statement (.psmEntry a) := fun _ => of_record rfl
theorem psmCrc : ∀ a, Statement (.psmCrc a) := fun _ => of_record rfl
theorem pesBase : ∀ a, Statement (.pesBase a) := fun _ => of_record rfl
theorem pesPts : ∀ a, Statement (.pesPts a) := fun _ => of_record rfl
theorem pesPtsDts : ∀ a, Statement (.pesPtsDts a) := fun _ => of_record rfl
theorem pesEscr : ∀ a, Statement (.pesEscr a) := fun _ => of_record rfl
theorem pesEsRate : ∀ a, Statement (.pesEsRate a) := fun _ => of_record rfl
theorem pesTrick0 : ∀ a, Statement (.pesTrick0 a) := fun _ => of_record rfl
theorem pesTrick1 : ∀ a, Statement (.pesTrick1 a) := fun _ => of_record rfl
theorem pesTrick2 : ∀ a, Statement (.pesTrick2 a) := fun _ => of_record rfl
theorem pesTrick3 : ∀ a, Statement (.pesTrick3 a) := fun _ => of_record rfl
theorem pesTrick4 : ∀ a, Statement (.pesTrick4 a) := fun _ => of_record rfl
theorem pesTrick5 : ∀ a, Statement (.pesTrick5 a) := fun _ => of_record rfl
theorem pesTrick6 : ∀ a, Statement (.pesTrick6 a) := fun _ => of_record rfl
theorem pesTrick7 : ∀ a, Statement (.pesTrick7 a) := fun _ => of_record rfl
theorem pesCopyInfo : ∀ a, Statement (.pesCopyInfo a) := fun _ => of_record rfl
theorem pesCrc : ∀ a, Statement (.pesCrc a) := fun _ => of_record rfl
theorem pesExtFlags : ∀ a, Statement (.pesExtFlags a) := fun _ => of_record rfl
theorem pesPrivateData : ∀ a, Statement (.pesPrivateData a) := fun _ => of_record rfl
theorem pesPackField : ∀ a, Statement (.pesPackField a) := fun _ => of_record rfl
theorem pesSeqCounter : ∀ a, Statement (.pesSeqCounter a) := fun _ => of_record rfl
theorem pesPStd : ∀ a, Statement (.pesPStd a) := fun _ => of_record rfl
theorem pesExt2 : ∀ a, Statement (.pesExt2 a) := fun _ => of_record rfl
theorem pesStuffing : Statement .pesStuffing := of_none rfl
theorem pesPayload : Statement .pesPayload := of_none rfl
theorem size : Statement .size := of_none rfl
theorem peek : ∀ a, Statement (.peek a) := fun _ => of_none rfl
theorem read : ∀ a, Statement (.read a) := fun _ => of_none rfl
theorem readBytes : ∀ a, Statement (.readBytes a) := fun _ => of_none rfl
theorem offset : Statement .offset := of_none rfl
theorem readAt : ∀ a b, Statement (.readAt a b) := fun _ _ => of_none rfl
theorem decode : ∀ a, Statement (.decode a) := fun _ => of_none rfl
theorem decodeNested : ∀ a b, Statement (.decodeNested a b) := fun _ _ => of_none rfl
theorem get : ∀ a, Statement (.get a) := fun _ => of_none rfl
theorem skipBytes : ∀ a, Statement (.skipBytes a) := fun _ => of_none rfl
theorem start : Statement .start := of_none rfl
theorem reset : Statement .reset := of_none rfl
theorem cancel : ∀ a, Statement (.cancel a) := fun _ => of_none rfl
theorem parseDetail : ∀ a b, Statement (.parseDetail a b) := fun _ _ => of_none rfl
theorem summaryRead : Statement .summaryRead := of_none rfl
theorem consumerPop : ∀ a, Statement (.consumerPop a) := fun _ => of_none rfl

end Laws.EncodeLength

end Sys2Proof
end

