-- ==== Sys2Proof/Laws/Records.lean ====
section
/-! SUPPORT. The fields of each record: every one is narrow enough for the window at any cursor, and together they are as
wide as the record (30_encoding.md R72 to R92). -/

namespace Sys2Proof.Machine

@[simp] theorem narrow_nil : Narrow [] := fun _ h => nomatch h

theorem narrow_cons (f : FieldVal) (fs : List FieldVal) : Narrow (f :: fs) ↔ (1 ≤ f.width ∧ f.width ≤ 57) ∧ Narrow fs := by
  simp [Narrow]

@[simp] theorem FieldVal.width_of (f : FieldName) {w : Nat} (v : BitVec w) : (FieldVal.of f v).width = w := rfl

@[simp] theorem FieldVal.name_of (f : FieldName) {w : Nat} (v : BitVec w) : (FieldVal.of f v).name = .field f := rfl

theorem narrow_fieldsOfPackBody (r : PackBody) : Narrow (fieldsOfPackBody r) := by
  simp [fieldsOfPackBody, narrow_cons]

@[simp] theorem bitsOf_fieldsOfPackBody (r : PackBody) : bitsOf (fieldsOfPackBody r) = 80 := rfl

theorem narrow_fieldsOfSysFixed (r : SysFixed) : Narrow (fieldsOfSysFixed r) := by
  simp [fieldsOfSysFixed, narrow_cons]

@[simp] theorem bitsOf_fieldsOfSysFixed (r : SysFixed) : bitsOf (fieldsOfSysFixed r) = 64 := rfl

theorem narrow_fieldsOfSysStream (r : SysStream) : Narrow (fieldsOfSysStream r) := by
  simp [fieldsOfSysStream, narrow_cons]

@[simp] theorem bitsOf_fieldsOfSysStream (r : SysStream) : bitsOf (fieldsOfSysStream r) = 24 := rfl

theorem narrow_fieldsOfPsmFixed (r : PsmFixed) : Narrow (fieldsOfPsmFixed r) := by
  simp [fieldsOfPsmFixed, narrow_cons]

@[simp] theorem bitsOf_fieldsOfPsmFixed (r : PsmFixed) : bitsOf (fieldsOfPsmFixed r) = 48 := rfl

theorem narrow_fieldsOfPsmEsmLength (r : PsmEsmLength) : Narrow (fieldsOfPsmEsmLength r) := by
  simp [fieldsOfPsmEsmLength, narrow_cons]

@[simp] theorem bitsOf_fieldsOfPsmEsmLength (r : PsmEsmLength) : bitsOf (fieldsOfPsmEsmLength r) = 16 := rfl

theorem narrow_fieldsOfPsmEntry (r : PsmEntry) : Narrow (fieldsOfPsmEntry r) := by
  simp [fieldsOfPsmEntry, narrow_cons]

@[simp] theorem bitsOf_fieldsOfPsmEntry (r : PsmEntry) : bitsOf (fieldsOfPsmEntry r) = 32 := rfl

theorem narrow_fieldsOfPsmCrc (r : PsmCrc) : Narrow (fieldsOfPsmCrc r) := by
  simp [fieldsOfPsmCrc, narrow_cons]

@[simp] theorem bitsOf_fieldsOfPsmCrc (r : PsmCrc) : bitsOf (fieldsOfPsmCrc r) = 32 := rfl

theorem narrow_fieldsOfPesBase (r : PesBase) : Narrow (fieldsOfPesBase r) := by
  simp [fieldsOfPesBase, narrow_cons]

@[simp] theorem bitsOf_fieldsOfPesBase (r : PesBase) : bitsOf (fieldsOfPesBase r) = 40 := rfl

theorem narrow_fieldsOfPesPts (r : PesPts) : Narrow (fieldsOfPesPts r) := by
  simp [fieldsOfPesPts, narrow_cons]

@[simp] theorem bitsOf_fieldsOfPesPts (r : PesPts) : bitsOf (fieldsOfPesPts r) = 40 := rfl

theorem narrow_fieldsOfPesPtsDts (r : PesPtsDts) : Narrow (fieldsOfPesPtsDts r) := by
  simp [fieldsOfPesPtsDts, narrow_cons]

@[simp] theorem bitsOf_fieldsOfPesPtsDts (r : PesPtsDts) : bitsOf (fieldsOfPesPtsDts r) = 80 := rfl

theorem narrow_fieldsOfPesEscr (r : PesEscr) : Narrow (fieldsOfPesEscr r) := by
  simp [fieldsOfPesEscr, narrow_cons]

@[simp] theorem bitsOf_fieldsOfPesEscr (r : PesEscr) : bitsOf (fieldsOfPesEscr r) = 48 := rfl

theorem narrow_fieldsOfPesEsRate (r : PesEsRate) : Narrow (fieldsOfPesEsRate r) := by
  simp [fieldsOfPesEsRate, narrow_cons]

@[simp] theorem bitsOf_fieldsOfPesEsRate (r : PesEsRate) : bitsOf (fieldsOfPesEsRate r) = 24 := rfl

theorem narrow_fieldsOfPesTrick0 (r : PesTrick0) : Narrow (fieldsOfPesTrick0 r) := by
  simp [fieldsOfPesTrick0, narrow_cons]

@[simp] theorem bitsOf_fieldsOfPesTrick0 (r : PesTrick0) : bitsOf (fieldsOfPesTrick0 r) = 8 := rfl

theorem narrow_fieldsOfPesTrick1 (r : PesTrick1) : Narrow (fieldsOfPesTrick1 r) := by
  simp [fieldsOfPesTrick1, narrow_cons]

@[simp] theorem bitsOf_fieldsOfPesTrick1 (r : PesTrick1) : bitsOf (fieldsOfPesTrick1 r) = 8 := rfl

theorem narrow_fieldsOfPesTrick2 (r : PesTrick2) : Narrow (fieldsOfPesTrick2 r) := by
  simp [fieldsOfPesTrick2, narrow_cons]

@[simp] theorem bitsOf_fieldsOfPesTrick2 (r : PesTrick2) : bitsOf (fieldsOfPesTrick2 r) = 8 := rfl

theorem narrow_fieldsOfPesTrick3 (r : PesTrick3) : Narrow (fieldsOfPesTrick3 r) := by
  simp [fieldsOfPesTrick3, narrow_cons]

@[simp] theorem bitsOf_fieldsOfPesTrick3 (r : PesTrick3) : bitsOf (fieldsOfPesTrick3 r) = 8 := rfl

theorem narrow_fieldsOfPesTrick4 (r : PesTrick4) : Narrow (fieldsOfPesTrick4 r) := by
  simp [fieldsOfPesTrick4, narrow_cons]

@[simp] theorem bitsOf_fieldsOfPesTrick4 (r : PesTrick4) : bitsOf (fieldsOfPesTrick4 r) = 8 := rfl

theorem narrow_fieldsOfPesTrick5 (r : PesTrick5) : Narrow (fieldsOfPesTrick5 r) := by
  simp [fieldsOfPesTrick5, narrow_cons]

@[simp] theorem bitsOf_fieldsOfPesTrick5 (r : PesTrick5) : bitsOf (fieldsOfPesTrick5 r) = 8 := rfl

theorem narrow_fieldsOfPesTrick6 (r : PesTrick6) : Narrow (fieldsOfPesTrick6 r) := by
  simp [fieldsOfPesTrick6, narrow_cons]

@[simp] theorem bitsOf_fieldsOfPesTrick6 (r : PesTrick6) : bitsOf (fieldsOfPesTrick6 r) = 8 := rfl

theorem narrow_fieldsOfPesTrick7 (r : PesTrick7) : Narrow (fieldsOfPesTrick7 r) := by
  simp [fieldsOfPesTrick7, narrow_cons]

@[simp] theorem bitsOf_fieldsOfPesTrick7 (r : PesTrick7) : bitsOf (fieldsOfPesTrick7 r) = 8 := rfl

theorem narrow_fieldsOfPesCopyInfo (r : PesCopyInfo) : Narrow (fieldsOfPesCopyInfo r) := by
  simp [fieldsOfPesCopyInfo, narrow_cons]

@[simp] theorem bitsOf_fieldsOfPesCopyInfo (r : PesCopyInfo) : bitsOf (fieldsOfPesCopyInfo r) = 8 := rfl

theorem narrow_fieldsOfPesCrc (r : PesCrc) : Narrow (fieldsOfPesCrc r) := by
  simp [fieldsOfPesCrc, narrow_cons]

@[simp] theorem bitsOf_fieldsOfPesCrc (r : PesCrc) : bitsOf (fieldsOfPesCrc r) = 16 := rfl

theorem narrow_fieldsOfPesExtFlags (r : PesExtFlags) : Narrow (fieldsOfPesExtFlags r) := by
  simp [fieldsOfPesExtFlags, narrow_cons]

@[simp] theorem bitsOf_fieldsOfPesExtFlags (r : PesExtFlags) : bitsOf (fieldsOfPesExtFlags r) = 8 := rfl

theorem narrow_fieldsOfPesPackField (r : PesPackField) : Narrow (fieldsOfPesPackField r) := by
  simp [fieldsOfPesPackField, narrow_cons]

@[simp] theorem bitsOf_fieldsOfPesPackField (r : PesPackField) : bitsOf (fieldsOfPesPackField r) = 8 := rfl

theorem narrow_fieldsOfPesSeqCounter (r : PesSeqCounter) : Narrow (fieldsOfPesSeqCounter r) := by
  simp [fieldsOfPesSeqCounter, narrow_cons]

@[simp] theorem bitsOf_fieldsOfPesSeqCounter (r : PesSeqCounter) : bitsOf (fieldsOfPesSeqCounter r) = 16 := rfl

theorem narrow_fieldsOfPesPStd (r : PesPStd) : Narrow (fieldsOfPesPStd r) := by
  simp [fieldsOfPesPStd, narrow_cons]

@[simp] theorem bitsOf_fieldsOfPesPStd (r : PesPStd) : bitsOf (fieldsOfPesPStd r) = 16 := rfl

theorem narrow_fieldsOfPesExt2 (r : PesExt2) : Narrow (fieldsOfPesExt2 r) := by
  simp [fieldsOfPesExt2, narrow_cons]

@[simp] theorem bitsOf_fieldsOfPesExt2 (r : PesExt2) : bitsOf (fieldsOfPesExt2 r) = 8 := rfl

/-- The fields of any instruction are narrow. -/
theorem narrow_fields (i : Instr) : Narrow i.fields := by
  cases i <;> simp only [Instr.fields, narrow_nil]
  · exact narrow_fieldsOfPackBody _
  · exact narrow_fieldsOfSysFixed _
  · exact narrow_fieldsOfSysStream _
  · exact narrow_fieldsOfPsmFixed _
  · exact narrow_fieldsOfPsmEsmLength _
  · exact narrow_fieldsOfPsmEntry _
  · exact narrow_fieldsOfPsmCrc _
  · exact narrow_fieldsOfPesBase _
  · exact narrow_fieldsOfPesPts _
  · exact narrow_fieldsOfPesPtsDts _
  · exact narrow_fieldsOfPesEscr _
  · exact narrow_fieldsOfPesEsRate _
  · exact narrow_fieldsOfPesTrick0 _
  · exact narrow_fieldsOfPesTrick1 _
  · exact narrow_fieldsOfPesTrick2 _
  · exact narrow_fieldsOfPesTrick3 _
  · exact narrow_fieldsOfPesTrick4 _
  · exact narrow_fieldsOfPesTrick5 _
  · exact narrow_fieldsOfPesTrick6 _
  · exact narrow_fieldsOfPesTrick7 _
  · exact narrow_fieldsOfPesCopyInfo _
  · exact narrow_fieldsOfPesCrc _
  · exact narrow_fieldsOfPesExtFlags _
  · exact narrow_fieldsOfPesPackField _
  · exact narrow_fieldsOfPesSeqCounter _
  · exact narrow_fieldsOfPesPStd _
  · exact narrow_fieldsOfPesExt2 _

/-- The first entries of a narrow list, and the last, are narrow. -/
theorem Narrow.take {fs : List FieldVal} (h : Narrow fs) (n : Nat) : Narrow (fs.take n) :=
  fun f hf => h f (List.mem_of_mem_take hf)

theorem Narrow.drop {fs : List FieldVal} (h : Narrow fs) (n : Nat) : Narrow (fs.drop n) :=
  fun f hf => h f (List.mem_of_mem_drop hf)

end Sys2Proof.Machine
end

