-- ==== Sys2Proof/Laws/Task.lean ====
section
/-! SUPPORT. The parts of a packet's decode as steps of the demux task: one lemma for each shared operation and for each
part that says everything it can do in a state where the task stands before it. -/

namespace Sys2Proof.Machine

/-! ### What a decoder's part leaves alone -/

/-- `s'` is `s` with the cursor moved on and fields decoded: inputs, packet registers, phase, errors, counters, ports and
reply as they were; the tree grown; the task's place and the pending error untouched. -/
structure State.Advances (s s' : State) : Prop where
  env : s'.env = s.env
  pkt : s'.pkt = s.pkt
  run : s'.run = s.run
  err : s'.err = s.err
  cnt : s'.cnt = s.cnt
  evt : s'.evt = s.evt
  es : s'.es = s.es
  tree : s'.tree = s.tree
  evtLog : s'.evtLog = s.evtLog
  esLog : s'.esLog = s.esLog
  treeLog : s'.treeLog = s.treeLog
  reply : s'.reply = s.reply
  due : s'.work.due = s.work.due
  pending : s'.work.pending = s.work.pending
  forward : s.rd.bitpos ≤ s'.rd.bitpos
  coherent : s.rd.Coherent s.env.src → s'.rd.Coherent s.env.src
  grown : ∀ t, s.ft = some t →
    ∃ t', s'.ft = some t' ∧ t'.name = t.name ∧ t'.value = t.value ∧ ∀ ns, t.Has ns → t'.Has ns

theorem State.Advances.refl (s : State) : s.Advances s :=
  ⟨rfl, rfl, rfl, rfl, rfl, rfl, rfl, rfl, rfl, rfl, rfl, rfl, rfl, rfl, le_rfl, id, fun t h => ⟨t, h, rfl, rfl, fun _ => id⟩⟩

theorem State.Advances.trans {s s' s'' : State} (h : s.Advances s') (h' : s'.Advances s'') : s.Advances s'' where
  env := h'.env.trans h.env
  pkt := h'.pkt.trans h.pkt
  run := h'.run.trans h.run
  err := h'.err.trans h.err
  cnt := h'.cnt.trans h.cnt
  evt := h'.evt.trans h.evt
  es := h'.es.trans h.es
  tree := h'.tree.trans h.tree
  evtLog := h'.evtLog.trans h.evtLog
  esLog := h'.esLog.trans h.esLog
  treeLog := h'.treeLog.trans h.treeLog
  reply := h'.reply.trans h.reply
  due := h'.due.trans h.due
  pending := h'.pending.trans h.pending
  forward := h.forward.trans h'.forward
  coherent := fun hc => by
    have := h'.coherent (by rw [h.env]; exact h.coherent hc)
    rwa [h.env] at this
  grown := fun t ht => by
    obtain ⟨t', ht', hn, hv, hh⟩ := h.grown t ht
    obtain ⟨t'', ht'', hn', hv', hh'⟩ := h'.grown t' ht'
    exact ⟨t'', ht'', hn'.trans hn, hv'.trans hv, fun ns hns => hh' ns (hh ns hns)⟩

/-- The reader moved, nothing else. -/
theorem State.Advances.moved {s : State} {rd : Reader} {p : Nat} (h : s.rd.MovedTo s.env.src rd p)
    (hp : s.rd.bitpos ≤ p) : s.Advances { s with rd := rd } :=
  ⟨rfl, rfl, rfl, rfl, rfl, rfl, rfl, rfl, rfl, rfl, rfl, rfl, rfl, rfl, h.1 ▸ hp, h.2,
    fun t ht => ⟨t, ht, rfl, rfl, fun _ => id⟩⟩

/-- The reader moved and the tree grown. -/
theorem State.Advances.decoded {s : State} {rd : Reader} {p : Nat} {t t' : Tree} (h : s.rd.MovedTo s.env.src rd p)
    (hp : s.rd.bitpos ≤ p) (ht : s.ft = some t) (hn : t'.name = t.name) (hv : t'.value = t.value)
    (hh : ∀ ns, t.Has ns → t'.Has ns) : s.Advances { s with rd := rd, ft := some t' } :=
  ⟨rfl, rfl, rfl, rfl, rfl, rfl, rfl, rfl, rfl, rfl, rfl, rfl, rfl, rfl, h.1 ▸ hp, h.2, fun u hu => by
    obtain rfl : t = u := by rw [ht] at hu; exact Option.some.inj hu
    exact ⟨t', rfl, hn, hv, hh⟩⟩

/-- Working values and stream-type registers written, the task's place and the pending error kept. -/
theorem State.Advances.worked (s : State) (w : Work) (v a : Byte) (hd : w.due = s.work.due)
    (hp : w.pending = s.work.pending) :
    s.Advances { s with work := w, videoStreamType := v, audioStreamType := a } :=
  ⟨rfl, rfl, rfl, rfl, rfl, rfl, rfl, rfl, rfl, rfl, rfl, rfl, hd, hp, le_rfl, id,
    fun t ht => ⟨t, ht, rfl, rfl, fun _ => id⟩⟩

theorem State.Advances.setStreamType (type id : Byte) (s : State) : s.Advances (setStreamType type id s) := by
  unfold Machine.setStreamType
  split
  · exact .worked s s.work type s.audioStreamType rfl rfl
  · split
    · exact .worked s s.work s.videoStreamType type rfl rfl
    · exact .refl s

@[simp] theorem setStreamType_ft (type id : Byte) (s : State) : (setStreamType type id s).ft = s.ft := by
  unfold setStreamType; split <;> [rfl; (split <;> rfl)]

@[simp] theorem setStreamType_rd (type id : Byte) (s : State) : (setStreamType type id s).rd = s.rd := by
  unfold setStreamType; split <;> [rfl; (split <;> rfl)]

@[simp] theorem setStreamType_env (type id : Byte) (s : State) : (setStreamType type id s).env = s.env := by
  unfold setStreamType; split <;> [rfl; (split <;> rfl)]

@[simp] theorem setStreamType_work (type id : Byte) (s : State) : (setStreamType type id s).work = s.work := by
  unfold setStreamType; split <;> [rfl; (split <;> rfl)]

/-! ### How a part ends -/

/-- What a part of a packet hands over: the state moved on, aligned, with the fields that what is due next reads back; what
is due next belongs to the same packet. -/
def State.PartOk (s : State) (from_ : Due) (d : Due) (s' : State) : Prop :=
  s.Advances s' ∧ s'.rd.bitpos % 8 = 0 ∧ (∃ t, s'.ft = some t ∧ t.Has d.needs) ∧ d ≠ .top ∧ d ≠ .pushEs ∧
    ∀ k, from_.ofKind k = true → d.ofKind k = true

/-- What a part of a packet leaves at an error: the state moved on; the error is one of the three a decode can raise. -/
def State.PartErr (s : State) (e : Err) (s' : State) : Prop :=
  s.Advances s' ∧ (e = .unexpectedEndOfData ∨ e = .checkLength ∨ e = .formatMismatch)

/-- A part that answers, or raises an error, and is never refused. -/
def State.PartSat (s : State) (from_ : Due) (r : Res State Due) : Prop :=
  r.Sat (s.PartOk from_) s.PartErr (fun _ => False)

theorem State.PartErr.trans {s s' s'' : State} {e : Err} (h : s.Advances s') (h' : s'.PartErr e s'') : s.PartErr e s'' :=
  ⟨h.trans h'.1, h'.2⟩

/-- A part that goes on from where another operation has advanced to. -/
theorem State.PartSat.after {s s' : State} {d : Due} {r : Res State Due} (h : s.Advances s') (h' : s'.PartSat d r) :
    s.PartSat d r :=
  h'.mono (fun _ _ hp => ⟨h.trans hp.1, hp.2⟩) (fun _ _ hq => hq.trans h) (fun _ => id)

/-- An operation of the reader or the Field Model, then the rest of the part. -/
theorem State.PartSat.bind {α : Type} {s : State} {d : Due} {r : Res State α} {f : α → State → Res State Due}
    {P : α → State → Prop} (h : r.Sat (fun a s' => s.Advances s' ∧ P a s') s.PartErr (fun _ => False))
    (hf : ∀ a s', s.Advances s' → P a s' → s'.PartSat d (f a s')) : s.PartSat d (r.bind f) :=
  Res.Sat.bind h fun a s' ha => (hf a s' ha.1 ha.2).after ha.1

/-! ### The operations a part is made of -/

theorem State.decodeFields_part {fs : List FieldVal} {s : State} {t : Tree} (ht : s.ft = some t) (hs : Narrow fs) :
    (State.decodeFields .root fs s).Sat
      (fun _ s' => s.Advances s' ∧ s'.rd.bitpos = s.rd.bitpos + bitsOf fs ∧ s'.ft = some (t.withFields fs) ∧
        s'.work = s.work ∧ s'.env = s.env) s.PartErr (fun _ => False) := by
  refine (State.decodeFields_root_sat ht (hs.servedFrom _)).mono ?_ ?_ (fun _ => id)
  · rintro _ s' ⟨-, rd, hm, rfl⟩
    exact ⟨.decoded hm (by omega) ht rfl rfl fun ns h => h.withFields fs, hm.1, rfl, rfl, rfl⟩
  · rintro e s' ⟨rfl, pre, f, post, rd, rfl, -, -, hm, rfl⟩
    exact ⟨.decoded hm (by omega) ht rfl rfl fun ns h => h.withFields pre, .inl rfl⟩

theorem State.decodeChild_part {fs : List FieldVal} {s : State} {t : Tree} (name : NodeName) (ht : s.ft = some t)
    (hs : Narrow fs) :
    (State.decodeChild name fs s).Sat
      (fun _ s' => s.Advances s' ∧ s'.rd.bitpos = s.rd.bitpos + bitsOf fs ∧ s'.ft = some (t.withChild name fs) ∧
        s'.work = s.work ∧ s'.env = s.env) s.PartErr (fun _ => False) := by
  refine (State.decodeChild_sat name ht (hs.servedFrom _)).mono ?_ ?_ (fun _ => id)
  · rintro _ s' ⟨-, rd, hm, rfl⟩
    exact ⟨.decoded hm (by omega) ht rfl rfl fun ns h => h.withChild name fs, hm.1, rfl, rfl, rfl⟩
  · rintro e s' ⟨rfl, pre, f, post, rd, rfl, -, -, hm, rfl⟩
    exact ⟨.decoded hm (by omega) ht rfl rfl fun ns h => h.withChild name pre, .inl rfl⟩

theorem State.skip_part (n : Nat) (s : State) :
    (s.skip n).Sat
      (fun _ s' => s.Advances s' ∧ s'.rd.bitpos = s.rd.bitpos + 8 * n ∧ s'.ft = s.ft ∧ s'.work = s.work ∧
        s'.env = s.env) s.PartErr (fun _ => False) := by
  refine (State.skip_sat n s).mono ?_ ?_ (fun _ => id)
  · rintro _ s' ⟨-, rd, hm, rfl⟩
    exact ⟨.moved hm (by omega), hm.1, rfl, rfl, rfl⟩
  · rintro e s' ⟨rfl, -, rfl⟩
    exact ⟨.refl _, .inl rfl⟩

theorem firstGate_part {gs : List Gate} {s : State} {t : Tree} {d : Due} (ht : s.ft = some t)
    (ha : s.rd.bitpos % 8 = 0) (hg : t.Has (gs.map Gate.flag)) (hl : t.Has pesLengths)
    (hn : ∀ g ∈ gs, t.Has (needsOf g.record)) (hk : ∀ g ∈ gs, kindOfRec g.record = .videoPES)
    (hd : ∀ k, d.ofKind k = true → k = .videoPES ∨ k = .audioPES) : s.PartSat d (firstGate gs s) := by
  rw [firstGate_eq_ok ht hg]
  have key : t.Has (dueAfter gs t).needs ∧ dueAfter gs t ≠ .top ∧ dueAfter gs t ≠ .pushEs ∧
      ∀ k, k = .videoPES ∨ k = .audioPES → (dueAfter gs t).ofKind k = true := by
    unfold dueAfter
    split
    · rename_i g hfind
      have hmem := List.mem_of_find?_eq_some hfind
      refine ⟨hn g hmem, by simp, by simp, ?_⟩
      rintro k (rfl | rfl) <;> simp [Due.ofKind, hk g hmem]
    · exact ⟨hl, by simp, by simp, by rintro k (rfl | rfl) <;> rfl⟩
  exact ⟨.refl s, ha, ⟨t, ht, key.1⟩, key.2.1, key.2.2.1, fun k h => key.2.2.2 k (hd k h)⟩

theorem Due.ofKind_of_pes {r : Rec} (h : kindOfRec r = .videoPES) {k : PacketKind}
    (hk : (Due.record r).ofKind k = true) : k = .videoPES ∨ k = .audioPES := by
  cases k <;> simp_all [Due.ofKind]

theorem Tree.Has.of_subset {t : Tree} {ns ms : List FieldName} (h : t.Has ms) (hs : ns ⊆ ms) : t.Has ns :=
  fun f hf => h f (hs hf)

/-- A conditional record gated by the base record. -/
theorem baseRecord_part {r : Rec} {fs : List FieldVal} {s : State} {t : Tree} (ht : s.ft = some t)
    (ha : s.rd.bitpos % 8 = 0) (hn : t.Has pesNames) (hf : Narrow fs) (h8 : bitsOf fs % 8 = 0)
    (hk : kindOfRec r = .videoPES) : s.PartSat (.record r) (baseRecord r fs s) := by
  refine State.PartSat.bind (State.decodeFields_part ht hf) ?_
  rintro _ s1 - ⟨hb, ht1, -, -⟩
  have hn1 := hn.withFields fs
  have hsub : ∀ r : Rec, ∀ g ∈ gatesAfter r baseGates, g ∈ baseGates := by
    intro r
    cases r <;> simp [gatesAfter, baseGates]
  refine firstGate_part ht1 (by omega) ?_ (hn1.of_subset (by simp [pesNames])) ?_ ?_ fun k => Due.ofKind_of_pes hk
  · refine hn1.of_subset fun f hf => ?_
    obtain ⟨g, hg, rfl⟩ := List.mem_map.1 hf
    exact List.mem_append_right _ (List.mem_map_of_mem (hsub r g hg))
  · intro g hg
    have hg := hsub r g hg
    simp only [baseGates, List.mem_cons, List.not_mem_nil, or_false] at hg
    rcases hg with rfl | rfl | rfl | rfl | rfl | rfl | rfl | rfl
    all_goals first
      | exact hn1
      | exact hn1.of_subset (by simp [needsOf, pesNames])
  · intro g hg
    have hg := hsub r g hg
    simp only [baseGates, List.mem_cons, List.not_mem_nil, or_false] at hg
    rcases hg with rfl | rfl | rfl | rfl | rfl | rfl | rfl | rfl <;> rfl

/-- The gates of the extension flags from any of them on. -/
theorem extGates_part {gs : List Gate} {d : Due} {s : State} {t : Tree} (hsub : ∀ g ∈ gs, g ∈ extGates)
    (ht : s.ft = some t) (ha : s.rd.bitpos % 8 = 0) (hn : t.Has pesExtNames)
    (hd : ∀ k, d.ofKind k = true → k = .videoPES ∨ k = .audioPES) : s.PartSat d (firstGate gs s) := by
  refine firstGate_part ht ha ?_ (hn.of_subset (by simp [pesExtNames])) ?_ ?_ hd
  · refine hn.of_subset fun f hf => ?_
    obtain ⟨g, hg, rfl⟩ := List.mem_map.1 hf
    exact List.mem_append_right _ (List.mem_map_of_mem (hsub g hg))
  · intro g hg
    have hg := hsub g hg
    simp only [extGates, List.mem_cons, List.not_mem_nil, or_false] at hg
    rcases hg with rfl | rfl | rfl | rfl | rfl <;> exact hn
  · intro g hg
    have hg := hsub g hg
    simp only [extGates, List.mem_cons, List.not_mem_nil, or_false] at hg
    rcases hg with rfl | rfl | rfl | rfl | rfl <;> rfl

theorem gatesAfter_subset (r : Rec) (gs : List Gate) : ∀ g ∈ gatesAfter r gs, g ∈ gs := by
  induction gs with
  | nil => exact fun g h => h
  | cons g gs ih =>
    intro g' h
    unfold gatesAfter at h
    split at h
    · exact List.mem_cons_of_mem _ h
    · exact List.mem_cons_of_mem _ (ih g' h)

/-- A conditional block gated by the extension flags. -/
theorem extBlock_part {r : Rec} {fs : List FieldVal} {s : State} {t : Tree} (n : Nat) (ht : s.ft = some t)
    (ha : s.rd.bitpos % 8 = 0) (hn : t.Has pesExtNames) (hf : Narrow fs) (h8 : bitsOf fs % 8 = 0)
    (hk : kindOfRec r = .videoPES) : s.PartSat (.record r) (extBlock r fs n s) := by
  refine State.PartSat.bind (State.decodeFields_part ht hf) ?_
  rintro _ s1 - ⟨hb, ht1, -, -⟩
  refine State.PartSat.bind (State.skip_part n s1) ?_
  rintro _ s2 - ⟨hb2, ht2, -, -⟩
  exact extGates_part (gatesAfter_subset r _) (ht2.trans ht1) (by omega) (hn.withFields fs)
    fun k => Due.ofKind_of_pes hk

/-- A conditional record gated by the extension flags. -/
theorem extRecord_part {r : Rec} {fs : List FieldVal} {s : State} {t : Tree} (ht : s.ft = some t)
    (ha : s.rd.bitpos % 8 = 0) (hn : t.Has pesExtNames) (hf : Narrow fs) (h8 : bitsOf fs % 8 = 0)
    (hk : kindOfRec r = .videoPES) : s.PartSat (.record r) (extRecord r fs s) := by
  refine State.PartSat.bind (State.decodeFields_part ht hf) ?_
  rintro _ s1 - ⟨hb, ht1, -, -⟩
  exact extGates_part (gatesAfter_subset r _) ht1 (by omega) (hn.withFields fs) fun k => Due.ofKind_of_pes hk

/-! ### The parts -/

theorem sysLoop_part {s : State} {t : Tree} {d : Due} (ht : s.ft = some t) (ha : s.rd.bitpos % 8 = 0)
    (hd : ∀ k, d.ofKind k = true → k = .systemHeader) : s.PartSat d (sysLoop s) := by
  refine State.PartSat.bind (P := fun _ s' => s'.rd.bitpos = s.rd.bitpos ∧ s'.ft = some t)
    ((State.peek_sat 1 s).mono ?_ ?_ ?_) ?_
  · rintro _ s' ⟨-, -, -, -, rd, hm, rfl⟩
    exact ⟨.moved hm le_rfl, hm.1, ht⟩
  · rintro e s' ⟨rfl, ⟨h, -⟩ | ⟨-, -, -, rfl⟩⟩
    · omega
    · exact ⟨.refl _, .inl rfl⟩
  · rintro x (⟨h, -⟩ | ⟨-, h, -⟩) <;> omega
  · rintro b s1 - ⟨hb, ht1⟩
    refine ⟨.refl s1, by omega, ⟨t, ht1, ?_⟩, ?_, ?_, ?_⟩
    · intro f hf
      split at hf <;> simp [Due.needs, needsOf] at hf
    · split <;> simp
    · split <;> simp
    · intro k hk
      rw [hd k hk]
      split <;> rfl

theorem partPackBody_part {r : PackBody} {s : State} {t : Tree} (ht : s.ft = some t) (ha : s.rd.bitpos % 8 = 0) :
    s.PartSat (.record .packBody) (partPackBody r s) := by
  refine State.PartSat.bind (State.decodeFields_part ht (narrow_fieldsOfPackBody r)) ?_
  rintro _ s1 - ⟨hb, ht1, -, -⟩
  rw [bitsOf_fieldsOfPackBody] at hb
  refine State.PartSat.bind (State.skip_part _ s1) ?_
  rintro _ s2 - ⟨hb2, ht2, -, -⟩
  exact ⟨.refl _, by omega, ⟨_, ht2.trans ht1, fun f hf => nomatch hf⟩, by simp, by simp, fun _ _ => rfl⟩

theorem partSysFixed_part {r : SysFixed} {s : State} {t : Tree} (ht : s.ft = some t) (ha : s.rd.bitpos % 8 = 0) :
    s.PartSat (.record .sysFixed) (partSysFixed r s) := by
  refine State.PartSat.bind (State.decodeFields_part ht (narrow_fieldsOfSysFixed r)) ?_
  rintro _ s1 - ⟨hb, ht1, -, -⟩
  rw [bitsOf_fieldsOfSysFixed] at hb
  exact sysLoop_part ht1 (by omega) fun k hk => by cases k <;> first | rfl | cases hk

theorem partSysStream_part {r : SysStream} {s : State} {t : Tree} (ht : s.ft = some t) (ha : s.rd.bitpos % 8 = 0) :
    s.PartSat (.record .sysStream) (partSysStream r s) := by
  refine State.PartSat.bind (State.decodeChild_part _ ht (narrow_fieldsOfSysStream r)) ?_
  rintro _ s1 - ⟨hb, ht1, -, -⟩
  rw [bitsOf_fieldsOfSysStream] at hb
  exact sysLoop_part ht1 (by omega) fun k hk => by cases k <;> first | rfl | cases hk

/-- `psmLoop` where the tree has the length of the map (45_program_stream_map.md R184, R188). -/
theorem psmLoop_eq {s : State} {t : Tree} {len : Nat} (ht : s.ft = some t) (ha : s.rd.bitpos % 8 = 0)
    (hl : t.fieldOf .program_stream_map_length = some len) :
    psmLoop s = if 0 < s.work.esmRemaining then .ok (.record .psmEntry) s
      else if (len : Int) - (((s.rd.bitpos / 8 : Nat) : Int) - (s.work.psmMark : Int)) = 4 then .ok (.record .psmCrc) s
      else .raise .formatMismatch s := by
  unfold psmLoop
  rw [State.off_eq_ok ha, Res.bind_ok, State.field_eq_ok ht hl, Res.bind_ok]

theorem psmLoop_part {s : State} {t : Tree} {d : Due} (ht : s.ft = some t) (ha : s.rd.bitpos % 8 = 0)
    (hl : t.Has [.program_stream_map_length]) (hd : ∀ k, d.ofKind k = true → k = .programStreamMap) :
    s.PartSat d (psmLoop s) := by
  obtain ⟨len, hlen⟩ := Option.isSome_iff_exists.1 (hl .program_stream_map_length (by simp))
  rw [psmLoop_eq ht ha hlen]
  split
  · exact ⟨.refl s, ha, ⟨t, ht, hl⟩, by simp, by simp, fun k hk => by rw [hd k hk]; rfl⟩
  · split
    · exact ⟨.refl s, ha, ⟨t, ht, fun f hf => nomatch hf⟩, by simp, by simp, fun k hk => by rw [hd k hk]; rfl⟩
    · exact ⟨.refl s, .inr (.inr rfl)⟩

theorem partPsmFixed_part {r : PsmFixed} {s : State} {t : Tree} (ht : s.ft = some t) (ha : s.rd.bitpos % 8 = 0) :
    s.PartSat (.record .psmFixed) (partPsmFixed r s) := by
  refine State.PartSat.bind (State.decodeFields_part ht ((narrow_fieldsOfPsmFixed r).take 1)) ?_
  rintro _ s1 - ⟨hb, ht1, -, -⟩
  have h16 : bitsOf ((fieldsOfPsmFixed r).take 1) = 16 := rfl
  rw [State.off_eq_ok (by omega), Res.bind_ok]
  refine State.PartSat.after (.worked s1 { s1.work with psmMark := s1.rd.bitpos / 8 } s1.videoStreamType
    s1.audioStreamType rfl rfl) ?_
  refine State.PartSat.bind (State.decodeFields_part (t := t.withFields ((fieldsOfPsmFixed r).take 1)) ht1
    ((narrow_fieldsOfPsmFixed r).drop 1)) ?_
  rintro _ s2 - ⟨hb2, ht2, -, -⟩
  have h32 : bitsOf ((fieldsOfPsmFixed r).drop 1) = 32 := rfl
  dsimp only at hb2
  refine State.PartSat.bind (State.skip_part _ s2) ?_
  rintro _ s3 - ⟨hb3, ht3, -, -⟩
  refine ⟨.refl _, by omega, ⟨_, ht3.trans ht2, ?_⟩, by simp, by simp, fun k hk => ?_⟩
  · exact (Tree.has_withFields t (fs := (fieldsOfPsmFixed r).take 1)
      (by simp [Due.needs, needsOf, fieldsOfPsmFixed])).withFields _
  · cases k <;> first | rfl | cases hk

theorem partPsmEsmLength_part {r : PsmEsmLength} {s : State} {t : Tree} (ht : s.ft = some t)
    (ha : s.rd.bitpos % 8 = 0) (hn : t.Has (needsOf .psmEsmLength)) :
    s.PartSat (.record .psmEsmLength) (partPsmEsmLength r s) := by
  refine State.PartSat.bind (State.decodeFields_part ht (narrow_fieldsOfPsmEsmLength r)) ?_
  rintro _ s1 - ⟨hb, ht1, -, -⟩
  rw [bitsOf_fieldsOfPsmEsmLength] at hb
  refine State.PartSat.after (.worked s1 { s1.work with esmRemaining := r.elementary_stream_map_length.toNat }
    s1.videoStreamType s1.audioStreamType rfl rfl) ?_
  exact psmLoop_part (t := t.withFields _) ht1 (by dsimp only; omega) (hn.withFields _)
    fun k hk => by cases k <;> first | rfl | cases hk

theorem partPsmEntry_part {r : PsmEntry} {s : State} {t : Tree} (ht : s.ft = some t)
    (ha : s.rd.bitpos % 8 = 0) (hn : t.Has (needsOf .psmEntry)) :
    s.PartSat (.record .psmEntry) (partPsmEntry r s) := by
  refine State.PartSat.bind (State.decodeChild_part _ ht (narrow_fieldsOfPsmEntry r)) ?_
  rintro _ s1 - ⟨hb, ht1, -, -⟩
  rw [bitsOf_fieldsOfPsmEntry] at hb
  split
  · exact ⟨.refl s1, .inr (.inl rfl)⟩
  · refine State.PartSat.after (.setStreamType r.stream_type r.elementary_stream_id s1) ?_
    refine State.PartSat.bind (State.skip_part _ _) ?_
    rintro _ s2 - ⟨hb2, ht2, -, -⟩
    rw [setStreamType_rd] at hb2
    rw [setStreamType_ft] at ht2
    refine State.PartSat.after (.worked s2 { s2.work with
      esmRemaining := s2.work.esmRemaining - (4 + r.elementary_stream_info_length.toNat) }
      s2.videoStreamType s2.audioStreamType rfl rfl) ?_
    exact psmLoop_part (t := t.withChild _ _) (ht2.trans ht1) (by dsimp only; omega) (hn.withChild _ _)
      fun k hk => by cases k <;> first | rfl | cases hk

theorem partPsmCrc_part {r : PsmCrc} {s : State} {t : Tree} (ht : s.ft = some t) (ha : s.rd.bitpos % 8 = 0) :
    s.PartSat (.record .psmCrc) (partPsmCrc r s) := by
  refine State.PartSat.bind (State.decodeFields_part ht (narrow_fieldsOfPsmCrc r)) ?_
  rintro _ s1 - ⟨hb, ht1, -, -⟩
  rw [bitsOf_fieldsOfPsmCrc] at hb
  exact ⟨.refl _, by omega, ⟨_, ht1, fun f hf => nomatch hf⟩, by simp, by simp, fun _ _ => rfl⟩

/-- The names a base record puts in the tree are those read back later. -/
theorem has_fieldsOfPesBase (t : Tree) (r : PesBase) : (t.withFields (fieldsOfPesBase r)).Has pesNames :=
  Tree.has_withFields t (by simp [pesNames, pesLengths, baseGates, fieldsOfPesBase])

theorem has_fieldsOfPesExtFlags (t : Tree) (r : PesExtFlags) :
    (t.withFields (fieldsOfPesExtFlags r)).Has (extGates.map Gate.flag) :=
  Tree.has_withFields t (by simp [extGates, fieldsOfPesExtFlags])

theorem partPesBase_part {r : PesBase} {s : State} {t : Tree} (ht : s.ft = some t) (ha : s.rd.bitpos % 8 = 0) :
    s.PartSat (.record .pesBase) (partPesBase r s) := by
  refine State.PartSat.bind (State.decodeFields_part ht (narrow_fieldsOfPesBase r)) ?_
  rintro _ s1 - ⟨hb, ht1, -, -⟩
  rw [bitsOf_fieldsOfPesBase] at hb
  rw [State.off_eq_ok (by omega), Res.bind_ok]
  refine State.PartSat.after (.worked s1 { s1.work with hdrMark := s1.rd.bitpos / 8 } s1.videoStreamType
    s1.audioStreamType rfl rfl) ?_
  have hn := has_fieldsOfPesBase t r
  refine firstGate_part (t := t.withFields (fieldsOfPesBase r)) ht1 (by dsimp only; omega)
    (hn.of_subset (by simp [pesNames])) (hn.of_subset (by simp [pesNames])) ?_ ?_ fun k => Due.ofKind_of_pes rfl
  · intro g hg
    simp only [baseGates, List.mem_cons, List.not_mem_nil, or_false] at hg
    rcases hg with rfl | rfl | rfl | rfl | rfl | rfl | rfl | rfl
    all_goals first
      | exact hn
      | exact hn.of_subset (by simp [needsOf, pesNames])
  · intro g hg
    simp only [baseGates, List.mem_cons, List.not_mem_nil, or_false] at hg
    rcases hg with rfl | rfl | rfl | rfl | rfl | rfl | rfl | rfl <;> rfl

theorem partPesExtFlags_part {r : PesExtFlags} {s : State} {t : Tree} (ht : s.ft = some t) (ha : s.rd.bitpos % 8 = 0)
    (hn : t.Has (needsOf .pesExtFlags)) : s.PartSat (.record .pesExtFlags) (partPesExtFlags r s) := by
  refine State.PartSat.bind (State.decodeFields_part ht (narrow_fieldsOfPesExtFlags r)) ?_
  rintro _ s1 - ⟨hb, ht1, -, -⟩
  rw [bitsOf_fieldsOfPesExtFlags] at hb
  exact extGates_part (fun _ => id) ht1 (by omega)
    ((show t.Has pesLengths from hn).withFields _ |>.append (has_fieldsOfPesExtFlags t r)) fun k => Due.ofKind_of_pes rfl

/-- The header stuffing (46_pes_header.md R213). -/
theorem partPesStuffing_part {s : State} {t : Tree} (ht : s.ft = some t) (ha : s.rd.bitpos % 8 = 0)
    (hn : t.Has pesLengths) : s.PartSat .stuffing (partPesStuffing s) := by
  obtain ⟨v, hv⟩ := Option.isSome_iff_exists.1 (hn .PES_header_data_length (by simp [pesLengths]))
  unfold partPesStuffing
  rw [State.off_eq_ok ha, Res.bind_ok, State.field_eq_ok ht hv, Res.bind_ok]
  split
  · refine State.PartSat.bind (State.skip_part _ s) ?_
    rintro _ s1 - ⟨hb, ht1, -, -⟩
    exact ⟨.refl _, by omega, ⟨t, ht1.trans ht, hn⟩, by simp, by simp, fun _ => id⟩
  · exact ⟨.refl _, ha, ⟨t, ht, hn⟩, by simp, by simp, fun _ => id⟩

/-- Every record's part: what it can do in the tree of its packet (42_demux_loop.md R145). -/
theorem partOf_part {i : Instr} {r : Rec} {s : State} {t : Tree} (hi : i.ctx = some (.record r)) (ht : s.ft = some t)
    (ha : s.rd.bitpos % 8 = 0) (hn : t.Has (needsOf r)) : s.PartSat (.record r) (partOf i s) := by
  cases i <;> simp only [Instr.ctx, Option.some.injEq, Ctx.record.injEq, reduceCtorEq] at hi
  all_goals subst hi
  case packBody => exact partPackBody_part ht ha
  case sysFixed => exact partSysFixed_part ht ha
  case sysStream => exact partSysStream_part ht ha
  case psmFixed => exact partPsmFixed_part ht ha
  case psmEsmLength => exact partPsmEsmLength_part ht ha hn
  case psmEntry => exact partPsmEntry_part ht ha hn
  case psmCrc => exact partPsmCrc_part ht ha
  case pesBase => exact partPesBase_part ht ha
  case pesPts r => exact baseRecord_part ht ha hn (narrow_fieldsOfPesPts r) (by simp) rfl
  case pesPtsDts r => exact baseRecord_part ht ha hn (narrow_fieldsOfPesPtsDts r) (by simp) rfl
  case pesEscr r => exact baseRecord_part ht ha hn (narrow_fieldsOfPesEscr r) (by simp) rfl
  case pesEsRate r => exact baseRecord_part ht ha hn (narrow_fieldsOfPesEsRate r) (by simp) rfl
  case pesTrick0 r => exact baseRecord_part ht ha hn (narrow_fieldsOfPesTrick0 r) (by simp) rfl
  case pesTrick1 r => exact baseRecord_part ht ha hn (narrow_fieldsOfPesTrick1 r) (by simp) rfl
  case pesTrick2 r => exact baseRecord_part ht ha hn (narrow_fieldsOfPesTrick2 r) (by simp) rfl
  case pesTrick3 r => exact baseRecord_part ht ha hn (narrow_fieldsOfPesTrick3 r) (by simp) rfl
  case pesTrick4 r => exact baseRecord_part ht ha hn (narrow_fieldsOfPesTrick4 r) (by simp) rfl
  case pesTrick5 r => exact baseRecord_part ht ha hn (narrow_fieldsOfPesTrick5 r) (by simp) rfl
  case pesTrick6 r => exact baseRecord_part ht ha hn (narrow_fieldsOfPesTrick6 r) (by simp) rfl
  case pesTrick7 r => exact baseRecord_part ht ha hn (narrow_fieldsOfPesTrick7 r) (by simp) rfl
  case pesCopyInfo r => exact baseRecord_part ht ha hn (narrow_fieldsOfPesCopyInfo r) (by simp) rfl
  case pesCrc r => exact baseRecord_part ht ha hn (narrow_fieldsOfPesCrc r) (by simp) rfl
  case pesExtFlags => exact partPesExtFlags_part ht ha hn
  case pesPrivateData => exact extBlock_part 16 ht ha hn narrow_nil (by simp) rfl
  case pesPackField r => exact extBlock_part _ ht ha hn (narrow_fieldsOfPesPackField r) (by simp) rfl
  case pesSeqCounter r => exact extRecord_part ht ha hn (narrow_fieldsOfPesSeqCounter r) (by simp) rfl
  case pesPStd r => exact extRecord_part ht ha hn (narrow_fieldsOfPesPStd r) (by simp) rfl
  case pesExt2 r => exact extBlock_part _ ht ha hn (narrow_fieldsOfPesExt2 r) (by simp) rfl

/-! ### The payload -/

/-- The state after `Push(ES, ..)` of the payload in the buffer (10_state.md R40; 47_pes_payload_resync.md R237, R238). -/
def State.forwarded (s : State) : State :=
  { s with
    es := s.es ++ [⟨streamKindOf s.pkt.kind, s.work.payload⟩]
    esLog := s.esLog ++ [⟨streamKindOf s.pkt.kind, s.work.payload⟩]
    cnt := if s.pkt.kind = .videoPES then classify s.work.payload s.cnt else s.cnt
    work := { s.work with payload := [] } }

/-- The state after a resync that has discarded its bytes (47_pes_payload_resync.md R235). -/
def State.errored (s : State) : State :=
  { s with cnt := countErrored s.pkt.kind s.cnt, pkt := { s.pkt with status := .error } }

theorem hasRoom_iff {α : Type} (q : List α) (less1 : Nat) : hasRoom q less1 = true ↔ q.length ≤ less1 := by
  induction q generalizing less1 with
  | nil => simp [hasRoom]
  | cons a q ih =>
    cases less1 with
    | zero => simp [hasRoom]
    | succ k => simp [hasRoom, ih]

theorem hasRoom_eq_false_iff {α : Type} (q : List α) (less1 : Nat) : hasRoom q less1 = false ↔ less1 < q.length := by
  rw [← Bool.not_eq_true, hasRoom_iff, Nat.not_le]

theorem State.pushEs_of_room {s : State} (h : s.es.length ≤ s.env.esDepthLess1) :
    s.pushEs = .ok .finish s.forwarded := by
  rw [State.pushEs, if_pos ((hasRoom_iff _ _).2 h)]
  rfl

theorem State.pushEs_of_full {s : State} (h : s.env.esDepthLess1 < s.es.length) : s.pushEs = .ok .pushEs s := by
  rw [State.pushEs, if_neg (by simp [hasRoom_iff]; omega)]

/-- The scan answers a position inside the source (47_pes_payload_resync.md R233). -/
theorem Memory.scan_le (m : Memory) (k q : Nat) (h : q + k = m.sizeN) : q ≤ m.scan k q ∧ m.scan k q ≤ m.sizeN := by
  induction k generalizing q with
  | zero => simp [Memory.scan]; omega
  | succ k ih =>
    unfold Memory.scan
    split
    · omega
    · have := ih (q + 1) (by omega)
      omega

/-- A payload forwarded, or waiting for room, or discarded by a resync (47_pes_payload_resync.md R230). -/
inductive State.PayloadOk (s : State) : Due → State → Prop where
  | forwarded (rd : Reader) (p : Nat) (bs : List Byte) (hp : s.rd.bitpos ≤ p) (ha : p % 8 = 0)
      (hm : s.rd.MovedTo s.env.src rd p) (hr : s.es.length ≤ s.env.esDepthLess1) :
      s.PayloadOk .finish ({ s with rd := rd, work := { s.work with payload := bs } } : State).forwarded
  | waiting (rd : Reader) (p : Nat) (bs : List Byte) (hp : s.rd.bitpos ≤ p) (ha : p % 8 = 0)
      (hm : s.rd.MovedTo s.env.src rd p) (hr : s.env.esDepthLess1 < s.es.length) :
      s.PayloadOk .pushEs { s with rd := rd, work := { s.work with payload := bs } }
  | discarded (rd : Reader) (p : Nat) (hp : s.rd.bitpos ≤ p) (ha : p % 8 = 0) (hm : s.rd.MovedTo s.env.src rd p) :
      s.PayloadOk .finish ({ s with rd := rd } : State).errored

/-- Everything the payload part can do (47_pes_payload_resync.md R230). -/
theorem partPesPayload_part {s : State} {t : Tree} (ht : s.ft = some t) (ha : s.rd.bitpos % 8 = 0)
    (hn : t.Has pesLengths) : (partPesPayload s).Sat s.PayloadOk s.PartErr (fun _ => False) := by
  obtain ⟨pl, hpl⟩ := Option.isSome_iff_exists.1 (hn .PES_packet_length (by simp [pesLengths]))
  obtain ⟨hl, hhl⟩ := Option.isSome_iff_exists.1 (hn .PES_header_data_length (by simp [pesLengths]))
  unfold partPesPayload
  rw [State.field_eq_ok ht hpl, Res.bind_ok, State.field_eq_ok ht hhl, Res.bind_ok, State.off_eq_ok ha, Res.bind_ok]
  split
  · have hs := State.readBytes_sat (payloadLengthOf pl hl).toNat s
    rcases h : s.readBytes (payloadLengthOf pl hl).toNat with ⟨bs, s1⟩ | ⟨e, s1⟩ | x <;> rw [h] at hs
    · obtain ⟨-, -, -, rd, hm, rfl⟩ := hs
      rw [Res.bind_ok]
      by_cases hr : s.es.length ≤ s.env.esDepthLess1
      · rw [State.pushEs_of_room (s := { s with rd := rd, work := { s.work with payload := bs } }) hr]
        exact .forwarded rd _ bs (by omega) (by omega) hm hr
      · rw [State.pushEs_of_full (s := { s with rd := rd, work := { s.work with payload := bs } })
          (Nat.lt_of_not_le hr)]
        exact .waiting rd _ bs (by omega) (by omega) hm (Nat.lt_of_not_le hr)
    · obtain ⟨rfl, -, -, rfl⟩ := hs
      exact ⟨.refl _, .inl rfl⟩
    · exact absurd ha hs.1
  · unfold State.resync
    have hs := State.skip_sat (s.env.src.resyncFrom (s.rd.bitpos / 8) - s.rd.bitpos / 8) s
    rcases h : s.skip (s.env.src.resyncFrom (s.rd.bitpos / 8) - s.rd.bitpos / 8) with ⟨u, s1⟩ | ⟨e, s1⟩ | x <;>
      rw [h] at hs
    · obtain ⟨-, rd, hm, rfl⟩ := hs
      exact .discarded rd _ (by omega) (by omega) hm
    · obtain ⟨rfl, -, rfl⟩ := hs
      exact ⟨.refl _, .inl rfl⟩
    · exact hs.elim

/-! ### A part as a step -/

/-- An instruction of the stream that is a record runs its part (42_demux_loop.md R145). -/
theorem exec_record {i : Instr} {r : Rec} (hi : i.ctx = some (.record r)) (s : State) :
    exec i s = s.runPart (partOf i) := by
  cases i <;> simp only [Instr.ctx, Option.some.injEq, Ctx.record.injEq, reduceCtorEq] at hi
  all_goals rfl

/-- What the decoder reads before a record is an instruction of that record (30_encoding.md R102). -/
theorem ctx_decodeRecord (r : Rec) (w : Nat) : (decodeRecord r w).ctx = some (.record r) := by
  cases r <;> first | rfl | (show (decodeTrick w).ctx = _; unfold decodeTrick; split <;> rfl)

theorem State.runPart_ok {part : State → Res State Due} {s s' : State} {d : Due} (hr : s.run = .running)
    (h : part s = .ok d s') : s.runPart part = .next (s'.goTo d) := by
  rw [State.runPart, if_pos hr, h]

theorem State.runPart_raise {part : State → Res State Due} {s s' : State} {e : Err} (hr : s.run = .running)
    (h : part s = .raise e s') : s.runPart part = .next (s'.raiseFatal e) := by
  rw [State.runPart, if_pos hr, h]

theorem State.runPart_idle {part : State → Res State Due} {s : State} (hr : s.run ≠ .running) :
    s.runPart part = .next s := by
  rw [State.runPart, if_neg hr]

/-- A part that answers or raises, as a step. -/
theorem State.runPart_sat {part : State → Res State Due} {s : State} {P : Due → State → Prop} {Q : Err → State → Prop}
    (hr : s.run = .running) (h : (part s).Sat P Q (fun _ => False)) :
    ∃ t, s.runPart part = .next t ∧
      ((∃ d s', P d s' ∧ t = s'.goTo d) ∨ ∃ e s', Q e s' ∧ t = s'.raiseFatal e) := by
  rcases hp : part s with ⟨d, s'⟩ | ⟨e, s'⟩ | x <;> rw [hp] at h
  · exact ⟨_, State.runPart_ok hr hp, .inl ⟨d, s', h, rfl⟩⟩
  · exact ⟨_, State.runPart_raise hr hp, .inr ⟨e, s', h, rfl⟩⟩
  · exact h.elim

/-! ### The end of a packet -/

/-- The three ways the end of a packet goes (42_demux_loop.md R146): it waits for room, or it ends, with an event or, for a
pack header, without. -/
theorem State.finishPacket_cases (s : State) :
    (s.pkt.kind ≠ .packHeader ∧ s.env.qdepthLess1 < s.evt.length ∧
      s.finishPacket = { s with work := { s.work with due := .finish } }) ∨
    (s.pkt.kind ≠ .packHeader ∧ s.evt.length ≤ s.env.qdepthLess1 ∧ s.finishPacket = s.pushEvent.endPacket) ∨
    (s.pkt.kind = .packHeader ∧ s.finishPacket = s.endPacket) := by
  unfold State.finishPacket
  by_cases hk : s.pkt.kind = .packHeader
  · exact .inr (.inr ⟨hk, by simp [reportable, hk]⟩)
  · by_cases hr : s.evt.length ≤ s.env.qdepthLess1
    · exact .inr (.inl ⟨hk, hr, by simp [reportable, hk, (hasRoom_iff _ _).2 hr]⟩)
    · exact .inl ⟨hk, by omega, by simp [reportable, hk, (hasRoom_eq_false_iff s.evt _).2 (Nat.lt_of_not_le hr)]⟩

theorem State.endPacket_none {s : State} (h : s.work.pending = none) :
    s.endPacket = { s with ft := none, work := Work.none } := by
  rw [State.endPacket, h]

theorem State.endPacket_some {s : State} {e : Err} (h : s.work.pending = some e) : s.endPacket = s.abort e := by
  rw [State.endPacket, h]

theorem State.goTo_finish (s : State) : s.goTo .finish = s.finishPacket := rfl

theorem State.goTo_of_ne {s : State} {d : Due} (h : d ≠ .finish) :
    s.goTo d = { s with work := { s.work with due := d } } := by
  rw [State.goTo, if_neg h]

theorem State.raiseFatal_inPacket {s : State} (e : Err) (h : s.work.due ≠ .top) :
    s.raiseFatal e = ({ s with
      pkt := { s.pkt with status := .error }, work := { s.work with pending := some e } } : State).finishPacket := by
  rw [State.raiseFatal, if_neg h]

/-- An error raised inside a reportable packet when EVT has room: the event, then the abort (60_exceptions.md R267). -/
theorem State.raiseFatal_of_room {s : State} (e : Err) (hd : s.work.due ≠ .top) (hk : s.pkt.kind ≠ .packHeader)
    (hr : s.evt.length ≤ s.env.qdepthLess1) :
    s.raiseFatal e = s.failedPacket e.code s.rd s.theTree := by
  rw [State.raiseFatal_inPacket _ hd, State.finishPacket, if_pos (by simp [reportable, hk]),
    if_pos ((hasRoom_iff _ _).2 hr)]
  rfl

/-- A part that raises an error inside a reportable packet when EVT has room, as a step: whatever it did to the working values,
the cursor and the tree it leaves are those of the event and the abort (60_exceptions.md R267). -/
theorem State.runPart_failed {part : State → Res State Due} {s u : State} {e : Err} {rd : Reader} {tr : Tree} {w : Work}
    (hr : s.run = .running) (h : part s = .raise e { u with rd := rd, ft := some tr, work := w }) (hd : w.due ≠ .top)
    (hk : u.pkt.kind ≠ .packHeader) (hroom : u.evt.length ≤ u.env.qdepthLess1) :
    s.runPart part = .next (u.failedPacket e.code rd tr) := by
  rw [State.runPart_raise hr h,
    State.raiseFatal_of_room (s := { u with rd := rd, ft := some tr, work := w }) e hd hk hroom]
  rfl

/-- What an entry writes to the stream-type registers (45_program_stream_map.md R186). -/
theorem setStreamType_eq (type id : Byte) (s : State) : setStreamType type id s = { s with
    videoStreamType := if 0xE0 ≤ id.toNat ∧ id.toNat ≤ 0xEF then type else s.videoStreamType
    audioStreamType := if 0xC0 ≤ id.toNat ∧ id.toNat ≤ 0xDF then type else s.audioStreamType } := by
  unfold setStreamType isVideoId isAudioId
  by_cases h : 0xE0 ≤ id.toNat ∧ id.toNat ≤ 0xEF
  · have h' : ¬(0xC0 ≤ id.toNat ∧ id.toNat ≤ 0xDF) := by omega
    rw [if_pos (by simp [h]), if_pos h, if_neg h']
  · rw [if_neg (by simpa using h), if_neg h]
    by_cases h' : 0xC0 ≤ id.toNat ∧ id.toNat ≤ 0xDF
    · rw [if_pos (by simp [h']), if_pos h']
    · rw [if_neg (by simpa using h'), if_neg h']

end Sys2Proof.Machine
end

