-- ==== Sys2Proof/Laws/Step.lean ====
section
/-! SUPPORT. What a step can do, said once: the moves of the demux task, and the moves of a request. A statement about every
step is then a case analysis over these. -/

namespace Sys2Proof.Machine

/-! ### The start-code fetch -/

/-- Everything the start-code fetch can do at an aligned cursor (42_demux_loop.md R142). -/
theorem State.fetchStart_sat {s : State} (ha : s.rd.bitpos % 8 = 0) :
    s.fetchStart.Sat
      (fun v s' => ∃ rd, s.rd.MovedTo s.env.src rd (s.rd.bitpos + 32) ∧ v = s.env.src.bits s.rd.bitpos 32 ∧
        s' = { s with
          rd := rd, pkt := { s.pkt with offset := BitVec.ofNat 64 (s.rd.bitpos / 8), startCode := 0 } })
      (fun e s' => e = .unexpectedEndOfData ∧ s' = { s with
          pkt := { s.pkt with offset := BitVec.ofNat 64 (s.rd.bitpos / 8), startCode := 0 } })
      (fun _ => False) := by
  unfold State.fetchStart
  rw [State.off_eq_ok ha, Res.bind_ok]
  refine (State.read_sat 32 _).mono ?_ ?_ ?_
  · rintro v s' ⟨-, -, -, rfl, rd, hm, rfl⟩
    exact ⟨rd, hm, rfl, rfl⟩
  · rintro e s' ⟨rfl, h | ⟨-, -, -, rfl⟩⟩
    · omega
    · exact ⟨rfl, rfl⟩
  · rintro x (⟨h, -⟩ | ⟨-, h, -⟩)
    · omega
    · dsimp only at h
      omega

/-- Only the five start codes decode at the loop top (30_encoding.md R70). -/
theorem decodeWord_startCode {w : Nat} {i : Instr} (h : decodeWord .startCode w = .ok i) : ∃ k, i = startInstr k := by
  simp only [decodeWord] at h
  split at h
  · cases h
    exact ⟨_, rfl⟩
  · cases h

/-- A start code runs the fetch and the dispatch of its kind (42_demux_loop.md R144). -/
theorem exec_startInstr (k : PacketKind) (s : State) : exec (startInstr k) s = s.startPacket k (firstRecord k) := by
  cases k <;> rfl

/-! ### The demux task -/

/-- The moves of the demux task in a run. -/
inductive State.TaskMove (s : State) : State → Prop where
  /-- CANCEL was high at the loop top (42_demux_loop.md R141). -/
  | cancelled (hd : s.work.due = .top) : s.TaskMove { s with run := .cancelled }
  /-- The source was at its end at the loop top (R142). -/
  | done (hd : s.work.due = .top) : s.TaskMove { s with run := .done }
  /-- A start code was dispatched (R144). -/
  | dispatched (k : PacketKind) (rd : Reader) (hd : s.work.due = .top)
      (hm : s.rd.MovedTo s.env.src rd (s.rd.bitpos + 32)) :
      s.TaskMove (({ s with
        rd := rd
        pkt := { s.pkt with offset := BitVec.ofNat 64 (s.rd.bitpos / 8), startCode := 0 } } : State).dispatch k
          (firstRecord k))
  /-- The start-code read failed, or its value is not recognised (R142, R143). -/
  | aborted (e : Err) (p : Packet) (rd : Reader) (q : Nat) (hd : s.work.due = .top) (hq : s.rd.bitpos ≤ q)
      (hm : s.rd.MovedTo s.env.src rd q) (he : e = .unexpectedEndOfData ∨ e = .unknownStartCode) :
      s.TaskMove (({ s with rd := rd, pkt := p } : State).abort e)
  /-- A record or the stuffing was decoded (R145). -/
  | part (d : Due) (s' : State) (hd : s.work.due ≠ .top) (hf : s.work.due ≠ .finish)
      (h : s.PartOk s.work.due d s') : s.TaskMove (s'.goTo d)
  /-- A part of the packet raised an error (R145). -/
  | raised (e : Err) (s' : State) (hd : s.work.due ≠ .top) (h : s.PartErr e s') : s.TaskMove (s'.raiseFatal e)
  /-- The payload was read or discarded (47_pes_payload_resync.md R230). -/
  | payload (d : Due) (s' : State) (hd : s.work.due = .payload) (h : s.PayloadOk d s') : s.TaskMove (s'.goTo d)
  /-- A waiting payload was pushed (10_state.md R40). -/
  | pushed (hd : s.work.due = .pushEs) (hr : s.es.length ≤ s.env.esDepthLess1) :
      s.TaskMove s.forwarded.finishPacket
  /-- ES is still full. -/
  | blocked (hd : s.work.due = .pushEs) (hr : s.env.esDepthLess1 < s.es.length) : s.TaskMove s
  /-- The packet ended, or still waits for room in EVT (42_demux_loop.md R146). -/
  | finished (hd : s.work.due = .finish) : s.TaskMove s.finishPacket

/-- Every step of the demux task in a run is one of these moves. -/
theorem taskStep_inv {s t : State} (hi : s.TaskInv) (hr : s.run = .running) (h : taskStep s = .next t) :
    s.TaskMove t := by
  unfold taskStep at h
  rw [if_pos hr] at h
  rcases hd : s.work.due with _ | r | _ | _ | _ | _
  · obtain ⟨-, hw⟩ := hi.atTop hr hd
    have ha := hi.aligned hr (by rw [hw]; rfl)
    have hf := State.fetchStart_sat ha
    rw [hd] at h
    dsimp only at h
    unfold State.loopTop at h
    split at h
    · rename_i o ho
      split at ho
      · cases ho
        cases h
        exact .cancelled hd
      · rw [State.off_eq_ok ha] at ho
        dsimp only at ho
        split at ho
        · cases ho
          cases h
          exact .done hd
        · cases ho
    · split at h
      · rename_i i hdec
        obtain ⟨k, rfl⟩ := decodeWord_startCode hdec
        rw [exec_startInstr, State.startPacket, if_pos hr] at h
        rcases hx : s.fetchStart with ⟨v, s'⟩ | ⟨e, s'⟩ | x <;> rw [hx] at hf h
        · obtain ⟨rd, hm, -, rfl⟩ := hf
          cases h
          exact .dispatched k rd hd hm
        · obtain ⟨rfl, rfl⟩ := hf
          cases h
          exact .aborted _ _ s.rd _ hd le_rfl (Reader.movedTo_refl _ _) (.inl rfl)
        · exact hf.elim
      · rw [State.badStart] at h
        rcases hx : s.fetchStart with ⟨v, s'⟩ | ⟨e, s'⟩ | x <;> rw [hx] at hf h
        · obtain ⟨rd, hm, -, rfl⟩ := hf
          cases h
          exact .aborted _ _ rd _ hd (by omega) hm (.inr rfl)
        · obtain ⟨rfl, rfl⟩ := hf
          cases h
          exact .aborted _ _ s.rd _ hd le_rfl (Reader.movedTo_refl _ _) (.inl rfl)
        · exact hf.elim
  all_goals
    have hne : s.work.due ≠ .top := by rw [hd]; simp
    obtain ⟨u, hu, -, -, hn, -, -⟩ := hi.inPacket hr hne
    have ha : s.work.due ≠ .finish → s.rd.bitpos % 8 = 0 := fun hf =>
      hi.aligned hr (Classical.byContradiction fun hc => hf (hi.pendingAtEnd hr hc))
    rw [hd] at hn h
    dsimp only at h
  · have ha := ha (by rw [hd]; simp)
    rw [exec_record (ctx_decodeRecord r _)] at h
    obtain ⟨v, hv, ⟨d, s', hs, rfl⟩ | ⟨e, s', hs, rfl⟩⟩ := State.runPart_sat hr
      (partOf_part (ctx_decodeRecord r (s.env.src.bits s.rd.bitpos r.width)) hu ha hn)
    all_goals
      rw [hv] at h
      cases h
    · exact .part d s' hne (by rw [hd]; simp) (by rw [hd]; exact hs)
    · exact .raised e s' hne hs
  · have ha := ha (by rw [hd]; simp)
    obtain ⟨v, hv, ⟨d, s', hs, rfl⟩ | ⟨e, s', hs, rfl⟩⟩ := State.runPart_sat hr (partPesStuffing_part hu ha hn)
    all_goals
      rw [show exec .pesStuffing s = s.runPart partPesStuffing from rfl, hv] at h
      cases h
    · exact .part d s' hne (by rw [hd]; simp) (by rw [hd]; exact hs)
    · exact .raised e s' hne hs
  · have ha := ha (by rw [hd]; simp)
    obtain ⟨v, hv, ⟨d, s', hs, rfl⟩ | ⟨e, s', hs, rfl⟩⟩ := State.runPart_sat hr (partPesPayload_part hu ha hn)
    all_goals
      rw [show exec .pesPayload s = s.runPart partPesPayload from rfl, hv] at h
      cases h
    · exact .payload d s' hd hs
    · exact .raised e s' hne hs
  · unfold State.retryEs at h
    by_cases hroom : s.es.length ≤ s.env.esDepthLess1
    · rw [State.runPart_ok hr (State.pushEs_of_room hroom)] at h
      cases h
      exact .pushed hd hroom
    · rw [State.runPart_ok hr (State.pushEs_of_full (Nat.lt_of_not_le hroom)), State.goTo_of_ne (by simp)] at h
      cases h
      have hs : ({ s with work := { s.work with due := .pushEs } } : State) = s := by rw [← hd]
      rw [hs]
      exact .blocked hd (Nat.lt_of_not_le hroom)
  · cases h
    exact .finished hd

/-! ### Operations of the BitReader and the Field Model -/

/-- `t` is `s` with the cursor moved on, the tree changed or another reply: what an operation of the BitReader or the Field
Model can do. -/
structure State.Quiet (s t : State) : Prop where
  env : t.env = s.env
  pkt : t.pkt = s.pkt
  work : t.work = s.work
  run : t.run = s.run
  err : t.err = s.err
  cnt : t.cnt = s.cnt
  videoStreamType : t.videoStreamType = s.videoStreamType
  audioStreamType : t.audioStreamType = s.audioStreamType
  evt : t.evt = s.evt
  es : t.es = s.es
  tree : t.tree = s.tree
  evtLog : t.evtLog = s.evtLog
  esLog : t.esLog = s.esLog
  treeLog : t.treeLog = s.treeLog
  forward : s.rd.bitpos ≤ t.rd.bitpos
  coherent : s.rd.Coherent s.env.src → t.rd.Coherent t.env.src

theorem State.Quiet.refl (s : State) : s.Quiet s :=
  ⟨rfl, rfl, rfl, rfl, rfl, rfl, rfl, rfl, rfl, rfl, rfl, rfl, rfl, rfl, le_rfl, id⟩

theorem State.Quiet.trans {s t u : State} (h : s.Quiet t) (h' : t.Quiet u) : s.Quiet u :=
  ⟨h'.env.trans h.env, h'.pkt.trans h.pkt, h'.work.trans h.work, h'.run.trans h.run, h'.err.trans h.err,
    h'.cnt.trans h.cnt, h'.videoStreamType.trans h.videoStreamType, h'.audioStreamType.trans h.audioStreamType,
    h'.evt.trans h.evt, h'.es.trans h.es, h'.tree.trans h.tree, h'.evtLog.trans h.evtLog, h'.esLog.trans h.esLog,
    h'.treeLog.trans h.treeLog, h.forward.trans h'.forward, fun hc => h'.coherent (h.coherent hc)⟩

theorem State.Quiet.of_moved {s : State} {rd : Reader} {p : Nat} (hm : s.rd.MovedTo s.env.src rd p)
    (hp : s.rd.bitpos ≤ p) (ft : Option Tree) (r : Reply) : s.Quiet { s with rd := rd, ft := ft, reply := r } :=
  ⟨rfl, rfl, rfl, rfl, rfl, rfl, rfl, rfl, rfl, rfl, rfl, rfl, rfl, rfl, hm.1 ▸ hp, hm.2⟩

theorem State.Quiet.of_still (s : State) (ft : Option Tree) (r : Reply) : s.Quiet { s with ft := ft, reply := r } :=
  .of_moved (Reader.movedTo_refl _ _) le_rfl ft r

/-- An operation that is quiet however it ends. -/
def State.QuietSat {α : Type} (s : State) (r : Res State α) : Prop :=
  r.Sat (fun _ t => s.Quiet t) (fun _ t => s.Quiet t) (fun _ => True)

theorem State.QuietSat.after {α : Type} {s t : State} {r : Res State α} (h : s.Quiet t) (h' : t.QuietSat r) :
    s.QuietSat r :=
  h'.mono (fun _ _ => h.trans) (fun _ _ => h.trans) (fun _ => id)

theorem State.read_quiet (n : Nat) (s : State) : s.QuietSat (s.read n) := by
  refine (State.read_sat n s).mono ?_ ?_ fun _ _ => trivial
  · rintro v t ⟨-, -, -, -, rd, hm, rfl⟩
    exact .of_moved hm (by omega) s.ft s.reply
  · rintro e t ⟨rfl, -⟩
    exact .refl _

theorem State.peek_quiet (n : Nat) (s : State) : s.QuietSat (s.peek n) := by
  refine (State.peek_sat n s).mono ?_ ?_ fun _ _ => trivial
  · rintro v t ⟨-, -, -, -, rd, hm, rfl⟩
    exact .of_moved hm le_rfl s.ft s.reply
  · rintro e t ⟨rfl, -⟩
    exact .refl _

theorem State.readBytes_quiet (len : Nat) (s : State) : s.QuietSat (s.readBytes len) := by
  refine (State.readBytes_sat len s).mono ?_ ?_ fun _ _ => trivial
  · rintro v t ⟨-, -, -, rd, hm, rfl⟩
    exact .of_moved hm (by omega) s.ft s.reply
  · rintro e t ⟨rfl, -⟩
    exact .refl _

theorem State.skip_quiet (n : Nat) (s : State) : s.QuietSat (s.skip n) := by
  refine (State.skip_sat n s).mono ?_ ?_ fun _ _ => trivial
  · rintro v t ⟨-, rd, hm, rfl⟩
    exact .of_moved hm (by omega) s.ft s.reply
  · rintro e t ⟨rfl, -⟩
    exact .refl _

theorem State.decodeFields_quiet (p : Place) (fs : List FieldVal) (s : State) :
    s.QuietSat (State.decodeFields p fs s) := by
  induction fs generalizing s with
  | nil => exact .refl s
  | cons f fs ih =>
    refine Res.Sat.bind (State.read_quiet f.width s) fun v t ht => State.QuietSat.after ht ?_
    refine State.QuietSat.after ?_ (ih _)
    cases p <;> exact .of_still _ _ _

theorem State.decodeChild_quiet (child : NodeName) (fs : List FieldVal) (s : State) :
    s.QuietSat (State.decodeChild child fs s) :=
  State.QuietSat.after (.of_still s _ s.reply) (State.decodeFields_quiet _ _ _)

/-- A quiet operation as an instruction, outside a run. -/
theorem State.runOp_quiet {α : Type} {op : State → Res State α} {reply : α → State → Reply} {s t : State}
    (hq : s.QuietSat (op s)) (hr : s.run ≠ .running) (h : s.runOp op reply = .next t) : s.Quiet t := by
  unfold State.runOp at h
  split at h
  · cases h
    exact .of_still s s.ft _
  · rcases ho : op s with ⟨a, s'⟩ | ⟨e, s'⟩ | x <;> rw [ho] at h hq
    · cases h
      exact State.Quiet.trans hq (.of_still _ _ _)
    · cases h
      exact State.Quiet.trans hq (.of_still _ _ _)
    · cases h

/-! ### Requests -/

/-- The moves of an agent outside the demux task. -/
inductive State.RequestMove (s : State) : State → Prop where
  /-- An operation of the BitReader or the Field Model outside a run. -/
  | op (t : State) (hr : s.run ≠ .running) (h : s.Quiet t) : s.RequestMove t
  /-- An answer and nothing else. -/
  | answered (r : Reply) : s.RequestMove { s with reply := r }
  /-- START in IDLE (48_host_ops.md R250). -/
  | started (hr : s.run = .idle) : s.RequestMove { State.reset with env := s.env, run := .running, reply := .done }
  /-- RESET (R251). -/
  | reset : s.RequestMove { State.reset with env := s.env, reply := .done }
  /-- CANCEL (R252). -/
  | cancel (level : Bool) : s.RequestMove { s with env := { s.env with cancel := level }, reply := .done }
  /-- The head of EVT removed with its tree (R255). -/
  | popEvt (e : EvtRec) (es : List EvtRec) (h : s.evt = e :: es) :
      s.RequestMove { s with evt := es, tree := s.tree.tail, reply := .event e s.tree.head? }
  /-- The head of ES removed (R255). -/
  | popEs (r : EsRec) (rs : List EsRec) (h : s.es = r :: rs) : s.RequestMove { s with es := rs, reply := .payload r }

/-- Every request is one of these moves. -/
theorem requestStep_inv {i : Instr} {s t : State} (h : requestStep i s = .next t) : s.RequestMove t := by
  unfold requestStep at h
  split at h
  case isFalse =>
    cases h
    exact .answered _
  case isTrue hacc =>
    cases i <;> simp only [State.accepts, decide_eq_true_eq, Bool.and_eq_true, Bool.false_eq_true] at hacc
    case size =>
      cases h
      exact .answered _
    case peek n => exact .op t hacc (State.runOp_quiet (State.peek_quiet n s) hacc h)
    case read n => exact .op t hacc (State.runOp_quiet (State.read_quiet n s) hacc h)
    case readBytes len => exact .op t hacc (State.runOp_quiet (State.readBytes_quiet len s) hacc h)
    case skipBytes n => exact .op t hacc (State.runOp_quiet (State.skip_quiet n s) hacc h)
    case offset =>
      simp only [exec, execOffset] at h
      split at h <;> cases h <;> exact .answered _
    case readAt len pos =>
      simp only [exec, execReadAt] at h
      split at h <;> cases h <;> exact .answered _
    case get name =>
      simp only [exec, execGet] at h
      split at h <;> cases h <;> exact .answered _
    case decode spec =>
      simp only [exec, execDecode] at h
      refine .op t hacc (State.runOp_quiet ?_ hacc h)
      exact State.QuietSat.after (.of_still s _ s.reply) (State.decodeFields_quiet _ _ _)
    case decodeNested spec child =>
      simp only [exec, execDecodeNested] at h
      refine .op t hacc (State.runOp_quiet ?_ hacc h)
      exact State.QuietSat.after (.of_still s _ s.reply) (State.decodeChild_quiet _ _ _)
    case start =>
      simp only [exec, execStart] at h
      split at h <;> cases h
      · exact .started (by assumption)
      · exact .answered _
    case reset =>
      cases h
      exact .reset
    case cancel level =>
      cases h
      exact .cancel level
    case parseDetail offset kind =>
      simp only [exec, execParseDetail] at h
      split at h
      · split at h <;> cases h
        exact .answered _
      · cases h
        exact .answered _
    case summaryRead =>
      cases h
      exact .answered _
    case consumerPop port =>
      cases port
      · simp only [exec, execConsumerPop, State.popEvt] at h
        split at h <;> cases h
        · exact .answered _
        · exact .popEvt _ _ (by assumption)
      · simp only [exec, execConsumerPop, State.popEs] at h
        split at h <;> cases h
        · exact .answered _
        · exact .popEs _ _ (by assumption)

/-! ### One step -/

/-- The agenda with its first entry taken. -/
def State.withTurns (s : State) (ts : List Turn) : State := { s with env := { s.env with turns := ts } }

@[simp] theorem State.withTurns_self (s : State) : s.withTurns s.env.turns = s := rfl

/-- Who moves in a step (log entry 6). -/
theorem step_inv {s t : State} (h : step s = .next t) :
    ∃ ts, taskStep (s.withTurns ts) = .next t ∨ ∃ i, requestStep i (s.withTurns ts) = .next t := by
  unfold step at h
  split at h
  · rename_i hts
    exact ⟨[], .inl (by rw [← hts]; exact h)⟩
  · exact ⟨_, .inl h⟩
  · exact ⟨_, .inr ⟨_, h⟩⟩

end Sys2Proof.Machine
end

