-- ==== Sys2Proof/Tests/Slice0.lean ====
section
/-! SUPPORT. The writer's own tests. Expected results come from spec/95_test_vectors.md (the vector is named) or are worked
out by hand from the tables of 30_encoding.md. After the decode tests and the tests of single steps come the witnesses: for
each statement with hypotheses, a concrete state and operands that meet them together. -/

namespace Sys2Proof.Tests

open Sys2Proof.Machine
set_option maxRecDepth 4000

/-! ### Well-formedness: an ill-formed term for each check -/

theorem test_illformed_peek_0 : Instr.wellFormed (.peek 0) = false := by decide
theorem test_illformed_peek_65 : Instr.wellFormed (.peek 65) = false := by decide
theorem test_illformed_read_0 : Instr.wellFormed (.read 0) = false := by decide
theorem test_illformed_read_65 : Instr.wellFormed (.read 65) = false := by decide
theorem test_illformed_stream_id : Instr.wellFormed (.sysStream ⟨0x7F, 3, 1, 0⟩) = false := by decide
theorem test_illformed_decode_width : Instr.wellFormed (.decode [(.user 0, 1), (.user 1, 0)]) = false := by decide
theorem test_illformed_decode_wide : Instr.wellFormed (.decode [(.user 0, 65)]) = false := by decide
theorem test_illformed_decode_names : Instr.wellFormed (.decode [(.user 0, 1), (.user 0, 2)]) = false := by decide
theorem test_illformed_nested_width : Instr.wellFormed (.decodeNested [(.user 0, 0)] .stream) = false := by decide
theorem test_wellformed_limits :
    (Instr.wellFormed (.peek 1) && Instr.wellFormed (.read 64) && Instr.wellFormed (.sysStream ⟨0x80, 0, 0, 1⟩) &&
      Instr.wellFormed (.decode [(.user 0, 1), (.user 1, 64)])) = true := by decide

/-! ### Decoding: words written out from the tables of 30_encoding.md -/

/-- R70. -/
theorem test_decode_pack : decode .startCode [0x00, 0x00, 0x01, 0xBA] = .ok (.pack, []) := by decide
theorem test_decode_sys : decode .startCode [0x00, 0x00, 0x01, 0xBB] = .ok (.sys, []) := by decide
theorem test_decode_psm : decode .startCode [0x00, 0x00, 0x01, 0xBC] = .ok (.psm, []) := by decide
theorem test_decode_vpes : decode .startCode [0x00, 0x00, 0x01, 0xE0] = .ok (.vpes, []) := by decide
theorem test_decode_apes : decode .startCode [0x00, 0x00, 0x01, 0xC0, 0x80] = .ok (.apes, [0x80]) := by decide
/-- V-LOOP-3: a start code that is not recognised; R70: a stream number other than E0 is none either. -/
theorem test_decode_unknown : decode .startCode [0x00, 0x00, 0x01, 0xB9] = .error (.unknownStartCode 0x1B9) := by decide
theorem test_decode_unknown_e1 : decode .startCode [0x00, 0x00, 0x01, 0xE1] = .error (.unknownStartCode 0x1E1) := by
  decide
theorem test_decode_truncated : decode (.record .psmCrc) [0xDE, 0xAD, 0xBE] = .error (.truncated (.record .psmCrc)) := by
  decide
/-- V-PACK-2; its bytes give a `program_mux_rate` of 0x3FFFF by R72, not the 0x3FFFFF the vector's text says (log entry
27). -/
theorem test_decode_packBody :
    decode (.record .packBody) [0x66, 0x34, 0x57, 0x3C, 0x4E, 0xAB, 0x0F, 0xFF, 0xFF, 0xFA] =
      .ok (.packBody ⟨1, 4, 1, 0x468A, 1, 0x6789, 1, 0x155, 1, 0x3FFFF, 1, 1, 31, 2⟩, []) := by decide
/-- V-SYS-1. -/
theorem test_decode_sysFixed : decode (.record .sysFixed) [0x00, 0x0C, 0x81, 0x86, 0xA1, 0x04, 0xE1, 0x7F] =
    .ok (.sysFixed ⟨12, 1, 0xC350, 1, 1, 0, 0, 1, 1, 1, 1, 0, 0x7F⟩, []) := by decide
theorem test_decode_sysStream : decode (.record .sysStream) [0xE0, 0xE4, 0x00] = .ok (.sysStream ⟨0xE0, 3, 1, 0x400⟩, []) := by
  decide
/-- V-PSM-2. -/
theorem test_decode_psmFixed : decode (.record .psmFixed) [0x00, 0x20, 0xE5, 0xFF, 0x00, 0x03] =
    .ok (.psmFixed ⟨32, 1, 3, 5, 0x7F, 1, 3⟩, []) := by decide
theorem test_decode_psmEsmLength : decode (.record .psmEsmLength) [0x00, 0x13] = .ok (.psmEsmLength ⟨19⟩, []) := by decide
theorem test_decode_psmEntry : decode (.record .psmEntry) [0x1B, 0xE0, 0x00, 0x02] = .ok (.psmEntry ⟨0x1B, 0xE0, 2⟩, []) := by
  decide
theorem test_decode_psmCrc : decode (.record .psmCrc) [0x01, 0x02, 0x03, 0x04] = .ok (.psmCrc ⟨0x01020304⟩, []) := by decide
/-- V-PES-H4. -/
theorem test_decode_pesBase : decode (.record .pesBase) [0x00, 0x3C, 0x80, 0xFF, 0x34] =
    .ok (.pesBase ⟨60, 2, 0, 0, 0, 0, 0, 3, 1, 1, 1, 1, 1, 1, 52⟩, []) := by decide
/-- By hand from R79: 10 01 1 0 1 0 and 01 1 0 1 0 1 0. -/
theorem test_decode_pesBase_bits : decode (.record .pesBase) [0x12, 0x34, 0x9A, 0x6A, 0x01] =
    .ok (.pesBase ⟨0x1234, 2, 1, 1, 0, 1, 0, 1, 1, 0, 1, 0, 1, 0, 1⟩, []) := by decide
/-- P3. -/
theorem test_decode_pesPts : decode (.record .pesPts) [0x21, 0x00, 0x01, 0x17, 0x77] =
    .ok (.pesPts ⟨2, 0, 1, 0, 1, 0xBBB, 1⟩, []) := by decide
/-- V-PES-H3. -/
theorem test_decode_pesPtsDts :
    decode (.record .pesPtsDts) [0x3F, 0xFF, 0xFF, 0xFF, 0xFF, 0x19, 0x8D, 0x15, 0xCF, 0x13] =
      .ok (.pesPtsDts ⟨3, 7, 1, 0x7FFF, 1, 0x7FFF, 1, 1, 4, 1, 0x468A, 1, 0x6789, 1⟩, []) := by decide
/-- V-PES-H4. -/
theorem test_decode_pesEscr : decode (.record .pesEscr) [0xEC, 0x91, 0xA6, 0xB3, 0xC5, 0x57] =
    .ok (.pesEscr ⟨3, 5, 1, 0x1234, 1, 0x5678, 1, 0xAB, 1⟩, []) := by decide
theorem test_decode_pesEsRate : decode (.record .pesEsRate) [0xD5, 0x79, 0xBD] = .ok (.pesEsRate ⟨1, 0x2ABCDE, 1⟩, []) := by
  decide
/-- V-PES-T; selector 6 by hand from R84. -/
theorem test_decode_pesTrick0 : decode (.record .pesTrick) [0x17] = .ok (.pesTrick0 ⟨2, 1, 3⟩, []) := by decide
theorem test_decode_pesTrick1 : decode (.record .pesTrick) [0x35] = .ok (.pesTrick1 ⟨0x15⟩, []) := by decide
theorem test_decode_pesTrick2 : decode (.record .pesTrick) [0x4D] = .ok (.pesTrick2 ⟨1, 5⟩, []) := by decide
theorem test_decode_pesTrick3 : decode (.record .pesTrick) [0x7A] = .ok (.pesTrick3 ⟨3, 0, 2⟩, []) := by decide
theorem test_decode_pesTrick4 : decode (.record .pesTrick) [0x95] = .ok (.pesTrick4 ⟨0x15⟩, []) := by decide
theorem test_decode_pesTrick5 : decode (.record .pesTrick) [0xBF] = .ok (.pesTrick5 ⟨0x1F⟩, []) := by decide
theorem test_decode_pesTrick6 : decode (.record .pesTrick) [0xC5] = .ok (.pesTrick6 ⟨5⟩, []) := by decide
theorem test_decode_pesTrick7 : decode (.record .pesTrick) [0xE0] = .ok (.pesTrick7 ⟨0⟩, []) := by decide
theorem test_decode_pesCopyInfo : decode (.record .pesCopyInfo) [0xD5] = .ok (.pesCopyInfo ⟨1, 0x55⟩, []) := by decide
theorem test_decode_pesCrc : decode (.record .pesCrc) [0xBE, 0xEF] = .ok (.pesCrc ⟨0xBEEF⟩, []) := by decide
/-- By hand from R87: 1 0 1 0 010 1. -/
theorem test_decode_pesExtFlags : decode (.record .pesExtFlags) [0xA5] = .ok (.pesExtFlags ⟨1, 0, 1, 0, 2, 1⟩, []) := by decide
theorem test_decode_pesPrivateData : decode (.record .pesPrivateData)
    [0x10, 0x11, 0x12, 0x13, 0x14, 0x15, 0x16, 0x17, 0x18, 0x19, 0x1A, 0x1B, 0x1C, 0x1D, 0x1E, 0x1F] =
      .ok (.pesPrivateData ⟨0x101112131415161718191A1B1C1D1E1F⟩, []) := by decide
theorem test_decode_pesPackField : decode (.record .pesPackField) [0x03] = .ok (.pesPackField ⟨3⟩, []) := by decide
theorem test_decode_pesSeqCounter : decode (.record .pesSeqCounter) [0xAA, 0xD1] =
    .ok (.pesSeqCounter ⟨1, 0x2A, 1, 1, 0x11⟩, []) := by decide
theorem test_decode_pesPStd : decode (.record .pesPStd) [0x61, 0x23] = .ok (.pesPStd ⟨1, 1, 0x123⟩, []) := by decide
theorem test_decode_pesExt2 : decode (.record .pesExt2) [0x82] = .ok (.pesExt2 ⟨1, 2⟩, []) := by decide

/-- The table's numbering: a start code and a trick-mode byte (spec/opcode_table.json). -/
theorem test_table_words : decodeTableWord 32 0x000001E0 = some .vpes ∧ decodeTableWord 32 0x000001E1 = none ∧
    decodeTableWord 8 0x4D = some (.pesTrick2 ⟨1, 5⟩) ∧ decodeTableWord 12 0 = none := by decide

/-! ### Small states -/

/-- An idle machine over a source, its cursor at a byte, queues of two records. -/
def idle (bs : List Byte) (a : Nat) : State :=
  { State.reset with
    env := { src := Memory.ofBytes bs, cancel := false, qdepthLess1 := 1, esDepthLess1 := 1, turns := [] }
    rd := Reader.atByte a }

/-- `idle` with a packet's tree in place. -/
def idleTree (bs : List Byte) (a : Nat) : State := { idle bs a with ft := some ⟨.kind .systemHeader, 0x1BB, []⟩ }

/-- A run standing inside a packet of kind `k` that began at byte 0, before `d`, with fields decoded. -/
def inPacket (bs : List Byte) (a : Nat) (k : PacketKind) (d : Due) (fs : List FieldVal) : State :=
  { idle bs a with
    run := .running
    pkt := ⟨0, k, .ok, codeOfKind k⟩
    ft := some ((Tree.ofKind k (codeOfKind k)).withFields fs)
    work := { Work.none with due := d } }

/-- A run at the loop top. -/
def atTop (bs : List Byte) (a : Nat) : State := { idle bs a with run := .running }

/-- Whether an outcome is a next state of which something holds. -/
def ends (o : Host.Outcome State Fault Refusal) (p : State → Bool) : Bool :=
  match o with
  | .next s => p s
  | .fault _ => false
  | .refused _ => false

/-- Whether an outcome is a refusal for a reason. -/
def stops (o : Host.Outcome State Fault Refusal) (r : Refusal) : Bool :=
  match o with
  | .next _ => false
  | .fault _ => false
  | .refused x => decide (x = r)

/-- The value of a field register. -/
def val (s : State) (f : FieldName) : Option Nat := s.ft.bind fun t => t.fieldOf f

/-- The source of V-BR-1. -/
def br1 : List Byte := [0xA5, 0x3C, 0xF0, 0x0F, 0x12, 0x34, 0x56, 0x78, 0x9A, 0xBC]

/-- A pack header (P0 of the vectors). -/
def p0 : List Byte := [0x00, 0x00, 0x01, 0xBA, 0x44, 0x00, 0x04, 0x00, 0x04, 0x01, 0x00, 0x00, 0x03, 0xF8]

/-- V-PACK-2. -/
def pack2 : List Byte :=
  [0x00, 0x00, 0x01, 0xBA, 0x66, 0x34, 0x57, 0x3C, 0x4E, 0xAB, 0x0F, 0xFF, 0xFF, 0xFA, 0xFF, 0xFF]

/-- V-SYS-1 without its pack header: the last record is followed by one byte 0x00. -/
def sys1 : List Byte :=
  [0x00, 0x00, 0x01, 0xBB, 0x00, 0x0C, 0x81, 0x86, 0xA1, 0x04, 0xE1, 0x7F, 0xE0, 0xE4, 0x00, 0xC0, 0xC0, 0x20, 0x00]

/-- V-PSM-1. -/
def psm1 : List Byte :=
  [0x00, 0x00, 0x01, 0xBC, 0x00, 0x12, 0xE1, 0xFF, 0x00, 0x00, 0x00, 0x08, 0x1B, 0xE0, 0x00, 0x00, 0x90, 0xC0, 0x00,
   0x00, 0xDE, 0xAD, 0xBE, 0xEF]

/-- V-PES-1. -/
def pes1 : List Byte :=
  [0x00, 0x00, 0x01, 0xE0, 0x00, 0x0D, 0x80, 0x80, 0x05, 0x21, 0x00, 0x01, 0x00, 0x01, 0x00, 0x00, 0x00, 0x01, 0x65] ++ p0

/-- The base record of V-PES-1, and one whose flags are all set. -/
def base1 : PesBase := ⟨13, 2, 0, 0, 0, 0, 0, 2, 0, 0, 0, 0, 0, 0, 5⟩
def baseAll : PesBase := ⟨60, 2, 0, 0, 0, 0, 0, 3, 1, 1, 1, 1, 1, 1, 52⟩
def extAll : PesExtFlags := ⟨1, 1, 1, 1, 7, 1⟩

/-- Twenty bytes 0xFF, a body for any conditional record. -/
def ffs : List Byte := List.replicate 20 0xFF

/-- Before a conditional record with every flag set. -/
def gated (r : Rec) : State := inPacket ffs 0 .videoPES (.record r) (fieldsOfPesBase baseAll ++ fieldsOfPesExtFlags extAll)


/-! ### The start codes and the loop -/

/-- V-PES-1, first step: the counter and the packet registers (42_demux_loop.md R144, 46_pes_header.md R200). -/
theorem test_vpes : ends (exec .vpes (atTop pes1 0)) (fun t => decide (t.rd.bitpos = 32 ∧ t.cnt.totalVideoFrameCnt = 1 ∧
    t.cnt.totalAudioFrameCnt = 0 ∧ t.pkt = ⟨0, .videoPES, .ok, 0x1E0⟩ ∧ t.work.due = .record .pesBase)) = true := by decide
theorem test_apes : ends (exec .apes (atTop pes1 0)) (fun t => decide (t.cnt.totalVideoFrameCnt = 0 ∧
    t.cnt.totalAudioFrameCnt = 1 ∧ t.pkt.kind = .audioPES)) = true := by decide
theorem test_psm : ends (exec .psm (atTop psm1 0)) (fun t => decide (t.cnt.psmCnt = 1 ∧ t.cnt.pktCnt = 0 ∧
    t.pkt.startCode = 0x1BC ∧ t.work.due = .record .psmFixed)) = true := by decide
theorem test_sys : ends (exec .sys (atTop sys1 0)) (fun t => decide (t.pkt.kind = .systemHeader ∧
    t.ft = some ⟨.kind .systemHeader, 0x1BB, []⟩)) = true := by decide
/-- V-LOOP-6: the second packet's start code is cut short. -/
theorem test_pack_short : ends (step (atTop (p0 ++ [0, 0]) 14)) (fun t => decide (t.run = .aborted ∧
    t.err = ⟨2, 14, 0⟩ ∧ t.rd.bitpos = 112 ∧ t.evtLog = [])) = true := by decide
/-- V-LOOP-4: 0x47400011 is no start code; the four bytes are consumed. -/
theorem test_unknown : ends (step (atTop [0x47, 0x40, 0x00, 0x11] 0)) (fun t => decide (t.run = .aborted ∧
    t.err = ⟨3, 0, 0x47400011⟩ ∧ t.rd.bitpos = 32)) = true := by decide
/-- V-HOST-1: with SIZE 0 and CANCEL high the run is cancelled, not done. -/
theorem test_cancel_first : ends (step { atTop [] 0 with env := { (atTop [] 0).env with cancel := true } })
    (fun t => decide (t.run = .cancelled)) = true := by decide

/-! ### Records -/

/-- V-PACK-2: two stuffing bytes skipped, no event. -/
theorem test_packBody : ends (step (inPacket pack2 4 .packHeader (.record .packBody) [])) (fun t =>
    decide (t.rd.bitpos = 128 ∧ t.evtLog = [] ∧ t.run = .running ∧ t.work.due = .top ∧ t.cnt.pktCnt = 0)) = true := by decide
/-- V-SYS-1: the bit after the fixed record is 1. -/
theorem test_sysFixed : ends (step (inPacket sys1 4 .systemHeader (.record .sysFixed) [])) (fun t =>
    decide (t.rd.bitpos = 96 ∧ t.work.due = .record .sysStream ∧ val t .rate_bound = some 0xC350)) = true := by decide
/-- V-SYS-1: the bit after the second stream record is 0, so the packet ends with its event. -/
theorem test_sysStream_last : ends (step (inPacket sys1 15 .systemHeader (.record .sysStream) [])) (fun t =>
    decide (t.evtLog = [⟨0, .systemHeader, .ok⟩] ∧ t.cnt.pktCnt = 1 ∧ t.ft = none)) = true := by decide
/-- V-PSM-2's fixed record with its three descriptor bytes: `psmMark` is 6. -/
theorem test_psmFixed : ends (exec (.psmFixed ⟨32, 1, 3, 5, 0x7F, 1, 3⟩)
    (inPacket psm1 4 .programStreamMap (.record .psmFixed) [])) (fun t =>
      decide (t.rd.bitpos = 104 ∧ t.work.psmMark = 6 ∧ t.work.due = .record .psmEsmLength)) = true := by decide
/-- V-PSM-5: an empty map goes on to its CRC. -/
theorem test_psmEsmLength : ends (exec (.psmEsmLength ⟨0⟩)
    { inPacket psm1 10 .programStreamMap (.record .psmEsmLength) (fieldsOfPsmFixed ⟨10, 1, 3, 1, 0x7F, 1, 0⟩) with
      work := { Work.none with due := .record .psmEsmLength, psmMark := 6 } }) (fun t =>
        decide (t.work.due = .record .psmCrc)) = true := by decide
/-- Before an entry of V-PSM-1. -/
def atEntry (a esm len : Nat) : State :=
  { inPacket psm1 a .programStreamMap (.record .psmEntry) (fieldsOfPsmFixed ⟨BitVec.ofNat 16 len, 1, 3, 1, 0x7F, 1, 0⟩) with
    work := { Work.none with due := .record .psmEntry, psmMark := 6, esmRemaining := esm } }
/-- V-PSM-1: the last entry writes the audio register; 18 - 14 = 4. -/
theorem test_psmEntry : ends (step (atEntry 16 4 18)) (fun t => decide (t.audioStreamType = 0x90 ∧
    t.videoStreamType = 0 ∧ t.work.esmRemaining = 0 ∧ t.work.due = .record .psmCrc)) = true := by decide
/-- V-PSM-3: 4 + 5 > 6; the entry is recorded, no stream type is written. -/
theorem test_psmEntry_check : ends (exec (.psmEntry ⟨0x1B, 0xE0, 5⟩) (atEntry 12 6 19)) (fun t => decide (
    t.run = .aborted ∧ t.err = ⟨4, 0, 0x1BC⟩ ∧ t.videoStreamType = 0 ∧ t.rd.bitpos = 128 ∧
      t.evtLog = [⟨0, .programStreamMap, .error⟩])) = true := by decide
/-- V-PSM-1: the CRC is recorded and the event pushed. -/
theorem test_psmCrc : ends (step (inPacket psm1 20 .programStreamMap (.record .psmCrc) [])) (fun t =>
    decide (t.rd.bitpos = 192 ∧ t.evt = [⟨0, .programStreamMap, .ok⟩] ∧ t.run = .running)) = true := by decide
/-- V-PES-1. -/
theorem test_pesBase : ends (step (inPacket pes1 4 .videoPES (.record .pesBase) [])) (fun t =>
    decide (t.work.hdrMark = 9 ∧ t.work.due = .record .pesPts ∧ val t .PES_packet_length = some 13)) = true := by decide
/-- V-PES-H2: `PTS_DTS_flags` = 1 asks for no record. -/
theorem test_pesBase_flags1 : ends (exec (.pesBase ⟨8, 2, 0, 0, 0, 0, 0, 1, 0, 0, 0, 0, 0, 0, 0⟩)
    (inPacket pes1 4 .videoPES (.record .pesBase) [])) (fun t => decide (t.work.due = .stuffing)) = true := by decide
theorem test_pesPts : ends (step (inPacket pes1 9 .videoPES (.record .pesPts) (fieldsOfPesBase base1))) (fun t =>
    decide (t.rd.bitpos = 112 ∧ t.work.due = .stuffing ∧ val t .fixed_0010 = some 2)) = true := by decide
/-- The order of 30_encoding.md R95 with every flag set (V-PES-H4), and what each record consumes. -/
theorem test_pesPtsDts : ends (step (gated .pesPtsDts)) (fun t =>
    decide (t.rd.bitpos = 80 ∧ t.work.due = .record .pesEscr)) = true := by decide
theorem test_pesEscr : ends (step (gated .pesEscr)) (fun t =>
    decide (t.rd.bitpos = 48 ∧ t.work.due = .record .pesEsRate)) = true := by decide
theorem test_pesEsRate : ends (step (gated .pesEsRate)) (fun t =>
    decide (t.rd.bitpos = 24 ∧ t.work.due = .record .pesTrick)) = true := by decide
theorem test_pesTrick0 : ends (exec (.pesTrick0 ⟨2, 1, 3⟩) (gated .pesTrick)) (fun t =>
    decide (t.work.due = .record .pesCopyInfo ∧ val t .field_id = some 2 ∧ val t .frequency_truncation = some 3)) = true := by
  decide
theorem test_pesTrick1 : ends (exec (.pesTrick1 ⟨0x15⟩) (gated .pesTrick)) (fun t =>
    decide (val t .trick_mode_control = some 1 ∧ val t .rep_cntrl = some 0x15)) = true := by decide
theorem test_pesTrick2 : ends (exec (.pesTrick2 ⟨1, 5⟩) (gated .pesTrick)) (fun t =>
    decide (val t .trick_mode_control = some 2 ∧ val t .trick_reserved = some 5)) = true := by decide
theorem test_pesTrick3 : ends (exec (.pesTrick3 ⟨3, 0, 2⟩) (gated .pesTrick)) (fun t =>
    decide (val t .trick_mode_control = some 3 ∧ val t .intra_slice_refresh = some 0)) = true := by decide
theorem test_pesTrick4 : ends (exec (.pesTrick4 ⟨0x15⟩) (gated .pesTrick)) (fun t =>
    decide (val t .trick_mode_control = some 4 ∧ val t .rep_cntrl = some 0x15)) = true := by decide
theorem test_pesTrick5 : ends (exec (.pesTrick5 ⟨0x1F⟩) (gated .pesTrick)) (fun t =>
    decide (val t .trick_mode_control = some 5 ∧ val t .trick_reserved = some 0x1F)) = true := by decide
theorem test_pesTrick6 : ends (exec (.pesTrick6 ⟨5⟩) (gated .pesTrick)) (fun t =>
    decide (val t .trick_mode_control = some 6 ∧ t.rd.bitpos = 8)) = true := by decide
theorem test_pesTrick7 : ends (exec (.pesTrick7 ⟨0⟩) (gated .pesTrick)) (fun t =>
    decide (val t .trick_mode_control = some 7 ∧ val t .trick_reserved = some 0)) = true := by decide
theorem test_pesCopyInfo : ends (step (gated .pesCopyInfo)) (fun t =>
    decide (t.work.due = .record .pesCrc ∧ val t .additional_copy_info = some 0x7F)) = true := by decide
theorem test_pesCrc : ends (step (gated .pesCrc)) (fun t =>
    decide (t.work.due = .record .pesExtFlags ∧ val t .previous_PES_packet_CRC = some 0xFFFF)) = true := by decide
theorem test_pesExtFlags : ends (exec (.pesExtFlags ⟨0, 0, 1, 0, 2, 1⟩)
    (inPacket ffs 0 .videoPES (.record .pesExtFlags) (fieldsOfPesBase baseAll))) (fun t =>
      decide (t.rd.bitpos = 8 ∧ t.work.due = .record .pesSeqCounter)) = true := by decide
theorem test_pesPrivateData : ends (step (gated .pesPrivateData)) (fun t =>
    decide (t.rd.bitpos = 128 ∧ t.work.due = .record .pesPackField ∧ t.ft = (gated .pesPrivateData).ft)) = true := by decide
theorem test_pesPackField : ends (exec (.pesPackField ⟨3⟩) (gated .pesPackField)) (fun t =>
    decide (t.rd.bitpos = 32 ∧ t.work.due = .record .pesSeqCounter ∧ val t .pack_field_length = some 3)) = true := by decide
theorem test_pesSeqCounter : ends (exec (.pesSeqCounter ⟨1, 0x2A, 1, 1, 0x11⟩) (gated .pesSeqCounter)) (fun t =>
    decide (t.work.due = .record .pesPStd ∧ val t .original_stuff_length = some 0x11)) = true := by decide
theorem test_pesPStd : ends (exec (.pesPStd ⟨1, 1, 0x123⟩) (gated .pesPStd)) (fun t =>
    decide (t.work.due = .record .pesExt2 ∧ val t .P_STD_buffer_size = some 0x123)) = true := by decide
theorem test_pesExt2 : ends (exec (.pesExt2 ⟨1, 2⟩) (gated .pesExt2)) (fun t =>
    decide (t.rd.bitpos = 24 ∧ t.work.due = .stuffing)) = true := by decide

/-! ### Stuffing and payload -/

/-- A PES packet at its stuffing, `hdrMark` at byte 9, cursor at byte 14. -/
def atStuffing (declared : BitVec 8) : State :=
  { inPacket pes1 14 .videoPES .stuffing (fieldsOfPesBase { base1 with PES_header_data_length := declared }) with
    work := { Work.none with due := .stuffing, hdrMark := 9 } }
/-- V-PES-H3's difference of 2, and V-PES-D21a's of -5. -/
theorem test_pesStuffing : ends (step (atStuffing 7)) (fun t => decide (t.rd.bitpos = 128 ∧ t.work.due = .payload)) = true := by
  decide
theorem test_pesStuffing_negative : ends (step (atStuffing 0)) (fun t =>
    decide (t.rd.bitpos = 112 ∧ t.work.due = .payload ∧ t.pkt.status = .ok)) = true := by decide
/-- A PES packet of V-PES-1 at its payload, with a packet length. -/
def atPayload (k : PacketKind) (len : BitVec 16) : State :=
  inPacket pes1 14 k .payload (fieldsOfPesBase { base1 with PES_packet_length := len })
/-- V-PES-1: five bytes forwarded, an I-frame. -/
theorem test_pesPayload : ends (step (atPayload .videoPES 13)) (fun t => decide (t.es = [⟨.video, [0, 0, 0, 1, 0x65]⟩] ∧
    t.cnt.iFrameCnt = 1 ∧ t.evtLog = [⟨0, .videoPES, .ok⟩] ∧ t.rd.bitpos = 152)) = true := by decide
/-- V-PES-2: three bytes too large, so the block resynchronises at byte 19 and forwards nothing. -/
theorem test_pesPayload_resync : ends (step (atPayload .videoPES 16)) (fun t => decide (t.esLog = [] ∧
    t.cnt.errVideoFrameCnt = 1 ∧ t.cnt.iFrameCnt = 0 ∧ t.evtLog = [⟨0, .videoPES, .error⟩] ∧ t.rd.bitpos = 152 ∧
      t.run = .running ∧ t.err = ⟨0, 0, 0⟩)) = true := by decide

/-! ### BitReader and Field Model -/

theorem test_size : ends (exec .size (idle br1 0)) (fun t => decide (t.reply = .word 10)) = true := by decide
/-- V-BR-1, step 1, with the registers. -/
theorem test_read : ends (exec (.read 3) (idle br1 0)) (fun t => decide (t.reply = .bits 3 5 ∧
    t.rd = ⟨3, 0x29E7807891A2B3C0, 61, 8⟩)) = true := by decide
/-- V-BR-2 (a). -/
theorem test_peek : ends (exec (.peek 64) (idle [0x01, 0x23, 0x45, 0x67, 0x89, 0xAB, 0xCD, 0xEF, 0xFF] 0)) (fun t =>
    decide (t.reply = .bits 64 0x0123456789ABCDEF ∧ t.rd.bitpos = 0)) = true := by decide
/-- V-BR-2 (c): a request the window cannot hold. -/
theorem test_peek_window : stops (exec (.peek 64) { idle br1 0 with rd := ⟨1, 0, 0, 0⟩ }) .windowLimit = true := by decide
/-- V-BR-5. -/
theorem test_readBytes : ends (exec (.readBytes 4) (idle br1 1)) (fun t =>
    decide (t.reply = .bytes [0x3C, 0xF0, 0x0F, 0x12] ∧ t.rd.bitpos = 40)) = true := by decide
theorem test_offset : ends (exec .offset (idle br1 8)) (fun t => decide (t.reply = .word 8)) = true := by decide
/-- V-BR-7. -/
theorem test_offset_unaligned : stops (exec .offset { idle br1 0 with rd := ⟨3, 0, 61, 8⟩ }) .unalignedOffset = true := by
  decide
/-- V-BR-6. -/
theorem test_readAt : ends (exec (.readAt 4 6) (idle br1 3)) (fun t =>
    decide (t.reply = .bytes [0x56, 0x78, 0x9A, 0xBC] ∧ t.rd = (idle br1 3).rd)) = true := by decide
theorem test_readAt_short : ends (exec (.readAt 4 7) (idle br1 3)) (fun t => decide (t.reply = .shortRead)) = true := by decide
/-- V-FM-2: a and b stay, c fails. -/
theorem test_decode_part : ends (exec (.decode [(.user 0, 1), (.user 1, 6), (.user 2, 2)]) (idle [0x81] 0)) (fun t =>
    decide (t.reply = .raised .unexpectedEndOfData ∧ t.rd.bitpos = 7 ∧
      t.ft = some ⟨.standalone, 0, [⟨.user 0, 1, []⟩, ⟨.user 1, 0, []⟩]⟩)) = true := by decide
/-- V-FM-4. -/
theorem test_decodeNested : ends (exec (.decodeNested [(.field .stream_id, 8), (.field .fixed_11, 2),
    (.field .P_STD_buffer_bound_scale, 1), (.field .P_STD_buffer_size_bound, 13)] .stream) (idle [0xE0, 0xE4, 0x00] 0))
      (fun t => decide (t.rd.bitpos = 24 ∧ t.reply = .node ⟨.stream, 0, [⟨.field .stream_id, 0xE0⟩, ⟨.field .fixed_11, 3⟩,
        ⟨.field .P_STD_buffer_bound_scale, 1⟩, ⟨.field .P_STD_buffer_size_bound, 0x400⟩]⟩)) = true := by decide
/-- V-FM-3. -/
theorem test_get : ends (exec (.get (.field .rate_bound))
    (inPacket sys1 12 .systemHeader .top (fieldsOfSysFixed ⟨12, 1, 0xC350, 1, 1, 0, 0, 1, 1, 1, 1, 0, 0x7F⟩)))
      (fun t => decide (t.reply = .word 0xC350)) = true := by decide
theorem test_get_absent : stops (exec (.get (.user 0)) (gated .pesEscr)) .absentName = true := by decide
/-- V-FM-5. -/
theorem test_skipBytes : ends (exec (.skipBytes 2) (idle (List.replicate 16 0) 14)) (fun t =>
    decide (t.rd.bitpos = 128 ∧ t.reply = .done)) = true := by decide
theorem test_skipBytes_past : ends (exec (.skipBytes 3) (idle (List.replicate 16 0) 14)) (fun t =>
    decide (t.rd.bitpos = 112 ∧ t.reply = .raised .unexpectedEndOfData)) = true := by decide

/-! ### The host and the consumer -/

theorem test_start : ends (exec .start (idle br1 5)) (fun t => decide (t.run = .running ∧ t.rd.bitpos = 0)) = true := by decide
theorem test_start_twice : ends (exec .start (atTop br1 5)) (fun t =>
    decide (t.rd.bitpos = 40 ∧ t.reply = .notAccepted)) = true := by decide
theorem test_reset : ends (exec .reset (gated .pesEscr)) (fun t =>
    decide (t.run = .idle ∧ t.ft = none ∧ t.rd.bitpos = 0 ∧ t.env.src = (gated .pesEscr).env.src)) = true := by decide
theorem test_cancel : ends (exec (.cancel true) (gated .pesEscr)) (fun t =>
    decide (t.env.cancel = true ∧ t.run = .running)) = true := by decide
/-- V-HOST-4: `ParseDetail` at a packet of another kind, and of a packet whose payload does not end at a start code. -/
theorem test_parseDetail : ends (exec (.parseDetail 0 .videoPES) { idle p0 0 with run := .done }) (fun t =>
    decide (t.reply = .detail none (some .unknownStartCode))) = true := by decide
theorem test_parseDetail_resync : ends (exec (.parseDetail 0 .audioPES)
    { idle [0x00, 0x00, 0x01, 0xC0, 0x00, 0x05, 0x80, 0x00, 0x00, 0x11, 0x22] 0 with run := .aborted }) (fun t =>
      (match t.reply with | .detail (some u) e => decide (u.fieldOf .PES_packet_length = some 5 ∧
        e = some .payloadLengthInvalid ∧ t.cnt.totalAudioFrameCnt = 0) | _ => false)) = true := by decide
theorem test_summaryRead : ends (exec .summaryRead (gated .pesEscr)) (fun t =>
    decide (t.reply = .summary ⟨.running, ⟨0, 0, 0⟩, ⟨0, 0, 0, 0, 0, 0, 0, 0⟩, 0, 0⟩)) = true := by decide
/-- A machine with one event and its tree. -/
def oneEvent : State := { idle [] 0 with run := .done, evt := [⟨7, .videoPES, .ok⟩], tree := [⟨.kind .videoPES, 0x1E0, []⟩] }
theorem test_consumerPop : ends (exec (.consumerPop .evt) oneEvent) (fun t => decide (t.evt = [] ∧ t.tree = [] ∧
    t.reply = .event ⟨7, .videoPES, .ok⟩ (some ⟨.kind .videoPES, 0x1E0, []⟩))) = true := by decide
theorem test_consumerPop_empty : ends (exec (.consumerPop .es) oneEvent) (fun t =>
    decide (t.reply = .empty ∧ t.evt.length = 1)) = true := by decide

/-- The first instruction after reset that a table row's word gives (log entry 17). -/
theorem test_fetch_word : ends (step (State.reset.withFetchWord 32 0x1BC)) (fun t =>
    decide (t.pkt.kind = .programStreamMap ∧ t.cnt.psmCnt = 1)) = true := by decide

/-! ### Witnesses: encoding and the step -/

theorem witness_DecodeOfEncode : (Instr.pesTrick2 ⟨1, 5⟩).ctx = some (.record .pesTrick) ∧
    Instr.apes.ctx = some .startCode := by decide
theorem witness_EncodeOfDecode : decode .startCode [0, 0, 1, 0xC0, 9] = .ok (.apes, [9]) ∧
    decode (.record .pesTrick) [0x4D, 9] = .ok (.pesTrick2 ⟨1, 5⟩, [9]) := by decide
/-- A record that ends where the source ends. -/
theorem witness_FieldModelRoundTrip : (Instr.sysStream ⟨0xC0, 3, 0, 0x20⟩).ctx = some (.record .sysStream) ∧
    (idleTree sys1 15).run.halted = false ∧ (idleTree sys1 15).rd.bitpos % 8 = 0 ∧
    (idleTree sys1 15).ft = some ⟨.kind .systemHeader, 0x1BB, []⟩ ∧
    (idleTree sys1 15).rd.bitpos + Rec.sysStream.width ≤ 8 * (idleTree sys1 15).env.src.sizeN ∧
    (idleTree sys1 15).env.src.bits (idleTree sys1 15).rd.bitpos Rec.sysStream.width =
      (Instr.sysStream ⟨0xC0, 3, 0, 0x20⟩).word := by
  decide
theorem witness_StepRunsDecoded_startCode : (atTop p0 0).env.turns = [] ∧ (atTop p0 0).run = .running ∧
    (atTop p0 0).work.due = .top ∧ (atTop p0 0).env.cancel = false ∧ (atTop p0 0).rd.bitpos % 8 = 0 ∧
    (atTop p0 0).rd.bitpos / 8 ≠ (atTop p0 0).env.src.sizeN ∧
    decode .startCode ((atTop p0 0).env.src.read ((atTop p0 0).rd.bitpos / 8) 4) = .ok (.pack, []) := by decide
theorem witness_StepRunsDecoded_record : (gated .pesCrc).env.turns = [] ∧ (gated .pesCrc).run = .running ∧
    (gated .pesCrc).work.due = .record .pesCrc ∧ (gated .pesCrc).rd.bitpos % 8 = 0 ∧
    decode (.record .pesCrc) ((gated .pesCrc).env.src.read ((gated .pesCrc).rd.bitpos / 8) (Rec.pesCrc.width / 8)) =
      .ok (.pesCrc ⟨0xFFFF⟩, []) := by decide
theorem witness_StepRunsDecoded_rest : (atStuffing 7).work.due = .stuffing ∧ (atStuffing 7).env.turns = [] ∧
    (atStuffing 7).run = .running ∧ (atPayload .videoPES 13).work.due = .payload ∧
    (atPayload .videoPES 13).env.turns = [] ∧ (atPayload .videoPES 13).run = .running := by decide
/-- A run aborted with its cursor at a byte. -/
def aborted (a : Nat) : State := { idle br1 a with run := .aborted, err := ⟨2, 0, 0x1E0⟩ }
/-- The machine with a request next on the agenda. -/
def asked (s : State) (i : Instr) : State := { s with env := { s.env with turns := [.request i] } }
theorem witness_StepServesRequests : (asked (idle br1 0) (.peek 1)).env.turns = .request (.peek 1) :: [] ∧
    (asked (idle br1 0) (.peek 1)).accepts (.peek 1) = true ∧ (asked (atTop br1 0) (.peek 1)).accepts (.peek 1) = false ∧
    (asked (idle br1 0) .pack).accepts .pack = false ∧ Instr.pack.ctx ≠ none ∧
    (asked (atTop br1 0) .reset).run = .running ∧ (asked (atTop br1 0) .reset).accepts .reset = true ∧
    (asked (idle br1 0) .size).run ≠ .running ∧ Instr.size.ctx = none := by decide
/-- After an abort two cursors give a request for the offset one answer (60_exceptions.md R267). -/
theorem witness_StepServesRequests_aborted : (asked (aborted 2) .offset).run = .aborted ∧
    ends (step (asked (aborted 2) .offset)) (fun t => decide (t.reply = .notAccepted ∧ t.rd.bitpos = 16)) = true ∧
    ends (step (asked (aborted 3) .offset)) (fun t => decide (t.reply = .notAccepted ∧ t.rd.bitpos = 24)) = true ∧
    (asked (aborted 2) .size).accepts .size = true := by decide

/-! ### Witnesses: the BitReader -/

theorem witness_SplitReads : (8 : Nat) ≤ 8 ∧ (0 : Nat) ≤ 8 ∧ (Memory.ofBytes br1).bits 0 (8 - 8 + 8) = 0xA5 ∧
    (Memory.ofBytes br1).bits 4 (8 - 4 + 0) = 5 := by decide
/-- The idle machine of V-BR-1 after its first step, at bit 3. -/
def br1at3 : State := { idle br1 0 with rd := ⟨3, 0x29E7807891A2B3C0, 61, 8⟩ }
theorem br1at3_coherent : br1at3.rd.Coherent br1at3.env.src := by
  unfold Reader.Coherent
  decide
/-- A request of 65 bits, one of 62 at bit 3, one bit past the end, and the last 57 bits, at 23 of 80. -/
theorem witness_PeekRule : (64 < 65 ∧ br1at3.run = .idle) ∧
    (62 ≤ 64 ∧ 64 < 62 + br1at3.rd.bitpos % 8 ∧ br1at3.run.halted = false) ∧
    (1 + (idle br1 10).rd.bitpos % 8 ≤ 64 ∧ 8 * (idle br1 10).env.src.sizeN < (idle br1 10).rd.bitpos + 1 ∧
      (idle br1 10).run = .idle) ∧
    (61 + br1at3.rd.bitpos % 8 ≤ 64 ∧ br1at3.rd.bitpos + 61 ≤ 8 * br1at3.env.src.sizeN ∧ 61 ≤ br1at3.rd.remaining.toNat) ∧
    (64 + (idle br1 2).rd.bitpos % 8 ≤ 64 ∧ (idle br1 2).rd.bitpos + 64 ≤ 8 * (idle br1 2).env.src.sizeN ∧
      (idle br1 2).run.halted = false) := by decide
theorem witness_ReadRule : (1 ≤ 64 ∧ 64 + (idle br1 2).rd.bitpos % 8 ≤ 64 ∧
      (idle br1 2).rd.bitpos + 64 ≤ 8 * (idle br1 2).env.src.sizeN ∧ (idle br1 2).run.halted = false) ∧
    ends (exec (.peek 3) (idle br1 0)) (fun t => decide (t.reply = .bits 3 5)) = true ∧
    ends (exec (.peek 65) (idle br1 0)) (fun t => decide (t.reply = .raised .requestTooLong)) = true ∧
    (idle br1 0).run = .idle := by decide
theorem witness_RefusedRequests : br1at3.run.halted = false ∧ 62 ≤ 64 ∧ 64 < 62 + br1at3.rd.bitpos % 8 ∧
    br1at3.rd.bitpos % 8 ≠ 0 := by decide
theorem witness_SizeAndReadAt : 6 + 4 ≤ (idle br1 0).env.src.sizeN ∧ (idle br1 0).env.src.sizeN < 7 + 4 := by decide
theorem witness_OffsetRule : (idle br1 10).rd.bitpos % 8 = 0 ∧ (idle br1 10).rd.Coherent (idle br1 10).env.src := by
  unfold Reader.Coherent
  decide
theorem witness_ReadBytesRule : (idle br1 6).rd.bitpos % 8 = 0 ∧
    ((idle br1 6).rd.bitpos / 8 + 4 ≤ (idle br1 6).env.src.sizeN ∧ (idle br1 6).run.halted = false) ∧
    ((idle br1 6).env.src.sizeN < (idle br1 6).rd.bitpos / 8 + 5 ∧ (idle br1 6).run = .idle) := by decide
/-- V-BR-1: a peek; reads of 3 and 5 bits from byte 0; a read of 8 in their place. -/
theorem witness_BitReaderLaws : (idle br1 0).run = .idle ∧ (idle br1 0).rd.bitpos = 0 ∧
    ends (exec (.peek 8) (idle br1 0)) (fun t => decide (t.reply = .bits 8 0xA5)) = true ∧
    ((idle br1 0).afterReads [3, 5]).isSome = true ∧ [3, 5].sum % 8 = 0 ∧ ((idle br1 0).afterReads [3]).isSome = true ∧
    (((idle br1 0).afterReads [3]).bind (·.afterReads [5])).isSome = true ∧
    ((idle br1 0).afterReads [3 + 5]).isSome = true := by decide

/-! ### Witnesses: the Field Model -/

/-- Sixteen bits to the end of the source; and V-FM-2, whose third entry fails. -/
theorem witness_DecodeRule : (idle [0x81, 0x42] 0).run.halted = false ∧
    servedFrom (idle [0x81, 0x42] 0).rd.bitpos
      ((idle [0x81, 0x42] 0).env.src.fields (idle [0x81, 0x42] 0).rd.bitpos [(.user 0, 1), (.user 1, 15)]) ∧
    (idle [0x81, 0x42] 0).rd.bitpos + ([(NodeName.user 0, 1), (.user 1, 15)].map Prod.snd).sum ≤
      8 * (idle [0x81, 0x42] 0).env.src.sizeN := by
  simp only [servedFrom, Memory.fields]
  decide
theorem witness_DecodeRule_fails : (idle [0x81] 0).run = .idle ∧
    servedFrom (idle [0x81] 0).rd.bitpos
      ((idle [0x81] 0).env.src.fields (idle [0x81] 0).rd.bitpos ([(.user 0, 1), (.user 1, 6)] ++ (.user 2, 2) :: [])) ∧
    (idle [0x81] 0).rd.bitpos + ([(NodeName.user 0, 1), (.user 1, 6)].map Prod.snd).sum ≤ 8 * (idle [0x81] 0).env.src.sizeN ∧
    8 * (idle [0x81] 0).env.src.sizeN <
      (idle [0x81] 0).rd.bitpos + ([(NodeName.user 0, 1), (.user 1, 6)].map Prod.snd).sum + 2 := by
  simp only [servedFrom, Memory.fields, List.cons_append, List.nil_append]
  decide
/-- The same two sources for `decodeNested`. -/
theorem witness_DecodeNestedRule : (idle [0x81, 0x42] 0).run.halted = false ∧
    servedFrom 0 ((idle [0x81, 0x42] 0).env.src.fields 0 [(.user 0, 1), (.user 1, 15)]) ∧
    0 + ([(NodeName.user 0, 1), (.user 1, 15)].map Prod.snd).sum ≤ 8 * (idle [0x81, 0x42] 0).env.src.sizeN ∧
    (idle [0x81] 0).run = .idle ∧
    servedFrom 0 ((idle [0x81] 0).env.src.fields 0 ([(.user 0, 1), (.user 1, 6)] ++ (.user 2, 2) :: [])) ∧
    0 + ([(NodeName.user 0, 1), (.user 1, 6)].map Prod.snd).sum ≤ 8 * (idle [0x81] 0).env.src.sizeN ∧
    8 * (idle [0x81] 0).env.src.sizeN < 0 + ([(NodeName.user 0, 1), (.user 1, 6)].map Prod.snd).sum + 2 := by
  simp only [servedFrom, Memory.fields, List.cons_append, List.nil_append]
  decide
/-- A tree with one name twice: the first is found, and a third name is absent. -/
def twins : Machine.Tree := ⟨.standalone, 0, [⟨.user 1, 4, []⟩, ⟨.user 0, 7, []⟩, ⟨.user 0, 9, []⟩]⟩
theorem witness_GetRule : ({ idle [] 0 with ft := some twins } : State).ft = some twins ∧
    (twins.children = [⟨.user 1, 4, []⟩] ++ ⟨.user 0, 7, []⟩ :: [⟨.user 0, 9, []⟩] ∧
      (⟨.user 0, 7, []⟩ : Node).name = .user 0 ∧ ∀ m ∈ [(⟨.user 1, 4, []⟩ : Node)], m.name ≠ .user 0) ∧
    (∀ n ∈ twins.children, n.name ≠ .user 2) := by decide
/-- Two bytes to the end from an unaligned cursor, and one byte too many. -/
theorem witness_SkipBytesRule : (br1at3.rd.bitpos + 8 * 9 ≤ 8 * br1at3.env.src.sizeN ∧ br1at3.run.halted = false) ∧
    (8 * br1at3.env.src.sizeN < br1at3.rd.bitpos + 8 * 10 ∧ br1at3.run = .idle) := by decide

/-! ### Witnesses: the loop -/

theorem witness_LoopTopRule : (atTop [] 0).env.turns = [] ∧ (atTop [] 0).run = .running ∧ (atTop [] 0).work.due = .top ∧
    (atTop [] 0).env.cancel = false ∧ (atTop [] 0).rd.bitpos = 8 * (atTop [] 0).env.src.sizeN ∧
    ({ atTop [] 0 with env := { (atTop [] 0).env with cancel := true } } : State).env.cancel = true := by decide
/-- Four bytes, the whole source. -/
theorem witness_StartCodeDispatch : (atTop [0, 0, 1, 0xBC] 0).run = .running ∧ (atTop [0, 0, 1, 0xBC] 0).rd.bitpos % 8 = 0 ∧
    (atTop [0, 0, 1, 0xBC] 0).rd.bitpos + 32 ≤ 8 * (atTop [0, 0, 1, 0xBC] 0).env.src.sizeN := by decide
/-- Three bytes left, and one. -/
theorem witness_ShortStartCode : (atTop [0, 0, 1] 0).env.turns = [] ∧ (atTop [0, 0, 1] 0).run = .running ∧
    (atTop [0, 0, 1] 0).work.due = .top ∧ (atTop [0, 0, 1] 0).env.cancel = false ∧ (atTop [0, 0, 1] 0).rd.bitpos % 8 = 0 ∧
    (atTop [0, 0, 1] 0).rd.bitpos < 8 * (atTop [0, 0, 1] 0).env.src.sizeN ∧
    8 * (atTop [0, 0, 1] 0).env.src.sizeN < (atTop [0, 0, 1] 0).rd.bitpos + 32 ∧
    (atTop [0, 0, 1] 2).rd.bitpos < 8 * (atTop [0, 0, 1] 2).env.src.sizeN := by decide
/-- V-LOOP-3. -/
theorem witness_UnknownStartCodeAborts : (atTop [0, 0, 1, 0xB9] 0).env.turns = [] ∧ (atTop [0, 0, 1, 0xB9] 0).run = .running ∧
    (atTop [0, 0, 1, 0xB9] 0).work.due = .top ∧ (atTop [0, 0, 1, 0xB9] 0).env.cancel = false ∧
    (atTop [0, 0, 1, 0xB9] 0).rd.bitpos % 8 = 0 ∧
    (atTop [0, 0, 1, 0xB9] 0).rd.bitpos + 32 ≤ 8 * (atTop [0, 0, 1, 0xB9] 0).env.src.sizeN ∧
    (atTop [0, 0, 1, 0xB9] 0).env.src.recognisedAt ((atTop [0, 0, 1, 0xB9] 0).rd.bitpos / 8) = false := by decide

/-! ### Witnesses: the decoders -/

/-- Before a record of a packet with nothing decoded. -/
abbrev bare (bs : List Byte) (a : Nat) (k : PacketKind) (r : Rec) : State := inPacket bs a k (.record r) []
/-- The tree such a state has. -/
abbrev root (k : PacketKind) : Machine.Tree := (Tree.ofKind k (codeOfKind k)).withFields []

/-- V-PACK-2: the packet ends where the source ends. -/
theorem witness_PackBodyRule : (bare pack2 4 .packHeader .packBody).run = .running ∧
    (bare pack2 4 .packHeader .packBody).rd.bitpos % 8 = 0 ∧
    (bare pack2 4 .packHeader .packBody).ft = some (root .packHeader) ∧
    (bare pack2 4 .packHeader .packBody).rd.bitpos + 80 +
      8 * (decodePackBody 0x6634573C4EAB0FFFFFFA).pack_stuffing_length.toNat ≤
        8 * (bare pack2 4 .packHeader .packBody).env.src.sizeN := by decide
/-- V-PACK-5: one stuffing byte too many. -/
theorem witness_PackErrors : (bare pack2 4 .packHeader .packBody).work.due = .record .packBody ∧
    (bare pack2 4 .packHeader .packBody).pkt.kind = .packHeader ∧
    (bare pack2 4 .packHeader .packBody).pkt.startCode = 0x000001BA ∧
    (bare pack2 4 .packHeader .packBody).run = .running ∧ (bare pack2 4 .packHeader .packBody).rd.bitpos % 8 = 0 ∧
    (bare pack2 4 .packHeader .packBody).ft = some (root .packHeader) ∧
    8 * (bare pack2 4 .packHeader .packBody).env.src.sizeN < (bare pack2 4 .packHeader .packBody).rd.bitpos + 80 +
      8 * (decodePackBody 0x6634573C4EAB0FFFFFFB).pack_stuffing_length.toNat := by decide
/-- V-SYS-1 and V-SYS-2: the bit after the fixed record 1 and 0; the same after a stream record. -/
def sys2 : List Byte := [0x00, 0x00, 0x01, 0xBB, 0x00, 0x06, 0x81, 0x86, 0xA1, 0x04, 0xE1, 0x7F, 0x00]
theorem witness_SystemHeaderRule : (bare sys1 4 .systemHeader .sysFixed).run = .running ∧
    (bare sys1 4 .systemHeader .sysFixed).rd.bitpos % 8 = 0 ∧
    (bare sys1 4 .systemHeader .sysFixed).ft = some (root .systemHeader) ∧
    (bare sys1 4 .systemHeader .sysFixed).rd.bitpos + 64 + 1 ≤ 8 * (bare sys1 4 .systemHeader .sysFixed).env.src.sizeN ∧
    (bare sys1 4 .systemHeader .sysFixed).env.src.bit (32 + 64) = true ∧
    (bare sys2 4 .systemHeader .sysFixed).rd.bitpos + 64 + 1 ≤ 8 * (bare sys2 4 .systemHeader .sysFixed).env.src.sizeN ∧
    (bare sys2 4 .systemHeader .sysFixed).env.src.bit (32 + 64) = false := by decide
theorem witness_SystemHeaderRule_stream : (bare sys1 12 .systemHeader .sysStream).run = .running ∧
    (bare sys1 12 .systemHeader .sysStream).rd.bitpos % 8 = 0 ∧
    (bare sys1 12 .systemHeader .sysStream).ft = some (root .systemHeader) ∧
    (bare sys1 12 .systemHeader .sysStream).env.src.bit (96 + 24) = true ∧
    (bare sys1 15 .systemHeader .sysStream).rd.bitpos + 24 + 1 ≤ 8 * (bare sys1 15 .systemHeader .sysStream).env.src.sizeN ∧
    (bare sys1 15 .systemHeader .sysStream).env.src.bit (120 + 24) = false := by decide
/-- V-SYS-3: the source ends with the last record, so the bit after it is missing; V-SYS-5. -/
theorem witness_SystemHeaderErrors : (bare (sys1.take 18) 15 .systemHeader .sysStream).run = .running ∧
    (bare (sys1.take 18) 15 .systemHeader .sysStream).rd.bitpos % 8 = 0 ∧
    (bare (sys1.take 18) 15 .systemHeader .sysStream).ft = some (root .systemHeader) ∧
    (bare (sys1.take 18) 15 .systemHeader .sysStream).pkt.kind = .systemHeader ∧
    (bare (sys1.take 18) 15 .systemHeader .sysStream).work.due ≠ .top ∧
    (bare (sys1.take 18) 15 .systemHeader .sysStream).evt.length ≤
      (bare (sys1.take 18) 15 .systemHeader .sysStream).env.qdepthLess1 ∧
    8 * (bare (sys1.take 18) 15 .systemHeader .sysStream).env.src.sizeN <
      (bare (sys1.take 18) 15 .systemHeader .sysStream).rd.bitpos + 24 + 1 ∧
    8 * (bare (sys1.take 12) 4 .systemHeader .sysFixed).env.src.sizeN <
      (bare (sys1.take 12) 4 .systemHeader .sysFixed).rd.bitpos + 64 + 1 := by decide
/-- V-PSM-1's fixed record, and its CRC at the end of the source. -/
theorem witness_PsmFixedAndCrc : (bare psm1 4 .programStreamMap .psmFixed).run = .running ∧
    (bare psm1 4 .programStreamMap .psmFixed).rd.bitpos % 8 = 0 ∧
    (bare psm1 4 .programStreamMap .psmFixed).ft = some (root .programStreamMap) ∧
    32 + 48 + 8 * (14 : BitVec 16).toNat ≤ 8 * (bare psm1 4 .programStreamMap .psmFixed).env.src.sizeN ∧
    (bare psm1 20 .programStreamMap .psmCrc).rd.bitpos + 32 ≤ 8 * (bare psm1 20 .programStreamMap .psmCrc).env.src.sizeN := by
  decide
/-- A map before the length of its entry loop. -/
def atEsm (len : Nat) : State :=
  { inPacket psm1 10 .programStreamMap (.record .psmEsmLength) (fieldsOfPsmFixed ⟨BitVec.ofNat 16 len, 1, 3, 1, 0x7F, 1, 0⟩) with
    work := { Work.none with due := .record .psmEsmLength, psmMark := 6 } }
/-- V-PSM-5: 10 - 6 = 4. -/
theorem witness_PsmEsmLengthRule : (atEsm 10).run = .running ∧ (atEsm 10).rd.bitpos % 8 = 0 ∧
    ((atEsm 10).ft.bind (·.fieldOf .program_stream_map_length)) = some 10 ∧
    (atEsm 10).rd.bitpos + 16 ≤ 8 * (atEsm 10).env.src.sizeN ∧ 0 < (⟨1⟩ : PsmEsmLength).elementary_stream_map_length.toNat ∧
    (⟨0⟩ : PsmEsmLength).elementary_stream_map_length.toNat = 0 ∧
    ((10 : Nat) : Int) - ((((atEsm 10).rd.bitpos / 8 + 2 : Nat) : Int) - (atEsm 10).work.psmMark) = 4 := by decide
/-- V-PSM-1: an entry with one after it, and the last one, for which 18 - 14 = 4. -/
theorem witness_PsmEntryRule : (atEntry 12 8 18).run = .running ∧ (atEntry 12 8 18).rd.bitpos % 8 = 0 ∧
    ((atEntry 12 8 18).ft.bind (·.fieldOf .program_stream_map_length)) = some 18 ∧
    4 = (⟨0x1B, 0xE0, 0⟩ : PsmEntry).elementary_stream_info_length.toNat + 4 ∧
    4 ≤ (atEntry 12 8 18).work.esmRemaining ∧ (atEntry 12 8 18).rd.bitpos + 8 * 4 ≤ 8 * (atEntry 12 8 18).env.src.sizeN ∧
    4 ≠ (atEntry 12 8 18).work.esmRemaining ∧ 4 = (atEntry 16 4 18).work.esmRemaining ∧
    ((18 : Nat) : Int) - ((((atEntry 16 4 18).rd.bitpos / 8 + 4 : Nat) : Int) - (atEntry 16 4 18).work.psmMark) = 4 := by decide
/-- An entry one byte larger than what is left. -/
theorem witness_CheckLengthRule : (atEntry 16 4 18).run = .running ∧ (atEntry 16 4 18).rd.bitpos % 8 = 0 ∧
    (atEntry 16 4 18).ft.isSome = true ∧ (atEntry 16 4 18).work.due = .record .psmEntry ∧
    (atEntry 16 4 18).pkt.kind = .programStreamMap ∧ (atEntry 16 4 18).evt.length ≤ (atEntry 16 4 18).env.qdepthLess1 ∧
    (atEntry 16 4 18).rd.bitpos + 32 ≤ 8 * (atEntry 16 4 18).env.src.sizeN ∧
    (atEntry 16 4 18).work.esmRemaining < (⟨0x90, 0xC0, 1⟩ : PsmEntry).elementary_stream_info_length.toNat + 4 := by decide
/-- V-PSM-4: 19 - 14 = 5; V-PSM-4b: 17 - 14 = 3; an empty map with 11 - 6 = 5. -/
theorem witness_FormatMismatchRule : (atEntry 16 4 19).run = .running ∧ (atEntry 16 4 19).rd.bitpos % 8 = 0 ∧
    (atEntry 16 4 19).work.due ≠ .top ∧ (atEntry 16 4 19).pkt.kind = .programStreamMap ∧
    (atEntry 16 4 19).evt.length ≤ (atEntry 16 4 19).env.qdepthLess1 ∧
    ((atEntry 16 4 19).ft.bind (·.fieldOf .program_stream_map_length)) = some 19 ∧
    4 = (⟨0x90, 0xC0, 0⟩ : PsmEntry).elementary_stream_info_length.toNat + 4 ∧ 4 = (atEntry 16 4 19).work.esmRemaining ∧
    (atEntry 16 4 19).rd.bitpos + 8 * 4 ≤ 8 * (atEntry 16 4 19).env.src.sizeN ∧
    ((19 : Nat) : Int) - ((((atEntry 16 4 19).rd.bitpos / 8 + 4 : Nat) : Int) - (atEntry 16 4 19).work.psmMark) ≠ 4 ∧
    ((17 : Nat) : Int) - ((((atEntry 16 4 17).rd.bitpos / 8 + 4 : Nat) : Int) - (atEntry 16 4 17).work.psmMark) ≠ 4 ∧
    (atEsm 11).rd.bitpos + 16 ≤ 8 * (atEsm 11).env.src.sizeN ∧
    ((11 : Nat) : Int) - ((((atEsm 11).rd.bitpos / 8 + 2 : Nat) : Int) - (atEsm 11).work.psmMark) ≠ 4 := by decide
/-- Records that end where the source ends. -/
theorem witness_PesFlagRecords : (bare (pes1.take 9) 4 .videoPES .pesBase).run = .running ∧
    (bare (pes1.take 9) 4 .videoPES .pesBase).rd.bitpos % 8 = 0 ∧
    (bare (pes1.take 9) 4 .videoPES .pesBase).ft = some (root .videoPES) ∧
    (bare (pes1.take 9) 4 .videoPES .pesBase).rd.bitpos + 40 ≤ 8 * (bare (pes1.take 9) 4 .videoPES .pesBase).env.src.sizeN ∧
    (bare (pes1.take 5) 4 .videoPES .pesExtFlags).rd.bitpos + 8 ≤
      8 * (bare (pes1.take 5) 4 .videoPES .pesExtFlags).env.src.sizeN := by decide
/-- The tree of `gated`. -/
def gatedTree : Machine.Tree :=
  (Tree.ofKind .videoPES (codeOfKind .videoPES)).withFields (fieldsOfPesBase baseAll ++ fieldsOfPesExtFlags extAll)
theorem gatedTree_has : gatedTree.Has pesNames ∧ gatedTree.Has pesExtNames := by
  unfold Tree.Has
  decide
theorem witness_PesBaseGatedRule : (Instr.pesPtsDts ⟨3, 7, 1, 0, 1, 0, 1, 1, 4, 1, 0, 1, 0, 1⟩).ctx = some (.record .pesPtsDts) ∧
    Rec.pesPtsDts ∈ [Rec.pesPts, .pesPtsDts, .pesEscr, .pesEsRate, .pesTrick, .pesCopyInfo, .pesCrc] ∧
    (gated .pesPtsDts).run = .running ∧ (gated .pesPtsDts).rd.bitpos % 8 = 0 ∧ (gated .pesPtsDts).ft = some gatedTree ∧
    gatedTree.Has pesNames ∧ (gated .pesPtsDts).rd.bitpos + Rec.pesPtsDts.width ≤ 8 * (gated .pesPtsDts).env.src.sizeN := by
  refine ⟨by decide, by decide, by decide, by decide, by decide, gatedTree_has.1, by decide⟩
/-- Nineteen bytes skipped to the end of the source. -/
theorem witness_PesExtGatedRule : (∃ r, Instr.pesPackField ⟨19⟩ = .pesPackField r ∧ Rec.pesPackField = .pesPackField ∧
      (19 : Nat) = r.pack_field_length.toNat) ∧
    (gated .pesPackField).run = .running ∧ (gated .pesPackField).rd.bitpos % 8 = 0 ∧
    (gated .pesPackField).ft = some gatedTree ∧ gatedTree.Has pesExtNames ∧
    (gated .pesPackField).rd.bitpos + bitsOf (Instr.pesPackField ⟨19⟩).fields + 8 * 19 ≤
      8 * (gated .pesPackField).env.src.sizeN := by
  refine ⟨⟨⟨19⟩, rfl, rfl, rfl⟩, by decide, by decide, by decide, gatedTree_has.2, by decide⟩
theorem witness_RecordOrder : gatedTree.fieldOf .PTS_DTS_flags = some baseAll.PTS_DTS_flags.toNat ∧
    gatedTree.fieldOf .ESCR_flag = some baseAll.ESCR_flag.toNat ∧
    gatedTree.fieldOf .ES_rate_flag = some baseAll.ES_rate_flag.toNat ∧
    gatedTree.fieldOf .DSM_trick_mode_flag = some baseAll.DSM_trick_mode_flag.toNat ∧
    gatedTree.fieldOf .additional_copy_info_flag = some baseAll.additional_copy_info_flag.toNat ∧
    gatedTree.fieldOf .PES_CRC_flag = some baseAll.PES_CRC_flag.toNat ∧
    gatedTree.fieldOf .PES_extension_flag = some baseAll.PES_extension_flag.toNat ∧
    wantedBase baseAll = [.pesPtsDts, .pesEscr, .pesEsRate, .pesTrick, .pesCopyInfo, .pesCrc] ++ .pesExtFlags :: [] ∧
    gatedTree.fieldOf .PES_private_data_flag = some extAll.PES_private_data_flag.toNat ∧
    gatedTree.fieldOf .pack_header_field_flag = some extAll.pack_header_field_flag.toNat ∧
    gatedTree.fieldOf .program_packet_sequence_counter_flag = some extAll.program_packet_sequence_counter_flag.toNat ∧
    gatedTree.fieldOf .P_STD_buffer_flag = some extAll.P_STD_buffer_flag.toNat ∧
    gatedTree.fieldOf .PES_extension_flag_2 = some extAll.PES_extension_flag_2.toNat ∧
    wantedExt extAll = [.pesPrivateData, .pesPackField, .pesSeqCounter, .pesPStd] ++ .pesExt2 :: [] := by decide
/-- Stuffing of 19 bytes to the end of the source, of 0, and a difference of -5. -/
theorem witness_PesStuffingRule : (atStuffing 24).run = .running ∧ (atStuffing 24).rd.bitpos % 8 = 0 ∧
    ((atStuffing 24).ft.bind (·.fieldOf .PES_header_data_length)) = some 24 ∧
    19 = (((24 : Nat) : Int) - ((((atStuffing 24).rd.bitpos / 8 : Nat) : Int) - (atStuffing 24).work.hdrMark)).toNat ∧
    (atStuffing 24).rd.bitpos + 8 * 19 ≤ 8 * (atStuffing 24).env.src.sizeN ∧
    0 = (((5 : Nat) : Int) - ((((atStuffing 5).rd.bitpos / 8 : Nat) : Int) - (atStuffing 5).work.hdrMark)).toNat ∧
    0 = (((0 : Nat) : Int) - ((((atStuffing 0).rd.bitpos / 8 : Nat) : Int) - (atStuffing 0).work.hdrMark)).toNat := by decide
/-- Lengths of -1, of 0, and one whose start code would end a byte past the source. -/
theorem witness_TrustedRule : (-1 : Int) = ((2 : Nat) : Int) - 3 - ((0 : Nat) : Int) ∧ (-1 : Int) < 0 ∧
    (0 : Int) = ((3 : Nat) : Int) - 3 - ((0 : Nat) : Int) ∧ (30 : Int) = ((33 : Nat) : Int) - 3 - ((0 : Nat) : Int) ∧
    (((Memory.ofBytes pes1).sizeN : Nat) : Int) < ((0 : Nat) : Int) + 30 + 4 := by decide
/-- V-PES-1; and with ES full. -/
def esFull : State :=
  { atPayload .videoPES 13 with es := [⟨.video, []⟩, ⟨.audio, []⟩], esLog := [⟨.video, []⟩, ⟨.audio, []⟩] }
theorem witness_PayloadForwarded : (atPayload .videoPES 13).run = .running ∧ (atPayload .videoPES 13).rd.bitpos % 8 = 0 ∧
    ((atPayload .videoPES 13).ft.bind (·.fieldOf .PES_packet_length)) = some 13 ∧
    ((atPayload .videoPES 13).ft.bind (·.fieldOf .PES_header_data_length)) = some 5 ∧ 13 = 5 + 3 + 5 ∧
    (atPayload .videoPES 13).env.src.recognisedAt ((atPayload .videoPES 13).rd.bitpos / 8 + 5) = true ∧
    (atPayload .videoPES 13).es.length ≤ (atPayload .videoPES 13).env.esDepthLess1 ∧
    esFull.env.esDepthLess1 < esFull.es.length := by decide
theorem witness_ClassifyRule : ([0, 0, 0, 1] : List Byte).length < 5 ∧ ([0, 0, 0, 1, 0x65] : List Byte)[4]? = some 0x65 ∧
    ([0, 0, 0, 1, 0x61] : List Byte)[4]? = some 0x61 ∧ ([0, 0, 0, 1, 0x25] : List Byte)[4]? = some 0x25 := by decide
/-- V-PES-2. -/
theorem witness_PayloadResync : (atPayload .videoPES 16).run = .running ∧ (atPayload .videoPES 16).rd.bitpos % 8 = 0 ∧
    (atPayload .videoPES 16).rd.bitpos ≤ 8 * (atPayload .videoPES 16).env.src.sizeN ∧
    ((atPayload .videoPES 16).ft.bind (·.fieldOf .PES_packet_length)) = some 16 ∧
    ((atPayload .videoPES 16).ft.bind (·.fieldOf .PES_header_data_length)) = some 5 ∧
    (atPayload .videoPES 16).pkt.kind = .videoPES ∧ (atPayload .audioPES 16).pkt.kind = .audioPES ∧
    trusted (atPayload .videoPES 16).env.src ((atPayload .videoPES 16).rd.bitpos / 8)
      (((16 : Nat) : Int) - 3 - ((5 : Nat) : Int)) = false := by decide
/-- The current position recognised itself, a later one, and none before the end. -/
theorem witness_ResyncFindsLeast : 19 ≤ (Memory.ofBytes pes1).sizeN ∧ (Memory.ofBytes pes1).resyncFrom 19 = 19 ∧
    (Memory.ofBytes pes1).resyncFrom 14 = 19 ∧ 33 ≤ (Memory.ofBytes pes1).sizeN ∧ (Memory.ofBytes pes1).resyncFrom 33 = 33 ∧
    (Memory.ofBytes pes1).resyncFrom 20 = 33 := by decide

/-! ### Witnesses: the end of a packet, the host, the invariants -/

/-- A packet at its end: EVT with room, EVT full, a pack header. -/
def atEnd (k : PacketKind) (evt : List EvtRec) : State := { inPacket pes1 19 k .finish [] with evt := evt }
theorem witness_PacketEnd : (atEnd .videoPES [⟨0, .audioPES, .ok⟩]).pkt.kind ≠ .packHeader ∧
    (atEnd .videoPES [⟨0, .audioPES, .ok⟩]).evt.length ≤ (atEnd .videoPES []).env.qdepthLess1 ∧
    (atEnd .videoPES []).work.pending = none ∧
    ({ (atEnd .videoPES []).work with pending := some .checkLength } : Work).pending = some .checkLength ∧
    (atEnd .videoPES []).env.qdepthLess1 < (atEnd .videoPES [⟨0, .audioPES, .ok⟩, ⟨1, .audioPES, .ok⟩]).evt.length ∧
    (atEnd .packHeader []).pkt.kind = .packHeader ∧ (atEnd .packHeader []).work.pending = none ∧
    (atEnd .videoPES []).env.turns = [] ∧ (atEnd .videoPES []).run = .running ∧ (atEnd .videoPES []).work.due = .finish := by
  decide
/-- V-PES-E2: the last byte of the base record is missing. -/
theorem witness_RecordPastEnd_root : (Instr.pesBase base1).ctx = some (.record .pesBase) ∧
    (bare (pes1.take 8) 4 .videoPES .pesBase).run = .running ∧ (bare (pes1.take 8) 4 .videoPES .pesBase).rd.bitpos % 8 = 0 ∧
    (bare (pes1.take 8) 4 .videoPES .pesBase).ft = some (root .videoPES) ∧
    (bare (pes1.take 8) 4 .videoPES .pesBase).work.due ≠ .top ∧
    (bare (pes1.take 8) 4 .videoPES .pesBase).pkt.kind ≠ .packHeader ∧
    (bare (pes1.take 8) 4 .videoPES .pesBase).evt.length ≤ (bare (pes1.take 8) 4 .videoPES .pesBase).env.qdepthLess1 ∧
    (Instr.pesBase base1).fields =
      (fieldsOfPesBase base1).take 14 ++ FieldVal.of .PES_header_data_length base1.PES_header_data_length :: [] ∧
    (bare (pes1.take 8) 4 .videoPES .pesBase).rd.bitpos + bitsOf ((fieldsOfPesBase base1).take 14) =
      8 * (bare (pes1.take 8) 4 .videoPES .pesBase).env.src.sizeN := by decide
/-- A map entry cut in its last field, and one of which nothing is left. -/
theorem witness_RecordPastEnd_child : (Instr.psmEntry ⟨0x90, 0xC0, 0⟩).ctx = some (.record .psmEntry) ∧
    (bare (psm1.take 19) 16 .programStreamMap .psmEntry).run = .running ∧
    (bare (psm1.take 19) 16 .programStreamMap .psmEntry).pkt.kind ≠ .packHeader ∧
    (Instr.psmEntry ⟨0x90, 0xC0, 0⟩).fields =
      [.of .stream_type (0x90 : BitVec 8), .of .elementary_stream_id (0xC0 : BitVec 8)] ++
        FieldVal.of .elementary_stream_info_length (0 : BitVec 16) :: [] ∧
    (bare (psm1.take 19) 16 .programStreamMap .psmEntry).rd.bitpos + 16 ≤
      8 * (bare (psm1.take 19) 16 .programStreamMap .psmEntry).env.src.sizeN ∧
    8 * (bare (psm1.take 19) 16 .programStreamMap .psmEntry).env.src.sizeN <
      (bare (psm1.take 19) 16 .programStreamMap .psmEntry).rd.bitpos + 16 + 16 ∧
    8 * (bare (psm1.take 16) 16 .programStreamMap .psmEntry).env.src.sizeN <
      (bare (psm1.take 16) 16 .programStreamMap .psmEntry).rd.bitpos + bitsOf [] + 8 := by decide
/-- One descriptor byte too few after a map's fixed record, and after an entry that just passes its check. -/
theorem witness_SkipPastEnd_psm : (15 : Nat) = (⟨0, 1, 3, 1, 0x7F, 1, 15⟩ : PsmFixed).program_stream_info_length.toNat ∧
    (bare psm1 4 .programStreamMap .psmFixed).run = .running ∧ (bare psm1 4 .programStreamMap .psmFixed).rd.bitpos % 8 = 0 ∧
    (bare psm1 4 .programStreamMap .psmFixed).ft = some (root .programStreamMap) ∧
    (bare psm1 4 .programStreamMap .psmFixed).work.due ≠ .top ∧
    (bare psm1 4 .programStreamMap .psmFixed).rd.bitpos + 48 ≤ 8 * (bare psm1 4 .programStreamMap .psmFixed).env.src.sizeN ∧
    8 * (bare psm1 4 .programStreamMap .psmFixed).env.src.sizeN <
      (bare psm1 4 .programStreamMap .psmFixed).rd.bitpos + 48 + 8 * 15 ∧
    (5 : Nat) = (⟨0x90, 0xC0, 5⟩ : PsmEntry).elementary_stream_info_length.toNat ∧
    5 + 4 ≤ (atEntry 16 9 18).work.esmRemaining ∧ (atEntry 16 9 18).run = .running ∧ (atEntry 16 9 18).work.due ≠ .top ∧
    (atEntry 16 9 18).rd.bitpos % 8 = 0 ∧ (atEntry 16 9 18).ft.isSome ∧ (atEntry 16 9 18).pkt.kind ≠ .packHeader ∧
    (atEntry 16 9 18).evt.length ≤ (atEntry 16 9 18).env.qdepthLess1 ∧
    (atEntry 16 9 18).rd.bitpos + 32 ≤ 8 * (atEntry 16 9 18).env.src.sizeN ∧
    8 * (atEntry 16 9 18).env.src.sizeN < (atEntry 16 9 18).rd.bitpos + 32 + 8 * 5 := by decide
/-- One byte too few in each skip of a PES header. -/
theorem witness_SkipPastEnd_pes : (inPacket (ffs.take 15) 0 .audioPES (.record .pesPrivateData) []).run = .running ∧
    8 * (inPacket (ffs.take 15) 0 .audioPES (.record .pesPrivateData) []).env.src.sizeN < 0 + 8 * 16 ∧
    (gated .pesPackField).run = .running ∧ (gated .pesPackField).rd.bitpos % 8 = 0 ∧
    (gated .pesPackField).ft = some gatedTree ∧ (gated .pesPackField).work.due ≠ .top ∧
    (gated .pesPackField).pkt.kind ≠ .packHeader ∧
    (20 : Nat) = (⟨20⟩ : PesPackField).pack_field_length.toNat ∧
    (20 : Nat) = (⟨1, 20⟩ : PesExt2).PES_extension_field_length.toNat ∧
    (gated .pesPackField).rd.bitpos + 8 ≤ 8 * (gated .pesPackField).env.src.sizeN ∧
    8 * (gated .pesPackField).env.src.sizeN < (gated .pesPackField).rd.bitpos + 8 + 8 * 20 ∧
    ((atStuffing 25).ft.bind (·.fieldOf .PES_header_data_length)) = some 25 ∧ (atStuffing 25).run = .running ∧
    (20 : Nat) = (((25 : Nat) : Int) - ((((atStuffing 25).rd.bitpos / 8 : Nat) : Int) - (atStuffing 25).work.hdrMark)).toNat ∧
    8 * (atStuffing 25).env.src.sizeN < (atStuffing 25).rd.bitpos + 8 * 20 ∧
    (atStuffing 25).rd.bitpos ≤ 8 * (atStuffing 25).env.src.sizeN := by decide
theorem witness_FatalErrorTaken : (atTop p0 0).work.due = .top ∧ (atEnd .videoPES []).work.due ≠ .top ∧
    (atTop p0 0).run = .running ∧ 64 < 65 := by decide
theorem witness_WaitingPush : (atEnd .videoPES [⟨0, .audioPES, .ok⟩, ⟨1, .audioPES, .ok⟩]).work.due = .finish ∧
    (atEnd .videoPES [⟨0, .audioPES, .ok⟩, ⟨1, .audioPES, .ok⟩]).env.turns = [] ∧
    (atEnd .videoPES []).env.qdepthLess1 < (atEnd .videoPES [⟨0, .audioPES, .ok⟩, ⟨1, .audioPES, .ok⟩]).evt.length ∧
    ({ esFull with work := { esFull.work with due := .pushEs } } : State).work.due = .pushEs ∧ esFull.env.turns = [] ∧
    esFull.run = .running ∧ esFull.env.esDepthLess1 < esFull.es.length ∧
    (atPayload .videoPES 13).es.length ≤ (atPayload .videoPES 13).env.esDepthLess1 := by decide
theorem witness_StartAndReset : (idle br1 5).run = .idle ∧ (atTop br1 5).run ≠ .idle := by decide
theorem witness_ConsumerPopRule : oneEvent.evt = ⟨7, .videoPES, .ok⟩ :: [] ∧
    oneEvent.tree = ⟨.kind .videoPES, 0x1E0, []⟩ :: [] ∧ esFull.es = ⟨.video, []⟩ :: [⟨.audio, []⟩] ∧
    (idle [] 0).evt = [] ∧ (idle [] 0).es = [] := by decide
/-- A halted machine over a source. -/
def halted (bs : List Byte) : State := { idle bs 0 with run := .done }
theorem witness_ParseDetailRule : (idle p0 0).run.halted = false ∧ (halted [0, 0, 1, 0xBA]).run.halted = true ∧
    (0 : Word).toNat + 4 ≤ (halted [0, 0, 1, 0xBA]).env.src.sizeN ∧
    (halted [0, 0, 1, 0xBA]).env.src.codeAt (0 : Word).toNat = codeOfKind .packHeader ∧
    (halted [0, 0, 1, 0xBA]).env.src.codeAt (0 : Word).toNat ≠ codeOfKind .videoPES := by decide
/-- V-PACK-2, which ends where the source ends. -/
theorem witness_ParseDetailPack : (halted pack2).run.halted = true ∧
    (halted pack2).env.src.codeAt (0 : Word).toNat = 0x000001BA ∧
    decodePackBody ((halted pack2).env.src.bits (8 * ((0 : Word).toNat + 4)) 80) =
      ⟨1, 4, 1, 0x468A, 1, 0x6789, 1, 0x155, 1, 0x3FFFF, 1, 1, 31, 2⟩ ∧
    (0 : Word).toNat + 14 + (2 : BitVec 3).toNat ≤ (halted pack2).env.src.sizeN := by decide
theorem witness_ReaderInvKept : br1at3.ReaderInv ∧ ∃ t, step (asked br1at3 (.read 5)) = .next t :=
  ⟨br1at3_coherent, _, rfl⟩
/-- A video packet just dispatched: the state the invariants are about. -/
def dispatched : State :=
  { inPacket pes1 4 .videoPES (.record .pesBase) [] with cnt := ⟨1, 0, 0, 0, 0, 0, 0, 0⟩ }
theorem dispatched_task : dispatched.TaskInv where
  aligned _ _ := rfl
  pendingAtEnd _ h := absurd rfl h
  atTop _ h := nomatch h
  inPacket _ _ := ⟨_, rfl, rfl, rfl, List.forall_mem_nil _, rfl, rfl⟩
theorem dispatched_out : dispatched.OutInv where
  evtTail := List.suffix_rfl
  esTail := List.suffix_rfl
  treeTail := List.suffix_rfl
  treeWithEvt := rfl
  evtRoom := by decide
  esRoom := by decide
  trees := .nil
  noPackHeader _ h := nomatch h
theorem witness_RunInvKept : dispatched.TaskInv ∧ dispatched.ErrInv ∧ dispatched.OutInv ∧
    ∃ t, step dispatched = .next t :=
  ⟨dispatched_task, ⟨fun _ => rfl, fun h => (nomatch h), .inl rfl⟩, dispatched_out, _, rfl⟩
theorem witness_CountInvKept : dispatched.ReaderInv ∧ dispatched.TaskInv ∧ dispatched.CountInv ∧
    ∃ t, step dispatched = .next t := by
  refine ⟨?_, dispatched_task, ⟨by decide, by decide, by decide, by decide, by decide⟩, _, rfl⟩
  unfold State.ReaderInv Reader.Coherent
  decide
theorem witness_TaskNeverStops : dispatched.TaskInv ∧ dispatched.env.turns = [] := ⟨dispatched_task, rfl⟩
theorem witness_SourceFixedCursorForward : (∃ t, step dispatched = .next t ∧ t.run ≠ .idle) ∧ dispatched.run = .running :=
  ⟨⟨_, rfl, by decide⟩, rfl⟩
theorem witness_HaltedStays : (asked (halted p0) (.peek 1)).run.halted = true ∧
    (∃ t, step (asked (halted p0) (.peek 1)) = .next t) ∧ (halted p0).env.turns = [] ∧
    (asked (halted p0) (.peek 1)).env.turns = .request (.peek 1) :: [] := ⟨rfl, ⟨_, rfl⟩, rfl, rfl⟩

end Sys2Proof.Tests
end

section
/-! PROOFS of the statements of 10_state.md. First what ends a packet leaves alone; then the reader under a step from any
state at all, the invariants of a run under every move, the halted phases and the state after reset. -/

namespace Sys2Proof.Machine

/-! ### What the end of a packet leaves alone -/

@[simp] theorem State.endPacket_env (s : State) : s.endPacket.env = s.env := by
  unfold State.endPacket; split <;> rfl

@[simp] theorem State.endPacket_rd (s : State) : s.endPacket.rd = s.rd := by
  unfold State.endPacket; split <;> rfl

@[simp] theorem State.finishPacket_env (s : State) : s.finishPacket.env = s.env := by
  rcases s.finishPacket_cases with ⟨-, -, h⟩ | ⟨-, -, h⟩ | ⟨-, h⟩ <;> simp [h]

@[simp] theorem State.finishPacket_rd (s : State) : s.finishPacket.rd = s.rd := by
  rcases s.finishPacket_cases with ⟨-, -, h⟩ | ⟨-, -, h⟩ | ⟨-, h⟩ <;> simp [h]

@[simp] theorem State.goTo_env (d : Due) (s : State) : (s.goTo d).env = s.env := by
  unfold State.goTo; split <;> simp

@[simp] theorem State.goTo_rd (d : Due) (s : State) : (s.goTo d).rd = s.rd := by
  unfold State.goTo; split <;> simp

@[simp] theorem State.raiseFatal_env (e : Err) (s : State) : (s.raiseFatal e).env = s.env := by
  unfold State.raiseFatal; split <;> simp

@[simp] theorem State.raiseFatal_rd (e : Err) (s : State) : (s.raiseFatal e).rd = s.rd := by
  unfold State.raiseFatal; split <;> simp

/-! ### The reader moved on

`State.Advances` needs the tree of a packet and an aligned cursor to start from. What a step does to the reader needs
neither, so it is said here of every state: the inputs stay, the cursor does not go back, the datapath stays coherent. -/

/-- `t` has the inputs of `s` and its reader moved on over them, as coherent as it was; all else may differ. -/
structure State.ReadsOn (s t : State) : Prop where
  env : t.env = s.env
  forward : s.rd.bitpos ≤ t.rd.bitpos
  coherent : s.ReaderInv → t.ReaderInv

theorem State.ReadsOn.of_eq {s t : State} (henv : t.env = s.env) (hrd : t.rd = s.rd) : s.ReadsOn t :=
  ⟨henv, by rw [hrd], fun h => by rwa [State.ReaderInv, henv, hrd]⟩

theorem State.ReadsOn.refl (s : State) : s.ReadsOn s := .of_eq rfl rfl

theorem State.ReadsOn.trans {s t u : State} (h : s.ReadsOn t) (h' : t.ReadsOn u) : s.ReadsOn u :=
  ⟨h'.env.trans h.env, h.forward.trans h'.forward, h'.coherent ∘ h.coherent⟩

theorem State.Quiet.readsOn {s t : State} (h : s.Quiet t) : s.ReadsOn t := ⟨h.env, h.forward, h.coherent⟩

/-- An operation that moves the reader on however it ends. -/
def State.ReadsOnSat {α : Type} (s : State) (r : Res State α) : Prop :=
  r.Sat (fun _ t => s.ReadsOn t) (fun _ t => s.ReadsOn t) (fun _ => True)

theorem State.ReadsOnSat.ok {α : Type} (a : α) (s : State) : s.ReadsOnSat (.ok a s) := State.ReadsOn.refl s

theorem State.ReadsOnSat.raise {α : Type} (e : Err) (s : State) : s.ReadsOnSat (.raise e s : Res State α) :=
  State.ReadsOn.refl s

theorem State.QuietSat.readsOn {α : Type} {s : State} {r : Res State α} (h : s.QuietSat r) : s.ReadsOnSat r :=
  h.mono (fun _ _ => State.Quiet.readsOn) (fun _ _ => State.Quiet.readsOn) (fun _ => id)

theorem State.ReadsOnSat.after {α : Type} {s t : State} {r : Res State α} (h : s.ReadsOn t) (h' : t.ReadsOnSat r) :
    s.ReadsOnSat r :=
  h'.mono (fun _ _ => h.trans) (fun _ _ => h.trans) (fun _ => id)

/-- The same operation begun in a state that differs in neither inputs nor reader. -/
theorem State.ReadsOnSat.of_eq {α : Type} {s t : State} {r : Res State α} (h : t.ReadsOnSat r) (henv : t.env = s.env)
    (hrd : t.rd = s.rd) : s.ReadsOnSat r :=
  .after (.of_eq henv hrd) h

theorem State.ReadsOnSat.bind {α β : Type} {s : State} {r : Res State α} {f : α → State → Res State β}
    (h : s.ReadsOnSat r) (hf : ∀ a (t : State), t.ReadsOnSat (f a t)) : s.ReadsOnSat (r.bind f) :=
  Res.Sat.bind h fun a t ht => State.ReadsOnSat.after ht (hf a t)

/-! ### The parts of a packet -/

theorem State.off_readsOn (s : State) : s.ReadsOnSat s.off :=
  (State.off_sat s).mono (fun _ t h => by obtain ⟨-, -, rfl⟩ := h; exact .refl _) (fun _ _ => False.elim)
    (fun _ _ => trivial)

theorem State.get_readsOn (name : NodeName) (s : State) : s.ReadsOnSat (s.get name) := by
  unfold State.get
  split
  · split
    · exact .ok _ s
    · trivial
  · trivial

theorem State.field_readsOn (f : FieldName) (s : State) : s.ReadsOnSat (s.field f) :=
  .bind (s.get_readsOn _) fun v t => .ok v.toNat t

theorem State.decodeFields_readsOn (p : Place) (fs : List FieldVal) (s : State) :
    s.ReadsOnSat (State.decodeFields p fs s) :=
  (State.decodeFields_quiet p fs s).readsOn

theorem State.decodeChild_readsOn (child : NodeName) (fs : List FieldVal) (s : State) :
    s.ReadsOnSat (State.decodeChild child fs s) :=
  (State.decodeChild_quiet child fs s).readsOn

theorem State.skip_readsOn (n : Nat) (s : State) : s.ReadsOnSat (s.skip n) := (State.skip_quiet n s).readsOn

theorem partPackBody_readsOn (r : PackBody) (s : State) : s.ReadsOnSat (partPackBody r s) :=
  .bind (s.decodeFields_readsOn _ _) fun _ t => .bind (t.skip_readsOn _) fun _ => .ok _

theorem sysLoop_readsOn (s : State) : s.ReadsOnSat (sysLoop s) :=
  .bind (State.peek_quiet 1 s).readsOn fun _ => .ok _

theorem psmLoop_readsOn (s : State) : s.ReadsOnSat (psmLoop s) := by
  unfold psmLoop
  split
  · exact .ok _ s
  · refine .bind s.off_readsOn fun _ s1 => .bind (s1.field_readsOn _) fun _ s2 => ?_
    split
    · exact .ok _ s2
    · exact .raise _ s2

theorem partPsmFixed_readsOn (r : PsmFixed) (s : State) : s.ReadsOnSat (partPsmFixed r s) :=
  .bind (s.decodeFields_readsOn _ _) fun _ s1 => .bind s1.off_readsOn fun mark s2 =>
    .bind (.of_eq (State.decodeFields_readsOn _ _ { s2 with work := { s2.work with psmMark := mark } }) rfl rfl)
      fun _ s3 => .bind (s3.skip_readsOn _) fun _ => .ok _

theorem partPsmEsmLength_readsOn (r : PsmEsmLength) (s : State) : s.ReadsOnSat (partPsmEsmLength r s) :=
  .bind (s.decodeFields_readsOn _ _) fun _ _ => .of_eq (psmLoop_readsOn _) rfl rfl

theorem partPsmEntry_readsOn (r : PsmEntry) (s : State) : s.ReadsOnSat (partPsmEntry r s) := by
  refine .bind (s.decodeChild_readsOn _ _) fun _ s1 => ?_
  split
  · exact .raise _ s1
  · refine .bind (.of_eq (State.skip_readsOn _ _) ?_ ?_) fun _ _ => .of_eq (psmLoop_readsOn _) rfl rfl
    · exact setStreamType_env _ _ s1
    · exact setStreamType_rd _ _ s1

theorem firstGate_readsOn (gs : List Gate) (s : State) : s.ReadsOnSat (firstGate gs s) := by
  induction gs generalizing s with
  | nil => exact .ok _ s
  | cons g gs ih =>
    refine .bind (s.field_readsOn _) fun v s1 => ?_
    split
    · exact .ok _ s1
    · exact ih s1

theorem baseRecord_readsOn (r : Rec) (fs : List FieldVal) (s : State) : s.ReadsOnSat (baseRecord r fs s) :=
  .bind (s.decodeFields_readsOn _ _) fun _ => firstGate_readsOn _

theorem extRecord_readsOn (r : Rec) (fs : List FieldVal) (s : State) : s.ReadsOnSat (extRecord r fs s) :=
  .bind (s.decodeFields_readsOn _ _) fun _ => firstGate_readsOn _

theorem extBlock_readsOn (r : Rec) (fs : List FieldVal) (n : Nat) (s : State) : s.ReadsOnSat (extBlock r fs n s) :=
  .bind (s.decodeFields_readsOn _ _) fun _ s1 => .bind (s1.skip_readsOn n) fun _ => firstGate_readsOn _

theorem partPesBase_readsOn (r : PesBase) (s : State) : s.ReadsOnSat (partPesBase r s) :=
  .bind (s.decodeFields_readsOn _ _) fun _ s1 => .bind s1.off_readsOn fun _ _ =>
    .of_eq (firstGate_readsOn _ _) rfl rfl

theorem partPesStuffing_readsOn (s : State) : s.ReadsOnSat (partPesStuffing s) := by
  refine .bind s.off_readsOn fun _ s1 => .bind (s1.field_readsOn _) fun _ s2 => ?_
  split
  · exact .bind (s2.skip_readsOn _) fun _ => .ok _
  · exact .ok _ s2

theorem State.pushEs_readsOn (s : State) : s.ReadsOnSat s.pushEs := by
  unfold State.pushEs
  split
  · exact State.ReadsOn.of_eq rfl rfl
  · exact .ok _ s

theorem State.resync_readsOn (a : Nat) (s : State) : s.ReadsOnSat (s.resync a) :=
  .bind (s.skip_readsOn _) fun _ _ => State.ReadsOn.of_eq rfl rfl

theorem partPesPayload_readsOn (s : State) : s.ReadsOnSat (partPesPayload s) := by
  refine .bind (s.field_readsOn _) fun _ s1 => .bind (s1.field_readsOn _) fun _ s2 => .bind s2.off_readsOn
    fun a s3 => ?_
  split
  · exact .bind (State.readBytes_quiet _ s3).readsOn fun _ _ => .of_eq (State.pushEs_readsOn _) rfl rfl
  · exact s3.resync_readsOn a

/-- Every record's part, in any state. -/
theorem partOf_readsOn {i : Instr} {r : Rec} (hi : i.ctx = some (.record r)) (s : State) :
    s.ReadsOnSat (partOf i s) := by
  cases i <;> simp only [Instr.ctx, Option.some.injEq, Ctx.record.injEq, reduceCtorEq] at hi
  case packBody r => exact partPackBody_readsOn r s
  case sysFixed => exact .bind (s.decodeFields_readsOn _ _) fun _ => sysLoop_readsOn
  case sysStream => exact .bind (s.decodeChild_readsOn _ _) fun _ => sysLoop_readsOn
  case psmFixed r => exact partPsmFixed_readsOn r s
  case psmEsmLength r => exact partPsmEsmLength_readsOn r s
  case psmEntry r => exact partPsmEntry_readsOn r s
  case psmCrc => exact .bind (s.decodeFields_readsOn _ _) fun _ => .ok _
  case pesBase r => exact partPesBase_readsOn r s
  case pesExtFlags => exact .bind (s.decodeFields_readsOn _ _) fun _ => firstGate_readsOn _
  case pesPrivateData => exact extBlock_readsOn .pesPrivateData [] 16 s
  case pesPackField | pesExt2 => exact extBlock_readsOn _ _ _ s
  case pesSeqCounter | pesPStd => exact extRecord_readsOn _ _ s
  all_goals exact baseRecord_readsOn _ _ s

/-! ### A step of the demux task, in any state -/

theorem State.runPart_readsOn {part : State → Res State Due} {s t : State} (hp : s.ReadsOnSat (part s))
    (h : s.runPart part = .next t) : s.ReadsOn t := by
  unfold State.runPart at h
  split at h
  · rcases hr : part s with ⟨d, s'⟩ | ⟨e, s'⟩ | x <;> rw [hr] at h hp <;> cases h
    · exact State.ReadsOn.trans hp (.of_eq (by simp) (by simp))
    · exact State.ReadsOn.trans hp (.of_eq (by simp) (by simp))
  · cases h
    exact .refl s

theorem State.fetchStart_readsOn (s : State) : s.ReadsOnSat s.fetchStart :=
  .bind s.off_readsOn fun _ _ => .of_eq (State.read_quiet 32 _).readsOn rfl rfl

theorem State.startPacket_readsOn {k : PacketKind} {first : Rec} {s t : State}
    (h : s.startPacket k first = .next t) : s.ReadsOn t := by
  unfold State.startPacket at h
  have hf := s.fetchStart_readsOn
  split at h
  · rcases hr : s.fetchStart with ⟨v, s'⟩ | ⟨e, s'⟩ | x <;> rw [hr] at h hf <;> cases h
    · exact State.ReadsOn.trans hf (.of_eq rfl rfl)
    · exact State.ReadsOn.trans hf (.of_eq rfl rfl)
  · cases h
    exact .refl s

theorem State.badStart_readsOn {s t : State} (h : s.badStart = .next t) : s.ReadsOn t := by
  unfold State.badStart at h
  have hf := s.fetchStart_readsOn
  rcases hr : s.fetchStart with ⟨v, s'⟩ | ⟨e, s'⟩ | x <;> rw [hr] at h hf <;> cases h
  · exact State.ReadsOn.trans hf (.of_eq rfl rfl)
  · exact State.ReadsOn.trans hf (.of_eq rfl rfl)

theorem State.loopTop_readsOn {s t : State} (h : s.loopTop = some (.next t)) : s.ReadsOn t := by
  unfold State.loopTop at h
  have ho := s.off_readsOn
  split at h
  · cases h
    exact .of_eq rfl rfl
  · rcases hr : s.off with ⟨a, s'⟩ | ⟨e, s'⟩ | x <;> rw [hr] at h ho
    · dsimp only at h
      split at h <;> cases h
      exact State.ReadsOn.trans ho (.of_eq rfl rfl)
    · cases h
      exact State.ReadsOn.trans ho (.of_eq rfl rfl)
    · cases h

/-- A step of the demux task, from any state, moves the reader on over the same inputs. -/
theorem taskStep_readsOn {s t : State} (h : taskStep s = .next t) : s.ReadsOn t := by
  unfold taskStep at h
  split at h
  case isFalse =>
    cases h
    exact .refl s
  case isTrue =>
    split at h
    · split at h
      · rename_i ho
        exact State.loopTop_readsOn (h ▸ ho)
      · split at h
        · rename_i hdec
          obtain ⟨k, rfl⟩ := decodeWord_startCode hdec
          exact State.startPacket_readsOn (exec_startInstr k s ▸ h)
        · exact State.badStart_readsOn h
    · rename_i r _
      rw [exec_record (ctx_decodeRecord r _)] at h
      exact State.runPart_readsOn (partOf_readsOn (ctx_decodeRecord r _) s) h
    · exact State.runPart_readsOn (partPesStuffing_readsOn s) h
    · exact State.runPart_readsOn (partPesPayload_readsOn s) h
    · exact State.runPart_readsOn s.pushEs_readsOn h
    · cases h
      exact .of_eq (by simp) (by simp)

/-! ### O55 -/

/-- Every request leaves the reader coherent: it is moved on, left alone, or put to byte 0. -/
theorem State.RequestMove.readerInv {s t : State} (h : s.RequestMove t) (hi : s.ReaderInv) : t.ReaderInv := by
  cases h with
  | op _ _ h => exact h.coherent hi
  | started | reset => exact Reader.coherent_atByte (Nat.zero_le _)
  | answered | cancel | popEvt | popEs => exact hi

/-- Settles O55: a step is a move of the demux task, which reads on, or a request. -/
theorem readerInvKept : Obligations.ReaderInvKept := by
  intro s t hi h
  obtain ⟨ts, h | ⟨i, h⟩⟩ := step_inv h
  · exact (taskStep_readsOn h).coherent hi
  · exact (requestStep_inv h).readerInv hi

/-! ### The invariants of a run -/

/-- What `RunInvKept` says of one state. -/
structure State.RunInv (s : State) : Prop where
  task : s.TaskInv
  err : s.ErrInv
  out : s.OutInv

/-- The demux task is inside a packet: it owns the tree of the packet's kind (10_state.md R29). -/
structure State.InPacket (s : State) : Prop where
  running : s.run = .running
  tree : ∃ t, s.ft = some t ∧ t.name = .kind s.pkt.kind ∧ t.value = (codeOfKind s.pkt.kind).setWidth 64
  startCode : s.pkt.startCode = codeOfKind s.pkt.kind

/-- A state that the end of a packet may be taken from: whatever is due, the cursor is aligned unless an error is held
pending. -/
structure State.PacketEnd (s : State) : Prop where
  inPacket : s.InPacket
  aligned : s.work.pending = none → s.rd.bitpos % 8 = 0
  err : s.ErrInv
  out : s.OutInv

/-- Outside a run nothing is asked of the task. -/
theorem State.TaskInv.of_not_running {s : State} (h : s.run ≠ .running) : s.TaskInv :=
  ⟨fun hr => absurd hr h, fun hr => absurd hr h, fun hr => absurd hr h, fun hr => absurd hr h⟩

/-- The invariant looks at the phase, the reader, the packet registers, the tree and the working values only. -/
theorem State.TaskInv.of_eq {s t : State} (h : s.TaskInv) (hrun : t.run = s.run) (hrd : t.rd = s.rd)
    (hpkt : t.pkt = s.pkt) (hft : t.ft = s.ft) (hwork : t.work = s.work) : t.TaskInv := by
  obtain ⟨aligned, pendingAtEnd, atTop, inPacket⟩ := h
  constructor <;> simp only [hrun, hrd, hpkt, hft, hwork] <;> assumption

/-- At the loop top the task needs an aligned cursor and no packet (42_demux_loop.md R141). -/
theorem State.TaskInv.of_top {s : State} (ha : s.rd.bitpos % 8 = 0) (hft : s.ft = none) (hw : s.work = Work.none) :
    s.TaskInv where
  aligned _ _ := ha
  pendingAtEnd _ h := absurd (by rw [hw]; rfl) h
  atTop _ _ := ⟨hft, hw⟩
  inPacket _ h := absurd (by rw [hw]; rfl) h

theorem State.TaskInv.isInPacket {s : State} (h : s.TaskInv) (hr : s.run = .running) (hd : s.work.due ≠ .top) :
    s.InPacket := by
  obtain ⟨t, ht, hn, hv, -, hc, -⟩ := h.inPacket hr hd
  exact ⟨hr, ⟨t, ht, hn, hv⟩, hc⟩

/-- Before the end of a packet no error is pending (42_demux_loop.md R145). -/
theorem State.TaskInv.not_pending {s : State} (h : s.TaskInv) (hr : s.run = .running) (hd : s.work.due ≠ .finish) :
    s.work.pending = none :=
  Classical.byContradiction fun hp => hd (h.pendingAtEnd hr hp)

theorem State.ErrInv.quiet_of_running {s : State} (h : s.ErrInv) (hr : s.run = .running) : s.err = ⟨0, 0, 0⟩ :=
  h.quiet (by rw [hr]; simp)

/-- The invariant looks at the error registers, the phase and the pending error only. -/
theorem State.ErrInv.of_eq {s t : State} (h : s.ErrInv) (hr : t.run = s.run) (he : t.err = s.err)
    (hp : t.work.pending = s.work.pending) : t.ErrInv := by
  obtain ⟨quiet, code, pending⟩ := h
  exact ⟨by rwa [hr, he], by rwa [hr, he], by rwa [hp]⟩

/-- The registers after an abort hold the code of an error that can end a run (60_exceptions.md R266, R267). -/
theorem State.ErrInv.abort {s : State} {e : Err}
    (he : e = .unexpectedEndOfData ∨ e = .unknownStartCode ∨ e = .checkLength ∨ e = .formatMismatch) :
    (s.abort e).ErrInv where
  quiet h := absurd rfl h
  code _ := by rcases he with rfl | rfl | rfl | rfl <;> simp [Err.code]
  pending := .inl rfl

/-- The invariant looks at the ports, their logs and the capacities only. -/
theorem State.OutInv.of_eq {s t : State} (h : s.OutInv) (henv : t.env = s.env) (hevt : t.evt = s.evt)
    (hes : t.es = s.es) (htree : t.tree = s.tree) (hevtLog : t.evtLog = s.evtLog) (hesLog : t.esLog = s.esLog)
    (htreeLog : t.treeLog = s.treeLog) : t.OutInv := by
  obtain ⟨h1, h2, h3, h4, h5, h6, h7, h8⟩ := h
  constructor <;> simp only [henv, hevt, hes, htree, hevtLog, hesLog, htreeLog] <;> assumption

/-! ### The end of a packet -/

theorem State.ErrInv.endPacket {s : State} (h : s.ErrInv) (hr : s.run = .running) : s.endPacket.ErrInv := by
  rcases hp : s.work.pending with _ | e
  · rw [State.endPacket_none hp]
    exact ⟨fun _ => h.quiet_of_running hr, fun ha => absurd (hr.symm.trans ha) (by simp), .inl rfl⟩
  · rw [State.endPacket_some hp]
    have hc := h.pending
    simp only [hp, Option.some.injEq, reduceCtorEq, false_or] at hc
    exact .abort (hc.imp_right .inr)

theorem State.OutInv.endPacket {s : State} (h : s.OutInv) : s.endPacket.OutInv := by
  rcases hp : s.work.pending with _ | e
  · rw [State.endPacket_none hp]
    exact h.of_eq rfl rfl rfl rfl rfl rfl rfl
  · rw [State.endPacket_some hp]
    exact h.of_eq rfl rfl rfl rfl rfl rfl rfl

theorem State.PacketEnd.endPacket {s : State} (h : s.PacketEnd) : s.endPacket.RunInv where
  task := by
    rcases hp : s.work.pending with _ | e
    · rw [State.endPacket_none hp]
      exact .of_top (h.aligned hp) rfl rfl
    · rw [State.endPacket_some hp]
      exact .of_not_running (by simp)
  err := h.err.endPacket h.inPacket.running
  out := h.out.endPacket

/-- The push of an event keeps the ports: its tree is the packet's, and there is room for it (42_demux_loop.md R146). -/
theorem State.OutInv.pushEvent {s : State} (h : s.OutInv) (hin : s.InPacket) (hk : s.pkt.kind ≠ .packHeader)
    (hroom : s.evt.length ≤ s.env.qdepthLess1) : s.pushEvent.OutInv := by
  obtain ⟨t, ht, hn, hv⟩ := hin.tree
  have htree : s.theTree = t := by simp [State.theTree, ht]
  exact {
    evtTail := List.suffix_append_self_iff.2 h.evtTail
    esTail := h.esTail
    treeTail := List.suffix_append_self_iff.2 h.treeTail
    treeWithEvt := by simpa using h.treeWithEvt
    evtRoom := by simpa using hroom
    esRoom := h.esRoom
    trees := List.rel_append h.trees (.cons (by rw [htree]; exact ⟨hn, hv⟩) .nil)
    noPackHeader := fun e he => by
      rcases List.mem_append.1 he with he | he
      · exact h.noPackHeader e he
      · rw [List.mem_singleton.1 he]
        exact hk }

/-- The end of a packet, waiting or taken, keeps the invariants (42_demux_loop.md R146 to R148). -/
theorem State.PacketEnd.finishPacket {s : State} (h : s.PacketEnd) : s.finishPacket.RunInv := by
  rcases s.finishPacket_cases with ⟨-, -, heq⟩ | ⟨hk, hroom, heq⟩ | ⟨-, heq⟩ <;> rw [heq]
  · obtain ⟨t, ht, hn, hv⟩ := h.inPacket.tree
    exact {
      task := {
        aligned := fun _ => h.aligned
        pendingAtEnd := fun _ _ => rfl
        atTop := fun _ hd => nomatch hd
        inPacket := fun _ _ => ⟨t, ht, hn, hv, List.forall_mem_nil _, h.inPacket.startCode, rfl⟩ }
      err := h.err.of_eq rfl rfl rfl
      out := h.out.of_eq rfl rfl rfl rfl rfl rfl rfl }
  · refine State.PacketEnd.endPacket ⟨?_, h.aligned, h.err.of_eq rfl rfl rfl, h.out.pushEvent h.inPacket hk hroom⟩
    exact ⟨h.inPacket.running, h.inPacket.tree, h.inPacket.startCode⟩
  · exact h.endPacket

/-! ### The moves of the demux task -/

section Advances

variable {s s' : State}

theorem State.Advances.inPacket (h : s.Advances s') (hin : s.InPacket) : s'.InPacket := by
  obtain ⟨t, ht, hn, hv⟩ := hin.tree
  obtain ⟨t', ht', hn', hv', -⟩ := h.grown t ht
  exact ⟨h.run.trans hin.running, ⟨t', ht', by rw [hn', hn, h.pkt], by rw [hv', hv, h.pkt]⟩,
    by rw [h.pkt]; exact hin.startCode⟩

theorem State.Advances.errInv (h : s.Advances s') (hi : s.ErrInv) : s'.ErrInv := hi.of_eq h.run h.err h.pending

theorem State.Advances.outInv (h : s.Advances s') (hi : s.OutInv) : s'.OutInv :=
  hi.of_eq h.env h.evt h.es h.tree h.evtLog h.esLog h.treeLog

end Advances

section Moves

variable {s : State} (hi : s.RunInv) (hr : s.run = .running)
include hi hr

/-- A record or the stuffing decoded: what is due next stands in the same packet with the fields it reads back. -/
theorem State.RunInv.goTo_of_partOk {d : Due} {s' : State} (hd : s.work.due ≠ .top) (hf : s.work.due ≠ .finish)
    (h : s.PartOk s.work.due d s') : (s'.goTo d).RunInv := by
  obtain ⟨hadv, halign, ⟨t, ht, hneeds⟩, htop, -, hkind⟩ := h
  have hin := hadv.inPacket (hi.task.isInPacket hr hd)
  have hp : s'.work.pending = none := hadv.pending.trans (hi.task.not_pending hr hf)
  by_cases hfin : d = .finish
  · subst hfin
    exact State.PacketEnd.finishPacket ⟨hin, fun _ => halign, hadv.errInv hi.err, hadv.outInv hi.out⟩
  · rw [State.goTo_of_ne hfin]
    obtain ⟨u, hu, hn, hv⟩ := hin.tree
    obtain rfl : u = t := Option.some.inj (hu.symm.trans ht)
    obtain ⟨-, -, -, -, -, -, hofKind⟩ := hi.task.inPacket hr hd
    exact {
      task := {
        aligned := fun _ _ => halign
        pendingAtEnd := fun _ h => absurd hp h
        atTop := fun _ h => absurd h htop
        inPacket := fun _ _ => ⟨u, ht, hn, hv, hneeds, hin.startCode, by rw [hadv.pkt]; exact hkind _ hofKind⟩ }
      err := (hadv.errInv hi.err).of_eq rfl rfl rfl
      out := (hadv.outInv hi.out).of_eq rfl rfl rfl rfl rfl rfl rfl }

/-- An error raised inside a packet is held pending to the packet's end (60_exceptions.md R267). -/
theorem State.RunInv.raiseFatal {e : Err} {s' : State} (hd : s.work.due ≠ .top) (h : s.PartErr e s') :
    (s'.raiseFatal e).RunInv := by
  obtain ⟨hadv, he⟩ := h
  obtain ⟨hrun, htree, hcode⟩ := hadv.inPacket (hi.task.isInPacket hr hd)
  rw [State.raiseFatal_inPacket e (by rwa [hadv.due])]
  have herr := hadv.errInv hi.err
  exact State.PacketEnd.finishPacket {
    inPacket := ⟨hrun, htree, hcode⟩
    aligned := fun h => nomatch h
    err := ⟨herr.quiet, herr.code, .inr (by simpa using he)⟩
    out := (hadv.outInv hi.out).of_eq rfl rfl rfl rfl rfl rfl rfl }

/-- A packet that has pushed its payload keeps the invariants of its end (10_state.md R40). -/
theorem State.RunInv.finish_forwarded {s' : State} {rd : Reader} {bs : List Byte} (hd : s.work.due ≠ .top)
    (ha : rd.bitpos % 8 = 0) (hroom : s.es.length ≤ s.env.esDepthLess1)
    (hs : s' = { s with rd := rd, work := { s.work with payload := bs } }) : s'.forwarded.finishPacket.RunInv := by
  subst hs
  obtain ⟨hrun, htree, hcode⟩ := hi.task.isInPacket hr hd
  exact State.PacketEnd.finishPacket {
    inPacket := ⟨hrun, htree, hcode⟩
    aligned := fun _ => ha
    err := hi.err.of_eq rfl rfl rfl
    out := { hi.out with
      esTail := List.suffix_append_self_iff.2 hi.out.esTail
      esRoom := by simpa [State.forwarded] using hroom } }

/-- The payload read, forwarded or waiting, or discarded (47_pes_payload_resync.md R230). -/
theorem State.RunInv.goTo_of_payloadOk {d : Due} {s' : State} (hd : s.work.due = .payload) (h : s.PayloadOk d s') :
    (s'.goTo d).RunInv := by
  have htop : s.work.due ≠ .top := by simp [hd]
  have hfin : s.work.due ≠ .finish := by simp [hd]
  obtain ⟨t, ht, hn, hv, -, hcode, hkind⟩ := hi.task.inPacket hr htop
  rcases h with ⟨rd, p, bs, -, ha, hm, hroom⟩ | ⟨rd, p, bs, -, ha, hm, -⟩ | ⟨rd, p, -, ha, hm⟩
  · exact hi.finish_forwarded hr htop (hm.1 ▸ ha) hroom rfl
  · rw [State.goTo_of_ne (by simp)]
    rw [hd] at hkind
    exact {
      task := {
        aligned := fun _ _ => hm.1 ▸ ha
        pendingAtEnd := fun _ h => absurd (hi.task.not_pending hr hfin) h
        atTop := fun _ h => nomatch h
        inPacket := fun _ _ => ⟨t, ht, hn, hv, List.forall_mem_nil _, hcode, hkind⟩ }
      err := hi.err.of_eq rfl rfl rfl
      out := hi.out.of_eq rfl rfl rfl rfl rfl rfl rfl }
  · exact State.PacketEnd.finishPacket {
      inPacket := ⟨hr, ⟨t, ht, hn, hv⟩, hcode⟩
      aligned := fun _ => hm.1 ▸ ha
      err := hi.err.of_eq rfl rfl rfl
      out := hi.out.of_eq rfl rfl rfl rfl rfl rfl rfl }

/-- A start code dispatched: the tree is the root of the packet's kind, and its first record is due (42_demux_loop.md
R144). -/
theorem State.RunInv.dispatch {k : PacketKind} {rd : Reader} {p : Packet} (ha : rd.bitpos % 8 = 0) :
    (({ s with rd := rd, pkt := p } : State).dispatch k (firstRecord k)).RunInv where
  task := {
    aligned := fun _ _ => ha
    pendingAtEnd := fun _ h => absurd rfl h
    atTop := fun _ h => nomatch h
    inPacket := fun _ _ => ⟨Tree.ofKind k (codeOfKind k), rfl, rfl, rfl,
      by cases k <;> exact List.forall_mem_nil _, rfl, by cases k <;> rfl⟩ }
  err := ⟨fun _ => hi.err.quiet_of_running hr, fun h => absurd (hr.symm.trans h) (by simp), .inl rfl⟩
  out := hi.out.of_eq rfl rfl rfl rfl rfl rfl rfl

/-- Every move of the demux task keeps the invariants. -/
theorem State.TaskMove.runInv {t : State} (h : s.TaskMove t) : t.RunInv := by
  have hquiet := hi.err.quiet_of_running hr
  cases h with
  | cancelled | done =>
    exact ⟨.of_not_running (by simp), ⟨fun _ => hquiet, fun h => (nomatch h), hi.err.pending⟩,
      hi.out.of_eq rfl rfl rfl rfl rfl rfl rfl⟩
  | dispatched k rd hd hm =>
    have ha := hi.task.aligned hr (hi.task.not_pending hr (by simp [hd]))
    exact hi.dispatch hr (by have := hm.1; omega)
  | aborted e p rd q hd hq hm he =>
    exact ⟨.of_not_running (by simp), .abort (he.imp_right .inl), hi.out.of_eq rfl rfl rfl rfl rfl rfl rfl⟩
  | part d s' hd hf h => exact hi.goTo_of_partOk hr hd hf h
  | raised e s' hd h => exact hi.raiseFatal hr hd h
  | payload d s' hd h => exact hi.goTo_of_payloadOk hr hd h
  | pushed hd hroom =>
    have hf : s.work.due ≠ .finish := by simp [hd]
    exact hi.finish_forwarded hr (by simp [hd]) (hi.task.aligned hr (hi.task.not_pending hr hf)) hroom rfl
  | blocked => exact hi
  | finished hd =>
    exact State.PacketEnd.finishPacket
      ⟨hi.task.isInPacket hr (by simp [hd]), hi.task.aligned hr, hi.err, hi.out⟩

end Moves

/-! ### The moves of a request -/

/-- The ports as RESET leaves them, with whatever capacities. -/
theorem State.OutInv.of_empty {s : State} (hevt : s.evt = []) (hes : s.es = []) (htree : s.tree = [])
    (hevtLog : s.evtLog = []) (hesLog : s.esLog = []) (htreeLog : s.treeLog = []) : s.OutInv := by
  constructor <;> simp [hevt, hes, htree, hevtLog, hesLog, htreeLog]

theorem State.RunInv.of_reset (env : Env) (run : Phase) (reply : Reply) (hr : run ≠ .aborted) :
    ({ State.reset with env := env, run := run, reply := reply } : State).RunInv where
  task := .of_top rfl rfl rfl
  err := ⟨fun _ => rfl, fun ha => absurd ha hr, .inl rfl⟩
  out := .of_empty rfl rfl rfl rfl rfl rfl

/-- An operation of the BitReader or the Field Model outside a run. -/
theorem State.RunInv.of_quiet {s t : State} (hi : s.RunInv) (hr : s.run ≠ .running) (h : s.Quiet t) : t.RunInv where
  task := .of_not_running (by rwa [h.run])
  err := hi.err.of_eq h.run h.err (by rw [h.work])
  out := hi.out.of_eq h.env h.evt h.es h.tree h.evtLog h.esLog h.treeLog

/-- Every request keeps the invariants. -/
theorem State.RequestMove.runInv {s t : State} (hi : s.RunInv) (h : s.RequestMove t) : t.RunInv := by
  obtain ⟨htask, herr, hout⟩ := hi
  cases h with
  | op _ hr h => exact State.RunInv.of_quiet ⟨htask, herr, hout⟩ hr h
  | answered =>
    exact ⟨htask.of_eq rfl rfl rfl rfl rfl, herr.of_eq rfl rfl rfl, hout.of_eq rfl rfl rfl rfl rfl rfl rfl⟩
  | started => exact .of_reset s.env .running .done (by simp)
  | reset => exact .of_reset s.env .idle .done (by simp)
  | cancel => exact ⟨htask.of_eq rfl rfl rfl rfl rfl, herr.of_eq rfl rfl rfl, { hout with }⟩
  | popEvt e es h =>
    refine ⟨htask.of_eq rfl rfl rfl rfl rfl, herr.of_eq rfl rfl rfl, { hout with
      evtTail := ?_, treeTail := (List.tail_suffix _).trans hout.treeTail, treeWithEvt := ?_, evtRoom := ?_ }⟩
    · exact (List.suffix_cons e es).trans (h ▸ hout.evtTail)
    · simp [hout.treeWithEvt, h]
    · have hroom := hout.evtRoom
      rw [h, List.length_cons] at hroom
      exact Nat.le_of_succ_le hroom
  | popEs r rs h =>
    refine ⟨htask.of_eq rfl rfl rfl rfl rfl, herr.of_eq rfl rfl rfl, { hout with esTail := ?_, esRoom := ?_ }⟩
    · exact (List.suffix_cons r rs).trans (h ▸ hout.esTail)
    · have hroom := hout.esRoom
      rw [h, List.length_cons] at hroom
      exact Nat.le_of_succ_le hroom

/-! ### O56 -/

/-- Taking an entry from the agenda touches none of the invariants. -/
theorem State.RunInv.withTurns {s : State} (h : s.RunInv) (ts : List Turn) : (s.withTurns ts).RunInv := by
  obtain ⟨htask, herr, hout⟩ := h
  exact ⟨htask.of_eq rfl rfl rfl rfl rfl, herr.of_eq rfl rfl rfl, { hout with }⟩

/-- The demux task does not move outside a run (42_demux_loop.md R140). -/
theorem taskStep_eq_self {s : State} (hr : s.run ≠ .running) : taskStep s = .next s := by
  rw [taskStep, if_neg hr]

theorem taskStep_runInv {s t : State} (hi : s.RunInv) (h : taskStep s = .next t) : t.RunInv := by
  by_cases hr : s.run = .running
  · exact (taskStep_inv hi.task hr h).runInv hi hr
  · rw [taskStep_eq_self hr] at h
    cases h
    exact hi

/-- Settles O56: a step is a move of the demux task or a request, and each of the moves keeps the three invariants. -/
theorem runInvKept : Obligations.RunInvKept := by
  intro s t htask herr hout h
  obtain ⟨ts, h⟩ := step_inv h
  have hi : (s.withTurns ts).RunInv := State.RunInv.withTurns ⟨htask, herr, hout⟩ ts
  obtain ⟨task, err, out⟩ : t.RunInv := by
    rcases h with h | ⟨i, h⟩
    · exact taskStep_runInv hi h
    · exact (requestStep_inv h).runInv hi
  exact ⟨task, err, out⟩

/-! ### O60: the halted phases -/

theorem Phase.halted_ne {p : Phase} (h : p.halted = true) : p ≠ .idle ∧ p ≠ .running := by
  cases p <;> simp [Phase.halted] at h ⊢

/-- `t` is `s` but for what the last operation returned (log entry 7). -/
def State.SameButReply (s t : State) : Prop := t = { s with reply := t.reply }

theorem State.sameButReply_reply (s : State) (r : Reply) : s.SameButReply { s with reply := r } := rfl

/-- In a halted phase an operation that could change a register is not accepted (log entry 8). -/
theorem State.runOp_halted {α : Type} {op : State → Res State α} {reply : α → State → Reply} {s t : State}
    (hh : s.run.halted = true) (h : s.runOp op reply = .next t) : s.SameButReply t := by
  rw [State.runOp, if_pos hh] at h
  cases h
  exact s.sameButReply_reply _

/-- In a halted phase a request other than RESET, ConsumerPop and CANCEL changes nothing but the reply (10_state.md R32). -/
theorem requestStep_halted {i : Instr} {s t : State} (hh : s.run.halted = true) (hreset : i ≠ .reset)
    (hpop : ∀ p, i ≠ .consumerPop p) (hcancel : ∀ l, i ≠ .cancel l) (h : requestStep i s = .next t) :
    s.SameButReply t := by
  unfold requestStep at h
  split at h
  case isFalse =>
    cases h
    exact s.sameButReply_reply _
  case isTrue hacc =>
    cases i <;> simp only [State.accepts, Bool.false_eq_true] at hacc
    case reset => exact absurd rfl hreset
    case consumerPop p => exact absurd rfl (hpop p)
    case cancel l => exact absurd rfl (hcancel l)
    case size | summaryRead =>
      cases h
      exact s.sameButReply_reply _
    case peek | read | readBytes | skipBytes => exact State.runOp_halted hh h
    case decode =>
      rw [exec, execDecode] at h
      exact State.runOp_halted hh h
    case decodeNested =>
      rw [exec, execDecodeNested] at h
      exact State.runOp_halted hh h
    case offset =>
      simp only [exec, execOffset] at h
      split at h <;> cases h <;> exact s.sameButReply_reply _
    case readAt =>
      simp only [exec, execReadAt] at h
      split at h <;> cases h <;> exact s.sameButReply_reply _
    case get =>
      simp only [exec, execGet] at h
      split at h <;> cases h <;> exact s.sameButReply_reply _
    case start =>
      rw [exec, execStart, if_neg (Phase.halted_ne hh).1] at h
      cases h
      exact s.sameButReply_reply _
    case parseDetail =>
      rw [exec, execParseDetail, if_pos hh] at h
      split at h <;> cases h
      exact s.sameButReply_reply _

/-- Settles O60: the task does not move, and a request that is none of the three exceptions only answers. -/
theorem haltedStays : Obligations.HaltedStays := by
  intro s t hh h
  have hr := (Phase.halted_ne hh).2
  refine ⟨fun hts => ?_, fun ts hts => ?_, fun i ts hts hreset hpop hcancel => ?_⟩ <;> rw [step, hts] at h
  · cases (taskStep_eq_self hr).symm.trans h
    rfl
  · cases (taskStep_eq_self (s := s.withTurns ts) hr).symm.trans h
    rfl
  · exact requestStep_halted (s := s.withTurns ts) hh hreset hpop hcancel h

/-! ### O54: the state after reset -/

/-- No packet has been counted after reset. -/
theorem reset_countInv : State.reset.CountInv := by
  constructor <;> simp [State.openPacket, State.openPes]

/-- Settles O54: the reader stands at byte 0 of a source that holds nothing, the task at the loop top, the ports are
empty. -/
theorem invariantsAtReset : Obligations.InvariantsAtReset := by
  obtain ⟨htask, herr, hout⟩ := State.RunInv.of_reset Env.initial .idle .none (by simp)
  exact ⟨Reader.coherent_atByte (Nat.zero_le _), htask, herr, hout, reset_countInv, reset_memory_wf⟩

end Sys2Proof.Machine
end

section
/-! PROOFS of the statements of 20_memory.md: the bits of the source, split and across bytes; and what no step changes of
the source and the capacities. -/

namespace Sys2Proof.Machine

/-! ### O8: splitting a read -/

/-- The law of 20_memory.md R54. -/
theorem Memory.bits_add (m : Memory) (p n1 n2 : Nat) :
    m.bits p (n1 + n2) = m.bits p n1 * 2 ^ n2 + m.bits (p + n1) n2 := by
  induction n2 with
  | zero => simp [Memory.bits]
  | succ n2 ih =>
    rw [← Nat.add_assoc, Memory.bits, Memory.bits, ih, Nat.pow_succ, Nat.add_assoc p]
    ring

/-- The second part of a split read is what remains below the first. -/
theorem Memory.bits_add_mod (m : Memory) (p n1 n2 : Nat) : m.bits p (n1 + n2) % 2 ^ n2 = m.bits (p + n1) n2 := by
  rw [m.bits_add, Nat.mul_add_mod', Nat.mod_eq_of_lt (m.bits_lt _ _)]

/-- The first part of a split read is the high bits of the whole. -/
theorem Memory.bits_add_div (m : Memory) (p n1 n2 : Nat) : m.bits p (n1 + n2) / 2 ^ n2 = m.bits p n1 := by
  rw [m.bits_add, Nat.mul_comm, Nat.mul_add_div (Nat.two_pow_pos n2), Nat.div_eq_of_lt (m.bits_lt _ _), Nat.add_zero]

/-- From bit `k` to the end of a byte stand its low bits. -/
theorem Memory.bits_byte_low (m : Memory) (a : Nat) {k : Nat} (hk : k ≤ 8) :
    m.bits (8 * a + k) (8 - k) = (m.byte a).toNat % 2 ^ (8 - k) := by
  rw [← m.bits_byte, ← m.bits_add_mod, Nat.add_sub_cancel' hk]

/-- The first `n` bits of a byte are its high bits. -/
theorem Memory.bits_byte_high (m : Memory) (a : Nat) {n : Nat} (hn : n ≤ 8) :
    m.bits (8 * a) n = (m.byte a).toNat / 2 ^ (8 - n) := by
  rw [← m.bits_byte, ← m.bits_add_div _ _ (8 - n), Nat.add_sub_cancel' hn]

/-- A 32-bit field, aligned or not, is four bytes, the first the most significant. -/
theorem Memory.bits_four_bytes (m : Memory) (p : Nat) : m.bits p 32 =
    m.bits p 8 * 2 ^ 24 + m.bits (p + 8) 8 * 2 ^ 16 + m.bits (p + 16) 8 * 2 ^ 8 + m.bits (p + 24) 8 := by
  have h1 : m.bits p 32 = m.bits p 8 * 2 ^ 24 + m.bits (p + 8) 24 := m.bits_add p 8 24
  have h2 : m.bits (p + 8) 24 = m.bits (p + 8) 8 * 2 ^ 16 + m.bits (p + 16) 16 := m.bits_add (p + 8) 8 16
  have h3 : m.bits (p + 16) 16 = m.bits (p + 16) 8 * 2 ^ 8 + m.bits (p + 24) 8 := m.bits_add (p + 16) 8 8
  rw [h1, h2, h3, Nat.add_assoc, Nat.add_assoc]

/-- A field that begins at bit `k` of one byte and ends after `n` bits of the next. -/
theorem Memory.bits_across_bytes (m : Memory) (a : Nat) {k n : Nat} (hk : k ≤ 8) (hn : n ≤ 8) :
    m.bits (8 * a + k) (8 - k + n) =
      (m.byte a).toNat % 2 ^ (8 - k) * 2 ^ n + (m.byte (a + 1)).toNat / 2 ^ (8 - n) := by
  have hnext : 8 * a + k + (8 - k) = 8 * (a + 1) := by omega
  rw [m.bits_add, hnext, m.bits_byte_low a hk, m.bits_byte_high (a + 1) hn]

/-- Settles O8: the law, and its two consequences for bytes. -/
theorem splitReads : Obligations.SplitReads :=
  ⟨Memory.bits_add, Memory.bits_four_bytes, fun m a _ _ => m.bits_across_bytes a⟩

/-! ### O59: the source is fixed and the cursor goes forward -/

/-- `t` has the source and the capacities of `s`, the inputs that stay through a run (20_memory.md R60); the agenda and
CANCEL may differ. -/
structure State.SourceKept (s t : State) : Prop where
  src : t.env.src = s.env.src
  qdepth : t.env.qdepthLess1 = s.env.qdepthLess1
  esDepth : t.env.esDepthLess1 = s.env.esDepthLess1

theorem State.SourceKept.of_env {s t : State} (h : t.env = s.env) : s.SourceKept t := by
  constructor <;> rw [h]

/-- No request presents another source; START and RESET leave the inputs (log entry 2). -/
theorem State.RequestMove.sourceKept {s t : State} (h : s.RequestMove t) : s.SourceKept t := by
  cases h with
  | op _ _ h => exact .of_env h.env
  | answered | started | reset | popEvt | popEs => exact .of_env rfl
  | cancel => exact ⟨rfl, rfl, rfl⟩

/-- In a run only RESET moves the cursor back, and it ends the run (10_state.md R21). -/
theorem State.RequestMove.forward {s t : State} (h : s.RequestMove t) (hr : s.run = .running) (ht : t.run ≠ .idle) :
    s.rd.bitpos ≤ t.rd.bitpos := by
  cases h with
  | op _ hnot _ => exact absurd hr hnot
  | started hidle => exact absurd (hr.symm.trans hidle) (by simp)
  | reset => exact absurd rfl ht
  | answered | cancel | popEvt | popEs => exact Nat.le_refl _

/-- Settles O59: a step of the demux task reads on over the same inputs, and a request that could move the cursor back is
not taken in a run or ends it. -/
theorem sourceFixedCursorForward : Obligations.SourceFixedCursorForward := by
  intro s t h
  obtain ⟨ts, h⟩ := step_inv h
  obtain ⟨hkept, hforward⟩ : (s.withTurns ts).SourceKept t ∧
      ((s.withTurns ts).run = .running → t.run ≠ .idle → (s.withTurns ts).rd.bitpos ≤ t.rd.bitpos) := by
    rcases h with h | ⟨i, h⟩
    · have hon := taskStep_readsOn h
      exact ⟨.of_env hon.env, fun _ _ => hon.forward⟩
    · have hmove := requestStep_inv h
      exact ⟨hmove.sourceKept, hmove.forward⟩
  exact ⟨hkept.src, hkept.qdepth, hkept.esDepth, hforward⟩

end Sys2Proof.Machine
end

section
/-! PROOFS of the statements of 30_encoding.md. A record is decoded by the [hi:lo] columns of its table and encoded by
the widths in the order of the table; `Slices` is what the two have in common, and both directions follow from it. -/

namespace Sys2Proof.Machine

/-! ### Bytes and numbers -/

theorem beNat_lt (bs : List Byte) : beNat bs < 256 ^ bs.length := by
  induction bs using List.reverseRecOn with
  | nil => simp [beNat]
  | append_singleton bs b ih =>
    rw [beNat_append, List.length_append, List.length_singleton, Nat.pow_succ]
    have := b.isLt
    omega

theorem beBytes_concat (k v : Nat) : beBytes (k + 1) v = beBytes k (v / 256) ++ [BitVec.ofNat 8 v] := by
  induction k with
  | zero => simp [beBytes]
  | succ k ih =>
    rw [beBytes, ih, beBytes, Nat.div_div_eq_div_mul, Nat.pow_succ']
    rfl

/-- Bytes written most significant first are read back as the number, as far as they hold it (20_memory.md R52). -/
theorem beNat_beBytes (k v : Nat) : beNat (beBytes k v) = v % 256 ^ k := by
  induction k generalizing v with
  | zero => simp [beBytes, beNat, Nat.mod_one]
  | succ k ih =>
    rw [beBytes_concat, beNat_append, ih, BitVec.toNat_ofNat, Nat.pow_succ' (m := 256), Nat.mod_mul,
      Nat.mul_comm 256, Nat.add_comm]

/-- A string of bytes is its number written out. -/
theorem beBytes_beNat (bs : List Byte) : beBytes bs.length (beNat bs) = bs := by
  induction bs using List.reverseRecOn with
  | nil => rfl
  | append_singleton bs b ih =>
    have hb := b.isLt
    have hdiv : (beNat bs * 256 + b.toNat) / 256 = beNat bs := by omega
    have hlow : BitVec.ofNat 8 (beNat bs * 256 + b.toNat) = b := BitVec.eq_of_toNat_eq (by simp; omega)
    rw [beNat_append, List.length_append, List.length_singleton, beBytes_concat, hdiv, ih, hlow]

/-! ### Fields side by side -/

/-- Every value is one its width can hold. -/
def Fits (fs : List FieldVal) : Prop := ∀ f ∈ fs, f.value.toNat < 2 ^ f.width

/-- Each field is the bits of `w` in its [hi:lo] columns, the last field ending at bit 0 (00_scope.md R10). -/
def Slices (w : Nat) : List FieldVal → Prop
  | [] => True
  | f :: fs => f.value.toNat = fld w (bitsOf fs + f.width - 1) (bitsOf fs) ∧ Slices w fs

theorem FieldVal.value_of_lt (f : FieldName) {w : Nat} (v : BitVec w) : (FieldVal.of f v).value.toNat < 2 ^ w :=
  (Nat.mod_le _ _).trans_lt v.isLt

theorem fits_nil : Fits [] := fun _ h => nomatch h

theorem fits_cons (f : FieldVal) (fs : List FieldVal) : Fits (f :: fs) ↔ f.value.toNat < 2 ^ f.width ∧ Fits fs := by
  simp [Fits]

theorem fits_of_cons (f : FieldName) {w : Nat} (v : BitVec w) (fs : List FieldVal) :
    Fits (.of f v :: fs) ↔ Fits fs := by
  simp [fits_cons, FieldVal.value_of_lt]

/-- The first field stands above the bits of the others. -/
theorem packFields_cons (f : FieldVal) (fs : List FieldVal) :
    packFields (f :: fs) = f.value.toNat * 2 ^ bitsOf fs + packFields fs := by
  have key : ∀ (fs : List FieldVal) (a : Nat),
      fs.foldl (fun acc f => acc * 2 ^ f.width + f.value.toNat) a = a * 2 ^ bitsOf fs + packFields fs := by
    intro fs
    induction fs with
    | nil => simp [packFields]
    | cons f fs ih =>
      intro a
      simp only [packFields, List.foldl_cons]
      rw [ih, ih (0 * 2 ^ f.width + _), bitsOf_cons, pow_add]
      ring
  simpa [packFields] using key fs f.value.toNat

theorem packFields_lt {fs : List FieldVal} (h : Fits fs) : packFields fs < 2 ^ bitsOf fs := by
  induction fs with
  | nil => simp [packFields]
  | cons f fs ih =>
    obtain ⟨hf, hfs⟩ := (fits_cons f fs).1 h
    calc packFields (f :: fs)
      _ < (f.value.toNat + 1) * 2 ^ bitsOf fs := by
        rw [packFields_cons, Nat.succ_mul]
        exact Nat.add_lt_add_left (ih hfs) _
      _ ≤ 2 ^ bitsOf (f :: fs) := by
        rw [bitsOf_cons, pow_add]
        exact Nat.mul_le_mul_right _ hf

/-- A number up to bit `hi` is its [hi:lo] columns above the rest. -/
theorem mod_two_pow_add (w k n : Nat) (hn : 1 ≤ n) :
    w % 2 ^ (n + k) = fld w (k + n - 1) k * 2 ^ k + w % 2 ^ k := by
  have hhi : k + n - 1 - k + 1 = n := by omega
  rw [fld, hhi, Nat.add_comm n, pow_add, Nat.mod_mul, Nat.mul_comm, Nat.add_comm]

/-- Fields are the slices of a number exactly when placed side by side they make it. -/
theorem slices_iff {fs : List FieldVal} (w : Nat) (hn : Narrow fs) (hf : Fits fs) :
    Slices w fs ↔ packFields fs = w % 2 ^ bitsOf fs := by
  induction fs with
  | nil => simp [Slices, packFields, Nat.mod_one]
  | cons f fs ih =>
    obtain ⟨⟨hpos, -⟩, hn⟩ := (narrow_cons f fs).1 hn
    obtain ⟨-, hf⟩ := (fits_cons f fs).1 hf
    have hlow := packFields_lt hf
    have hmod : w % 2 ^ bitsOf fs < 2 ^ bitsOf fs := Nat.mod_lt _ (Nat.two_pow_pos _)
    rw [Slices, ih hn hf, packFields_cons, bitsOf_cons, mod_two_pow_add w _ _ hpos]
    constructor
    · rintro ⟨h1, h2⟩
      rw [h1, h2]
    · intro h
      have h1 := congrArg (· / 2 ^ bitsOf fs) h
      have h2 := congrArg (· % 2 ^ bitsOf fs) h
      simp only [Nat.mul_add_mod', Nat.mod_eq_of_lt hlow, Nat.mod_mod] at h2
      simp only [Nat.mul_comm _ (2 ^ bitsOf fs), Nat.mul_add_div (Nat.two_pow_pos _), Nat.div_eq_of_lt hlow,
        Nat.div_eq_of_lt hmod] at h1
      exact ⟨h1, h2⟩

/-- The fields an instruction carries hold typed values. -/
theorem fits_fields (i : Instr) : Fits i.fields := by
  cases i <;> simp only [Instr.fields, fits_nil, fieldsOfPackBody, fieldsOfSysFixed, fieldsOfSysStream, fieldsOfPsmFixed,
    fieldsOfPsmEsmLength, fieldsOfPsmEntry, fieldsOfPsmCrc, fieldsOfPesBase, fieldsOfPesPts, fieldsOfPesPtsDts,
    fieldsOfPesEscr, fieldsOfPesEsRate, fieldsOfPesTrick0, fieldsOfPesTrick1, fieldsOfPesTrick2, fieldsOfPesTrick3,
    fieldsOfPesTrick4, fieldsOfPesTrick5, fieldsOfPesTrick6, fieldsOfPesTrick7, fieldsOfPesCopyInfo, fieldsOfPesCrc,
    fieldsOfPesExtFlags, fieldsOfPesPackField, fieldsOfPesSeqCounter, fieldsOfPesPStd, fieldsOfPesExt2, fits_of_cons]

/-! ### Each record's decoder takes the slices -/

/-- A field of at most 64 bits is the slice its decoder takes. -/
theorem ofNat_fld_eq_iff (f : FieldName) {n : Nat} (v : BitVec n) (w lo : Nat) (h1 : 1 ≤ n) (h64 : n ≤ 64) :
    BitVec.ofNat n (fld w (lo + n - 1) lo) = v ↔ (FieldVal.of f v).value.toNat = fld w (lo + n - 1) lo := by
  have hv : (FieldVal.of f v).value.toNat = v.toNat :=
    Nat.mod_eq_of_lt (v.isLt.trans_le (Nat.pow_le_pow_right (by decide) h64))
  have hw : fld w (lo + n - 1) lo < 2 ^ n := by
    have hhi : lo + n - 1 - lo + 1 = n := by omega
    rw [fld, hhi]
    exact Nat.mod_lt _ (Nat.two_pow_pos n)
  rw [hv, ← BitVec.toNat_inj, BitVec.toNat_ofNat, Nat.mod_eq_of_lt hw, eq_comm]

theorem slices_of_cons (w : Nat) (f : FieldName) {n : Nat} (v : BitVec n) (fs : List FieldVal) (h1 : 1 ≤ n)
    (h64 : n ≤ 64) :
    Slices w (.of f v :: fs) ↔ BitVec.ofNat n (fld w (bitsOf fs + n - 1) (bitsOf fs)) = v ∧ Slices w fs := by
  rw [Slices, FieldVal.width_of, ofNat_fld_eq_iff f v w _ h1 h64]

@[simp] theorem slices_nil (w : Nat) : Slices w [] := trivial

theorem decodePackBody_eq_iff (w : Nat) (r : PackBody) : decodePackBody w = r ↔ Slices w (fieldsOfPackBody r) := by
  cases r
  simp [decodePackBody, fieldsOfPackBody, slices_of_cons]

theorem decodeSysFixed_eq_iff (w : Nat) (r : SysFixed) : decodeSysFixed w = r ↔ Slices w (fieldsOfSysFixed r) := by
  cases r
  simp [decodeSysFixed, fieldsOfSysFixed, slices_of_cons]

theorem decodeSysStream_eq_iff (w : Nat) (r : SysStream) : decodeSysStream w = r ↔ Slices w (fieldsOfSysStream r) := by
  cases r
  simp [decodeSysStream, fieldsOfSysStream, slices_of_cons]

theorem decodePsmFixed_eq_iff (w : Nat) (r : PsmFixed) : decodePsmFixed w = r ↔ Slices w (fieldsOfPsmFixed r) := by
  cases r
  simp [decodePsmFixed, fieldsOfPsmFixed, slices_of_cons]

theorem decodePsmEsmLength_eq_iff (w : Nat) (r : PsmEsmLength) :
    decodePsmEsmLength w = r ↔ Slices w (fieldsOfPsmEsmLength r) := by
  cases r
  simp [decodePsmEsmLength, fieldsOfPsmEsmLength, slices_of_cons]

theorem decodePsmEntry_eq_iff (w : Nat) (r : PsmEntry) : decodePsmEntry w = r ↔ Slices w (fieldsOfPsmEntry r) := by
  cases r
  simp [decodePsmEntry, fieldsOfPsmEntry, slices_of_cons]

theorem decodePsmCrc_eq_iff (w : Nat) (r : PsmCrc) : decodePsmCrc w = r ↔ Slices w (fieldsOfPsmCrc r) := by
  cases r
  simp [decodePsmCrc, fieldsOfPsmCrc, slices_of_cons]

theorem decodePesBase_eq_iff (w : Nat) (r : PesBase) : decodePesBase w = r ↔ Slices w (fieldsOfPesBase r) := by
  cases r
  simp [decodePesBase, fieldsOfPesBase, slices_of_cons]

theorem decodePesPts_eq_iff (w : Nat) (r : PesPts) : decodePesPts w = r ↔ Slices w (fieldsOfPesPts r) := by
  cases r
  simp [decodePesPts, fieldsOfPesPts, slices_of_cons]

theorem decodePesPtsDts_eq_iff (w : Nat) (r : PesPtsDts) : decodePesPtsDts w = r ↔ Slices w (fieldsOfPesPtsDts r) := by
  cases r
  simp [decodePesPtsDts, fieldsOfPesPtsDts, slices_of_cons]

theorem decodePesEscr_eq_iff (w : Nat) (r : PesEscr) : decodePesEscr w = r ↔ Slices w (fieldsOfPesEscr r) := by
  cases r
  simp [decodePesEscr, fieldsOfPesEscr, slices_of_cons]

theorem decodePesEsRate_eq_iff (w : Nat) (r : PesEsRate) : decodePesEsRate w = r ↔ Slices w (fieldsOfPesEsRate r) := by
  cases r
  simp [decodePesEsRate, fieldsOfPesEsRate, slices_of_cons]

theorem decodePesCopyInfo_eq_iff (w : Nat) (r : PesCopyInfo) :
    decodePesCopyInfo w = r ↔ Slices w (fieldsOfPesCopyInfo r) := by
  cases r
  simp [decodePesCopyInfo, fieldsOfPesCopyInfo, slices_of_cons]

theorem decodePesCrc_eq_iff (w : Nat) (r : PesCrc) : decodePesCrc w = r ↔ Slices w (fieldsOfPesCrc r) := by
  cases r
  simp [decodePesCrc, fieldsOfPesCrc, slices_of_cons]

theorem decodePesExtFlags_eq_iff (w : Nat) (r : PesExtFlags) :
    decodePesExtFlags w = r ↔ Slices w (fieldsOfPesExtFlags r) := by
  cases r
  simp [decodePesExtFlags, fieldsOfPesExtFlags, slices_of_cons]

theorem decodePesPackField_eq_iff (w : Nat) (r : PesPackField) :
    decodePesPackField w = r ↔ Slices w (fieldsOfPesPackField r) := by
  cases r
  simp [decodePesPackField, fieldsOfPesPackField, slices_of_cons]

theorem decodePesSeqCounter_eq_iff (w : Nat) (r : PesSeqCounter) :
    decodePesSeqCounter w = r ↔ Slices w (fieldsOfPesSeqCounter r) := by
  cases r
  simp [decodePesSeqCounter, fieldsOfPesSeqCounter, slices_of_cons]

theorem decodePesPStd_eq_iff (w : Nat) (r : PesPStd) : decodePesPStd w = r ↔ Slices w (fieldsOfPesPStd r) := by
  cases r
  simp [decodePesPStd, fieldsOfPesPStd, slices_of_cons]

theorem decodePesExt2_eq_iff (w : Nat) (r : PesExt2) : decodePesExt2 w = r ↔ Slices w (fieldsOfPesExt2 r) := by
  cases r
  simp [decodePesExt2, fieldsOfPesExt2, slices_of_cons]

/-- The selector [7:5] and the tail it selects (30_encoding.md R84): each of its eight values against each of the eight
instructions. -/
theorem decodeTrick_eq_iff {i : Instr} (h : i.ctx = some (.record .pesTrick)) (w : Nat) :
    decodeTrick w = i ↔ Slices w i.fields := by
  have hsel : fld w 7 5 < 8 := Nat.mod_lt _ (by decide)
  cases i <;> simp only [Instr.ctx, Option.some.injEq, Ctx.record.injEq, reduceCtorEq] at h
  case pesTrick0 r | pesTrick1 r | pesTrick2 r | pesTrick3 r | pesTrick4 r | pesTrick5 r | pesTrick6 r | pesTrick7 r =>
    cases r
    simp only [decodeTrick, Instr.fields, fieldsOfPesTrick0, fieldsOfPesTrick1, fieldsOfPesTrick2, fieldsOfPesTrick3,
      fieldsOfPesTrick4, fieldsOfPesTrick5, fieldsOfPesTrick6, fieldsOfPesTrick7, decodePesTrick0, decodePesTrick1,
      decodePesTrick2, decodePesTrick3, decodePesTrick4, decodePesTrick5, decodePesTrick6, decodePesTrick7]
    interval_cases hs : fld w 7 5 <;> simp [hs, slices_of_cons]

/-- The sixteen bytes of PES.private_data are one operand (30_encoding.md R88). -/
theorem decodePesPrivateData_eq_iff (w : Nat) (r : PesPrivateData) :
    decodePesPrivateData w = r ↔ r.data.toNat = w % 2 ^ 128 := by
  cases r
  simp [decodePesPrivateData, fld, ← BitVec.toNat_inj, eq_comm]

/-- A record is decoded to an instruction exactly when the instruction's fields are the slices of its bits. -/
theorem decodeRecord_eq_iff_slices {i : Instr} {r : Rec} (h : i.ctx = some (.record r)) (hr : r ≠ .pesPrivateData)
    (w : Nat) : decodeRecord r w = i ↔ Slices w i.fields := by
  cases i <;> simp only [Instr.ctx, Option.some.injEq, Ctx.record.injEq, reduceCtorEq] at h <;> subst h
  case pesPrivateData => exact absurd rfl hr
  case packBody r => simp [decodeRecord, Instr.fields, decodePackBody_eq_iff]
  case sysFixed r => simp [decodeRecord, Instr.fields, decodeSysFixed_eq_iff]
  case sysStream r => simp [decodeRecord, Instr.fields, decodeSysStream_eq_iff]
  case psmFixed r => simp [decodeRecord, Instr.fields, decodePsmFixed_eq_iff]
  case psmEsmLength r => simp [decodeRecord, Instr.fields, decodePsmEsmLength_eq_iff]
  case psmEntry r => simp [decodeRecord, Instr.fields, decodePsmEntry_eq_iff]
  case psmCrc r => simp [decodeRecord, Instr.fields, decodePsmCrc_eq_iff]
  case pesBase r => simp [decodeRecord, Instr.fields, decodePesBase_eq_iff]
  case pesPts r => simp [decodeRecord, Instr.fields, decodePesPts_eq_iff]
  case pesPtsDts r => simp [decodeRecord, Instr.fields, decodePesPtsDts_eq_iff]
  case pesEscr r => simp [decodeRecord, Instr.fields, decodePesEscr_eq_iff]
  case pesEsRate r => simp [decodeRecord, Instr.fields, decodePesEsRate_eq_iff]
  case pesCopyInfo r => simp [decodeRecord, Instr.fields, decodePesCopyInfo_eq_iff]
  case pesCrc r => simp [decodeRecord, Instr.fields, decodePesCrc_eq_iff]
  case pesExtFlags r => simp [decodeRecord, Instr.fields, decodePesExtFlags_eq_iff]
  case pesPackField r => simp [decodeRecord, Instr.fields, decodePesPackField_eq_iff]
  case pesSeqCounter r => simp [decodeRecord, Instr.fields, decodePesSeqCounter_eq_iff]
  case pesPStd r => simp [decodeRecord, Instr.fields, decodePesPStd_eq_iff]
  case pesExt2 r => simp [decodeRecord, Instr.fields, decodePesExt2_eq_iff]
  all_goals exact decodeTrick_eq_iff rfl w

/-! ### The number an instruction's bits make -/

theorem word_eq_packFields {i : Instr} {r : Rec} (h : i.ctx = some (.record r)) (hr : r ≠ .pesPrivateData) :
    i.word = packFields i.fields := by
  cases i <;> simp only [Instr.ctx, Option.some.injEq, Ctx.record.injEq, reduceCtorEq] at h
  case pesPrivateData => exact absurd h.symm hr
  all_goals simp only [Instr.word, Instr.fields]

/-- The fields of a record's instruction are as wide as the record (30_encoding.md R72 to R92). -/
theorem bitsOf_fields {i : Instr} {r : Rec} (h : i.ctx = some (.record r)) (hr : r ≠ .pesPrivateData) :
    bitsOf i.fields = r.width := by
  cases i <;> simp only [Instr.ctx, Option.some.injEq, Ctx.record.injEq, reduceCtorEq] at h <;> subst h
  case pesPrivateData => exact absurd rfl hr
  all_goals simp [Instr.fields, Rec.width]

theorem exists_pesPrivateData {i : Instr} (h : i.ctx = some (.record .pesPrivateData)) :
    ∃ r, i = .pesPrivateData r := by
  cases i <;> simp only [Instr.ctx, Option.some.injEq, Ctx.record.injEq, reduceCtorEq] at h
  exact ⟨_, rfl⟩

theorem exists_startInstr {i : Instr} (h : i.ctx = some .startCode) : ∃ k, i = startInstr k := by
  cases i <;> simp only [Instr.ctx, Option.some.injEq, reduceCtorEq] at h
  exacts [⟨.packHeader, rfl⟩, ⟨.systemHeader, rfl⟩, ⟨.programStreamMap, rfl⟩, ⟨.videoPES, rfl⟩, ⟨.audioPES, rfl⟩]

theorem ctx_startInstr (k : PacketKind) : (startInstr k).ctx = some .startCode := by cases k <;> rfl

theorem word_startInstr (k : PacketKind) : (startInstr k).word = (codeOfKind k).toNat := by cases k <;> rfl

/-- Every record is whole bytes. -/
theorem pow_bytes_record (r : Rec) : 256 ^ (Ctx.record r).bytes = 2 ^ r.width := by cases r <;> rfl

/-- An instruction's number fits its bytes. -/
theorem word_lt {i : Instr} {c : Ctx} (h : i.ctx = some c) : i.word < 256 ^ c.bytes := by
  rcases c with _ | r
  · obtain ⟨k, rfl⟩ := exists_startInstr h
    rw [word_startInstr]
    exact (codeOfKind k).isLt
  · rw [pow_bytes_record]
    by_cases hr : r = .pesPrivateData
    · subst hr
      obtain ⟨r, rfl⟩ := exists_pesPrivateData h
      exact r.data.isLt
    · rw [word_eq_packFields h hr, ← bitsOf_fields h hr]
      exact packFields_lt (fits_fields i)

/-! ### The decoder and the encoder -/

/-- The five codes are told apart by all their bits (30_encoding.md R70). -/
theorem kindOfCode_eq_some_iff (c : StartCode) (k : PacketKind) : kindOfCode c = some k ↔ c = codeOfKind k := by
  constructor
  · intro h
    unfold kindOfCode at h
    split_ifs at h <;> cases h <;> assumption
  · rintro rfl
    cases k <;> rfl

theorem decodeWord_startCode_iff (w : Nat) (i : Instr) :
    decodeWord .startCode w = .ok i ↔ i.ctx = some .startCode ∧ i.word = w % 2 ^ 32 := by
  have key : ∀ k, kindOfCode (BitVec.ofNat 32 w) = some k ↔ (startInstr k).word = w % 2 ^ 32 := fun k => by
    rw [kindOfCode_eq_some_iff, word_startInstr, ← BitVec.toNat_inj, BitVec.toNat_ofNat, eq_comm]
  constructor
  · intro h
    simp only [decodeWord] at h
    split at h
    next k hk =>
      cases h
      exact ⟨ctx_startInstr k, (key k).1 hk⟩
    next => cases h
  · rintro ⟨hc, hw⟩
    obtain ⟨k, rfl⟩ := exists_startInstr hc
    simp only [decodeWord, (key k).2 hw]

theorem decodeRecord_eq_iff {i : Instr} {r : Rec} (h : i.ctx = some (.record r)) (w : Nat) :
    decodeRecord r w = i ↔ i.word = w % 2 ^ r.width := by
  by_cases hr : r = .pesPrivateData
  · subst hr
    obtain ⟨r, rfl⟩ := exists_pesPrivateData h
    simpa [decodeRecord, Instr.word, Rec.width] using decodePesPrivateData_eq_iff w r
  · rw [decodeRecord_eq_iff_slices h hr, slices_iff w (narrow_fields i) (fits_fields i), word_eq_packFields h hr,
      bitsOf_fields h hr]

/-- Bits decode to an instruction exactly when they are the instruction's bits. -/
theorem decodeWord_eq_ok_iff (c : Ctx) (w : Nat) (i : Instr) :
    decodeWord c w = .ok i ↔ i.ctx = some c ∧ i.word = w % 256 ^ c.bytes := by
  rcases c with _ | r
  · exact decodeWord_startCode_iff w i
  · rw [pow_bytes_record]
    constructor
    · rintro ⟨⟩
      have hc := ctx_decodeRecord r w
      exact ⟨hc, (decodeRecord_eq_iff hc w).1 rfl⟩
    · rintro ⟨hc, hw⟩
      rw [decodeWord, (decodeRecord_eq_iff hc w).2 hw]

/-- What the decoder answers: the instruction of the first bytes, and the others. -/
theorem decode_eq_ok_iff_word (c : Ctx) (bs rest : List Byte) (i : Instr) :
    decode c bs = .ok (i, rest) ↔
      c.bytes ≤ bs.length ∧ decodeWord c (beNat (bs.take c.bytes)) = .ok i ∧ bs.drop c.bytes = rest := by
  unfold decode
  split
  case isTrue hlt => simp [Nat.not_le.2 hlt]
  case isFalse hle => cases decodeWord c (beNat (bs.take c.bytes)) <;> simp [Nat.not_lt.1 hle]

theorem encode_eq {i : Instr} {c : Ctx} (h : i.ctx = some c) : encode i = beBytes c.bytes i.word := by
  rw [encode, h]

/-- Bytes decode to an instruction and a rest exactly when they are the instruction's encoding and that rest. -/
theorem decode_eq_ok_iff (c : Ctx) (bs rest : List Byte) (i : Instr) :
    decode c bs = .ok (i, rest) ↔ i.ctx = some c ∧ bs = encode i ++ rest := by
  rw [decode_eq_ok_iff_word, decodeWord_eq_ok_iff]
  constructor
  · rintro ⟨hlen, ⟨hc, hw⟩, rfl⟩
    have htake : (bs.take c.bytes).length = c.bytes := List.length_take_of_le hlen
    have hlt := beNat_lt (bs.take c.bytes)
    have hbytes := beBytes_beNat (bs.take c.bytes)
    rw [htake] at hlt hbytes
    rw [encode_eq hc, hw, Nat.mod_eq_of_lt hlt, hbytes, List.take_append_drop]
    exact ⟨hc, rfl⟩
  · rintro ⟨hc, rfl⟩
    have hlen := length_encode hc
    have hword : beNat (encode i) = i.word := by rw [encode_eq hc, beNat_beBytes, Nat.mod_eq_of_lt (word_lt hc)]
    rw [List.take_left' hlen, List.drop_left' hlen, hword, Nat.mod_eq_of_lt (word_lt hc)]
    exact ⟨by simp [hlen], ⟨hc, rfl⟩, rfl⟩

/-! ### O1, O2, O3 -/

/-- Settles O1: from right to left in `decode_eq_ok_iff`. -/
theorem decodeOfEncode : Obligations.DecodeOfEncode := by
  intro i c rest h
  exact (decode_eq_ok_iff c _ rest i).2 ⟨h, rfl⟩

/-- Settles O2: from left to right in `decode_eq_ok_iff`. -/
theorem encodeOfDecode : Obligations.EncodeOfDecode := by
  intro c bs rest i h
  exact (decode_eq_ok_iff c bs rest i).1 h

/-- Settles O3: the decoder run on each of the seven words. -/
theorem writtenWordsDecode : Obligations.WrittenWordsDecode := by
  unfold Obligations.WrittenWordsDecode
  decide

/-! ### O36: the order of the conditional records -/

/-- The flag of a gate has the gate's value. -/
def Tree.passes (t : Tree) (g : Gate) : Bool := t.fieldOf g.flag == some g.value

/-- The records whose gates pass, in the order of the gates (30_encoding.md R95). -/
def Tree.wanted (t : Tree) (gs : List Gate) : List Rec := (gs.filter t.passes).map Gate.record

@[simp] theorem Tree.wanted_nil (t : Tree) : t.wanted [] = [] := rfl

theorem Tree.wanted_cons (t : Tree) (g : Gate) (gs : List Gate) :
    t.wanted (g :: gs) = (if t.passes g then [g.record] else []) ++ t.wanted gs := by
  unfold Tree.wanted
  rw [List.filter_cons]
  split <;> rfl

theorem Tree.mem_records_of_wanted (t : Tree) {gs : List Gate} {r : Rec} (h : r ∈ t.wanted gs) :
    r ∈ gs.map Gate.record := by
  obtain ⟨g, hg, rfl⟩ := List.mem_map.1 h
  exact List.mem_map_of_mem (List.mem_of_mem_filter hg)

/-- A gate compares the value its flag has in the tree. -/
theorem Tree.passes_eq {t : Tree} {f : FieldName} {n : Nat} (h : t.fieldOf f = some n) (v : Nat) (r : Rec) :
    t.passes ⟨f, v, r⟩ = decide (n = v) := by
  simp [Tree.passes, h, beq_eq_decide]

theorem dueAfter_eq_dueOf (gs : List Gate) (t : Tree) : dueAfter gs t = dueOf (t.wanted gs).head? := by
  unfold dueAfter Tree.wanted
  rw [List.head?_map, List.head?_filter]
  cases h : gs.find? t.passes <;> unfold Tree.passes at h <;> simp [h, dueOf]

/-- After a gate that passes, whose record no other gate has, those that pass are the rest of them. -/
theorem Tree.wanted_gatesAfter (t : Tree) {gs : List Gate} (hnd : (gs.map Gate.record).Nodup) {pre post : List Rec}
    {r : Rec} (h : t.wanted gs = pre ++ r :: post) : t.wanted (gatesAfter r gs) = post := by
  induction gs generalizing pre with
  | nil => simp at h
  | cons g gs ih =>
    obtain ⟨hg, hnd⟩ := List.nodup_cons.1 hnd
    have hne : ∀ {pre}, t.wanted gs = pre ++ r :: post → g.record ≠ r := fun hr heq =>
      hg (heq ▸ t.mem_records_of_wanted (by simp [hr]))
    rw [Tree.wanted_cons] at h
    rw [gatesAfter]
    split_ifs at h with hpasses
    · cases pre with
      | nil =>
        obtain ⟨hrec, hpost⟩ := List.cons.inj h
        rw [if_pos hrec]
        exact hpost
      | cons x pre =>
        obtain ⟨-, h⟩ := List.cons.inj h
        rw [if_neg (hne h), ih hnd h]
    · rw [if_neg (hne h), ih hnd h]

/-- The records due one after another are those whose gates pass. -/
theorem dueAfter_in_order (t : Tree) {gs : List Gate} (hnd : (gs.map Gate.record).Nodup) :
    dueAfter gs t = dueOf (t.wanted gs).head? ∧
      ∀ pre r post, t.wanted gs = pre ++ r :: post → dueAfter (gatesAfter r gs) t = dueOf post.head? := by
  refine ⟨dueAfter_eq_dueOf gs t, fun pre r post h => ?_⟩
  rw [dueAfter_eq_dueOf, t.wanted_gatesAfter hnd h]

/-- Settles O36: in such a tree the gates that pass are those of the records the flags ask for. -/
theorem recordOrder : Obligations.RecordOrder := by
  constructor
  · intro b t hpts hescr hrate htrick hcopy hcrc hext
    have hwanted : t.wanted baseGates = wantedBase b := by
      simp only [baseGates, Tree.wanted_cons, Tree.wanted_nil, Tree.passes_eq hpts, Tree.passes_eq hescr,
        Tree.passes_eq hrate, Tree.passes_eq htrick, Tree.passes_eq hcopy, Tree.passes_eq hcrc, Tree.passes_eq hext,
        wantedBase, ← BitVec.toNat_inj]
      by_cases h2 : b.PTS_DTS_flags.toNat = 2 <;> simp [h2]
    rw [← hwanted]
    exact dueAfter_in_order t (by decide)
  · intro e t hpriv hpack hseq hpstd hext2
    have hwanted : t.wanted extGates = wantedExt e := by
      simp [extGates, Tree.wanted_cons, Tree.passes_eq hpriv, Tree.passes_eq hpack, Tree.passes_eq hseq,
        Tree.passes_eq hpstd, Tree.passes_eq hext2, wantedExt, ← BitVec.toNat_inj]
    rw [← hwanted]
    exact dueAfter_in_order t (by decide)

end Sys2Proof.Machine
end

section
/-! PROOFS of the statements of 40_bitreader.md: how an operation outside a run answers, what the reader serves, each
operation as an instruction, the laws of a sequence of reads, and that the demux task is never refused. -/

namespace Sys2Proof.Machine

/-! ### An operation as an instruction -/

theorem Phase.not_halted_of_idle {p : Phase} (h : p = .idle) : p.halted = false := by
  rw [h]
  rfl

section RunOp

variable {α : Type} {op : State → Res State α} {reply : α → State → Reply} {s s' : State}

theorem State.runOp_ok {a : α} (hh : s.run.halted = false) (h : op s = .ok a s') :
    s.runOp op reply = .next { s' with reply := reply a s' } := by
  rw [State.runOp, if_neg (by simp [hh]), h]

/-- Outside a run an error goes back to the caller (60_exceptions.md R269). -/
theorem State.runOp_raise {e : Err} (hr : s.run = .idle) (h : op s = .raise e s') :
    s.runOp op reply = .next { s' with reply := .raised e } := by
  rw [State.runOp, if_neg (by simp [Phase.not_halted_of_idle hr]), h]
  exact if_neg (by simp [hr])

theorem State.runOp_refuse {x : Refusal} (hh : s.run.halted = false) (h : op s = .refuse x) :
    s.runOp op reply = .refused x := by
  rw [State.runOp, if_neg (by simp [hh]), h]

/-- The two ways an operation in IDLE answers: with what it returns, or with the error it raised. -/
theorem State.runOp_inv {t : State} (hr : s.run = .idle) (h : s.runOp op reply = .next t) :
    (∃ a s', op s = .ok a s' ∧ t = { s' with reply := reply a s' }) ∨
      ∃ e s', op s = .raise e s' ∧ t = { s' with reply := .raised e } := by
  rcases ho : op s with ⟨a, s'⟩ | ⟨e, s'⟩ | x
  · rw [State.runOp_ok (Phase.not_halted_of_idle hr) ho] at h
    cases h
    exact .inl ⟨a, s', rfl, rfl⟩
  · rw [State.runOp_raise hr ho] at h
    cases h
    exact .inr ⟨e, s', rfl, rfl⟩
  · rw [State.runOp_refuse (Phase.not_halted_of_idle hr) ho] at h
    cases h

end RunOp

/-! ### What the reader serves -/

/-- A request of `n` bits that is answered with a value: it has a bit, the window can serve it and the source holds its
bits (40_bitreader.md R113, R116, R122); `State.peek_ok` and `State.peek_of_serves` say so. -/
structure State.Serves (s : State) (n : Nat) : Prop where
  pos : 1 ≤ n
  window : n + s.rd.bitpos % 8 ≤ 64
  inside : s.rd.bitpos + n ≤ 8 * s.env.src.sizeN

/-- The machine with the window made ready for `n` bits (40_bitreader.md R113). -/
def State.readied (n : Nat) (s : State) : State := { s with rd := s.rd.ready s.env.src n }

/-- The machine after the internal advance of `n` bits (40_bitreader.md R114). -/
def State.advanced (n : Nat) (s : State) : State := { s with rd := s.rd.advance n }

theorem State.peek_of_serves {s : State} {n : Nat} (h : s.Serves n) :
    s.peek n = .ok (s.env.src.bits s.rd.bitpos n) (s.readied n) := by
  rw [State.peek, Reader.peek_eq_ok h.pos h.window h.inside]
  rfl

theorem State.peek_ok {s s' : State} {n v : Nat} (h : s.peek n = .ok v s') :
    s.Serves n ∧ v = s.env.src.bits s.rd.bitpos n ∧ s' = s.readied n := by
  have hsat := s.peek_sat n
  rw [h] at hsat
  obtain ⟨hpos, hwindow, hinside, -⟩ := hsat
  have hs : s.Serves n := ⟨hpos, hwindow, hinside⟩
  rw [State.peek_of_serves hs] at h
  cases h
  exact ⟨hs, rfl, rfl⟩

/-- `read(n)` is `peek(n)` and the advance (40_bitreader.md R114). -/
theorem State.read_eq_peek_bind (n : Nat) (s : State) :
    s.read n = (s.peek n).bind fun v s' => .ok v (s'.advanced n) := by
  unfold State.read State.peek Reader.read
  cases s.rd.peek s.env.src n <;> rfl

theorem State.read_of_peek_ok {s s' : State} {n v : Nat} (h : s.peek n = .ok v s') :
    s.read n = .ok v (s'.advanced n) := by
  rw [State.read_eq_peek_bind, h, Res.bind_ok]

theorem State.read_of_peek_raise {s s' : State} {n : Nat} {e : Err} (h : s.peek n = .raise e s') :
    s.read n = .raise e s' := by
  rw [State.read_eq_peek_bind, h, Res.bind_raise]

theorem State.read_of_peek_refuse {s : State} {n : Nat} {x : Refusal} (h : s.peek n = .refuse x) :
    s.read n = .refuse x := by
  rw [State.read_eq_peek_bind, h, Res.bind_refuse]

theorem State.read_of_serves {s : State} {n : Nat} (h : s.Serves n) :
    s.read n = .ok (s.env.src.bits s.rd.bitpos n) ((s.readied n).advanced n) :=
  State.read_of_peek_ok (State.peek_of_serves h)

theorem State.read_ok {s s' : State} {n v : Nat} (h : s.read n = .ok v s') :
    s.Serves n ∧ v = s.env.src.bits s.rd.bitpos n ∧ s' = (s.readied n).advanced n := by
  have hsat := s.read_sat n
  rw [h] at hsat
  obtain ⟨hpos, hwindow, hinside, -⟩ := hsat
  have hs : s.Serves n := ⟨hpos, hwindow, hinside⟩
  rw [State.read_of_serves hs] at h
  cases h
  exact ⟨hs, rfl, rfl⟩

/-- A peek that raises leaves the machine as it was (log entry 11). -/
theorem State.peek_raise {s s' : State} {n : Nat} {e : Err} (h : s.peek n = .raise e s') : s' = s := by
  have hsat := s.peek_sat n
  rw [h] at hsat
  exact hsat.1

theorem State.peek_zero (s : State) : s.peek 0 = .refuse .zeroBits := rfl

theorem State.peek_tooLong {s : State} {n : Nat} (h : 64 < n) : s.peek n = .raise .requestTooLong s := by
  rw [State.peek, Reader.peek, if_neg (by omega), if_pos h]
  rfl

theorem State.peek_windowLimit {s : State} {n : Nat} (hn : n ≤ 64) (hw : 64 < n + s.rd.bitpos % 8) :
    s.peek n = .refuse .windowLimit := by
  rw [State.peek, Reader.peek, if_neg (by omega), if_neg (by omega), if_pos hw]
  rfl

theorem State.peek_pastEnd {s : State} {n : Nat} (h1 : 1 ≤ n) (hw : n + s.rd.bitpos % 8 ≤ 64)
    (he : 8 * s.env.src.sizeN < s.rd.bitpos + n) : s.peek n = .raise .unexpectedEndOfData s := by
  rw [State.peek, Reader.peek, if_neg (by omega), if_neg (by omega), if_neg (by omega), if_pos he]
  rfl

/-! ### A second refill does nothing -/

theorem Reader.fetch_remaining (m : Memory) {k : Nat} {r : Reader} (h : r.remaining.toNat + 8 * k ≤ 64) :
    (r.fetch m k).remaining.toNat = r.remaining.toNat + 8 * k := by
  induction k generalizing r with
  | zero => rfl
  | succ k ih =>
    have hbyte : (r.fetchByte m).remaining.toNat = r.remaining.toNat + 8 := by
      rw [Reader.fetchByte_remaining]
      bv_omega
    rw [Reader.fetch, ih (by omega), hbyte]
    omega

theorem Reader.fetch_srcCursor (m : Memory) {k : Nat} {r : Reader} (h : r.srcCursor.toNat + k < 2 ^ 64) :
    (r.fetch m k).srcCursor.toNat = r.srcCursor.toNat + k := by
  induction k generalizing r with
  | zero => rfl
  | succ k ih =>
    have hbyte : (r.fetchByte m).srcCursor.toNat = r.srcCursor.toNat + 1 := by
      rw [Reader.fetchByte_srcCursor]
      bv_omega
    rw [Reader.fetch, ih (by omega), hbyte]
    omega

/-- A refill stops at a full window or at the end of the source, so a second one has no byte to fetch (40_bitreader.md
R112), whatever the registers hold. -/
theorem Reader.refill_refill (m : Memory) (r : Reader) : (r.refill m).refill m = r.refill m := by
  have hsize : m.sizeN < 2 ^ 64 := m.size.isLt
  by_cases hfull : 64 < r.remaining.toNat ∨ m.sizeN < r.srcCursor.toNat
  · have hnone : r.refill m = r := by
      rw [Reader.refill, show min ((64 - r.remaining.toNat) / 8) (m.sizeN - r.srcCursor.toNat) = 0 by omega]
      rfl
    rw [hnone, hnone]
  · rw [not_or, Nat.not_lt, Nat.not_lt] at hfull
    obtain ⟨hrem, hsrc⟩ := hfull
    have hrem' : (r.refill m).remaining.toNat = _ := Reader.fetch_remaining m (by omega)
    have hsrc' : (r.refill m).srcCursor.toNat = _ := Reader.fetch_srcCursor m (by omega)
    rw [Reader.refill, hrem', hsrc', show min _ _ = 0 by omega]
    rfl

theorem Reader.ready_of_le {m : Memory} {n : Nat} {r : Reader} (h : n ≤ r.remaining.toNat) : r.ready m n = r := by
  rw [Reader.ready, if_neg (by omega)]

theorem Reader.ready_ready (m : Memory) (n : Nat) (r : Reader) : (r.ready m n).ready m n = r.ready m n := by
  by_cases h : r.remaining.toNat < n
  · rw [show r.ready m n = r.refill m from if_pos h, Reader.ready, Reader.refill_refill, ite_self]
  · rw [Reader.ready_of_le (Nat.not_lt.1 h), Reader.ready_of_le (Nat.not_lt.1 h)]

@[simp] theorem State.readied_bitpos (n : Nat) (s : State) : (s.readied n).rd.bitpos = s.rd.bitpos :=
  Reader.ready_bitpos _ _ _

theorem State.Serves.movedTo_readied {s : State} {n : Nat} (h : s.Serves n) :
    s.rd.MovedTo s.env.src (s.readied n).rd s.rd.bitpos :=
  Reader.movedTo_of_peek_ok (Reader.peek_eq_ok h.pos h.window h.inside)

theorem State.Serves.movedTo_advanced {s : State} {n : Nat} (h : s.Serves n) :
    s.rd.MovedTo s.env.src ((s.readied n).advanced n).rd (s.rd.bitpos + n) :=
  Reader.movedTo_of_read_ok (Reader.read_eq_ok h.pos h.window h.inside)

/-- A request that is served finds its bits at the top of the window (40_bitreader.md R113). -/
theorem State.Serves.window_top {s : State} {n : Nat} (h : s.Serves n) (hc : s.rd.Coherent s.env.src) :
    n ≤ (s.readied n).rd.remaining.toNat ∧
      (s.readied n).rd.window.toNat / 2 ^ (64 - n) = s.env.src.bits s.rd.bitpos n := by
  obtain ⟨hready, hn⟩ := hc.ready h.window h.inside
  exact ⟨hn, by rw [← State.readied_bitpos n s]; exact hready.window_top hn⟩

/-! ### O9 and O10: peek and read -/

/-- The machine after a peek that delivered its bits. -/
def State.afterPeek (n : Nat) (s : State) : State :=
  { s.readied n with reply := .bits n (BitVec.ofNat 64 (s.env.src.bits s.rd.bitpos n)) }

/-- The machine after a read that delivered its bits. -/
def State.afterRead (n : Nat) (s : State) : State :=
  { (s.readied n).advanced n with reply := .bits n (BitVec.ofNat 64 (s.env.src.bits s.rd.bitpos n)) }

theorem exec_peek_of_serves {s : State} {n : Nat} (h : s.Serves n) (hh : s.run.halted = false) :
    exec (.peek n) s = .next (s.afterPeek n) :=
  State.runOp_ok hh (State.peek_of_serves h)

theorem exec_read_of_serves {s : State} {n : Nat} (h : s.Serves n) (hh : s.run.halted = false) :
    exec (.read n) s = .next (s.afterRead n) :=
  State.runOp_ok hh (State.read_of_serves h)

/-- In IDLE only a request that is served is answered with bits. -/
theorem exec_peek_inv {s t : State} {n : Nat} {v : Word} (h : exec (.peek n) s = .next t) (hv : t.reply = .bits n v)
    (hr : s.run = .idle) : s.Serves n ∧ t = s.afterPeek n := by
  obtain ⟨a, s', hp, rfl⟩ | ⟨e, s', -, rfl⟩ := State.runOp_inv hr h
  · obtain ⟨hs, rfl, rfl⟩ := State.peek_ok hp
    exact ⟨hs, rfl⟩
  · cases hv

theorem exec_read_inv {s t : State} {n : Nat} {v : Word} (h : exec (.read n) s = .next t) (hv : t.reply = .bits n v)
    (hr : s.run = .idle) : s.Serves n ∧ t = s.afterRead n := by
  obtain ⟨a, s', hp, rfl⟩ | ⟨e, s', -, rfl⟩ := State.runOp_inv hr h
  · obtain ⟨hs, rfl, rfl⟩ := State.read_ok hp
    exact ⟨hs, rfl⟩
  · cases hv

theorem exec_peek_of_refuse {s : State} {n : Nat} {x : Refusal} (hh : s.run.halted = false)
    (h : s.peek n = .refuse x) : exec (.peek n) s = .refused x :=
  State.runOp_refuse hh h

theorem exec_read_of_refuse {s : State} {n : Nat} {x : Refusal} (hh : s.run.halted = false)
    (h : s.read n = .refuse x) : exec (.read n) s = .refused x :=
  State.runOp_refuse hh h

/-- Settles O9: the four cases of `Reader.peek`, outside a run or served. -/
theorem peekRule : Obligations.PeekRule := by
  intro n s h1
  refine ⟨fun h64 hr => State.runOp_raise hr (State.peek_tooLong h64),
    fun h64 hw hh => exec_peek_of_refuse hh (State.peek_windowLimit h64 hw),
    fun hw he hr => State.runOp_raise hr (State.peek_pastEnd h1 hw he), fun hw he hh => ?_⟩
  have hs : s.Serves n := ⟨h1, hw, he⟩
  exact ⟨(s.readied n).rd, hs.movedTo_readied, Reader.ready_of_le, hs.window_top, exec_peek_of_serves hs hh⟩

/-- Settles O10: a read is the peek and the advance, or the peek's failure. -/
theorem readRule : Obligations.ReadRule := by
  intro n s
  refine ⟨fun h1 hw he hh => ?_, fun t v h hv hr => ?_, fun t e h he hr => ?_⟩
  · have hs : s.Serves n := ⟨h1, hw, he⟩
    exact ⟨_, hs.movedTo_advanced, exec_read_of_serves hs hh⟩
  · obtain ⟨hs, rfl⟩ := exec_peek_inv h hv hr
    exact exec_read_of_serves hs (Phase.not_halted_of_idle hr)
  · obtain ⟨a, s', -, rfl⟩ | ⟨e', s', hp, rfl⟩ := State.runOp_inv hr h
    · cases he
    · cases he
      obtain rfl := State.peek_raise hp
      exact ⟨State.runOp_raise hr (State.read_of_peek_raise hp), rfl⟩

/-! ### O11 to O14: the other operations -/

theorem State.readBytes_unaligned {s : State} (ha : s.rd.bitpos % 8 ≠ 0) (len : Nat) :
    s.readBytes len = .refuse .unalignedReadBytes := by
  rw [State.readBytes, Reader.readBytes, if_pos ha]
  rfl

theorem State.readBytes_of_inside {s : State} {len : Nat} (ha : s.rd.bitpos % 8 = 0)
    (he : s.rd.bitpos / 8 + len ≤ s.env.src.sizeN) :
    s.readBytes len = .ok (s.env.src.read (s.rd.bitpos / 8) len) { s with rd := s.rd.bulk len } := by
  rw [State.readBytes, Reader.readBytes_eq_ok ha he]
  rfl

theorem State.readBytes_pastEnd {s : State} {len : Nat} (ha : s.rd.bitpos % 8 = 0)
    (he : s.env.src.sizeN < s.rd.bitpos / 8 + len) : s.readBytes len = .raise .unexpectedEndOfData s := by
  rw [State.readBytes, Reader.readBytes, if_neg (by omega), if_pos he]
  rfl

@[simp] theorem Reader.bulk_zero (r : Reader) : r.bulk 0 = r := by
  simp [Reader.bulk]

theorem exec_offset_aligned {s : State} (ha : s.rd.bitpos % 8 = 0) :
    exec .offset s = .next { s with reply := .word (BitVec.ofNat 64 (s.rd.bitpos / 8)) } := by
  rw [exec, execOffset, Reader.offset_eq_ok ha]

theorem exec_offset_unaligned {s : State} (ha : s.rd.bitpos % 8 ≠ 0) :
    exec .offset s = .refused .unalignedOffset := by
  rw [exec, execOffset, Reader.offset, if_pos ha]

theorem exec_readAt_of_inside {s : State} {len pos : Nat} (h : pos + len ≤ s.env.src.sizeN) :
    exec (.readAt len pos) s = .next { s with reply := .bytes (s.env.src.read pos len) } := by
  rw [exec, execReadAt, Memory.readAt, if_pos h]

theorem exec_readAt_short {s : State} {len pos : Nat} (h : s.env.src.sizeN < pos + len) :
    exec (.readAt len pos) s = .next { s with reply := .shortRead } := by
  rw [exec, execReadAt, Memory.readAt, if_neg (Nat.not_le.2 h)]

/-- The bytes of the source a read delivers, each at its place (00_scope.md R11). -/
theorem Memory.getElem?_read_of_lt (m : Memory) (a : Nat) {len k : Nat} (hk : k < len) :
    (m.read a len)[k]? = some (m.byte (a + k)) := by
  rw [Memory.getElem?_read, if_pos hk]

/-- Settles O11: the first check of each operation that applies is the one that refuses. -/
theorem refusedRequests : Obligations.RefusedRequests := by
  intro s hh
  refine ⟨fun n hn hw => ?_, ?_, fun ha => ⟨fun len => ?_, exec_offset_unaligned ha⟩⟩
  · have hp := State.peek_windowLimit hn hw
    exact ⟨exec_peek_of_refuse hh hp, exec_read_of_refuse hh (State.read_of_peek_refuse hp)⟩
  · have hp := s.peek_zero
    exact ⟨exec_peek_of_refuse hh hp, exec_read_of_refuse hh (State.read_of_peek_refuse hp)⟩
  · exact State.runOp_refuse hh (State.readBytes_unaligned ha len)

/-- Settles O12: coherence puts the bits buffered between the cursor and `srcCursor`. -/
theorem offsetRule : Obligations.OffsetRule := by
  intro s ha
  refine ⟨exec_offset_aligned ha, fun hc => ?_⟩
  obtain ⟨-, -, hbits, -⟩ := hc
  omega

/-- Settles O13: `size` by definition, `readAt` by its one check. -/
theorem sizeAndReadAt : Obligations.SizeAndReadAt := fun len pos s =>
  ⟨rfl, fun h => ⟨s.env.src.read pos len, exec_readAt_of_inside h, Memory.length_read _ _ _,
    fun _ => Memory.getElem?_read_of_lt _ _⟩, exec_readAt_short⟩

/-- Settles O14: the bulk read of bytes the source holds, or the error that changes nothing. -/
theorem readBytesRule : Obligations.ReadBytesRule := by
  intro len s ha
  refine ⟨fun he hh => ?_, fun he hr => State.runOp_raise hr (State.readBytes_pastEnd ha he)⟩
  refine ⟨s.rd.bulk len, s.env.src.read (s.rd.bitpos / 8) len, ?_, ?_, Memory.length_read _ _ _,
    fun _ => Memory.getElem?_read_of_lt _ _, State.runOp_ok hh (State.readBytes_of_inside ha he)⟩
  · exact Reader.movedTo_of_readBytes_ok (Reader.readBytes_eq_ok ha he)
  · rintro rfl
    exact s.rd.bulk_zero

/-! ### O15: the laws of the BitReader -/

@[simp] theorem State.afterPeek_bitpos (n : Nat) (s : State) : (s.afterPeek n).rd.bitpos = s.rd.bitpos :=
  s.readied_bitpos n
@[simp] theorem State.afterRead_env (n : Nat) (s : State) : (s.afterRead n).env = s.env := rfl
@[simp] theorem State.afterRead_bitpos (n : Nat) (s : State) : (s.afterRead n).rd.bitpos = s.rd.bitpos + n := by
  simp [State.afterRead, State.advanced]
@[simp] theorem State.afterRead_reply (n : Nat) (s : State) :
    (s.afterRead n).reply = .bits n (BitVec.ofNat 64 (s.env.src.bits s.rd.bitpos n)) := rfl

/-- A sequence of reads goes on behind its first read, which was served. -/
theorem State.afterReads_cons {n : Nat} {ns : List Nat} {s t : State} (hr : s.run = .idle)
    (h : s.afterReads (n :: ns) = some t) : s.Serves n ∧ (s.afterRead n).afterReads ns = some t := by
  rw [State.afterReads] at h
  rcases hx : exec (.read n) s with u | x | x <;> simp only [hx, reduceCtorEq, Option.ite_none_right_eq_some] at h
  obtain ⟨hreply, h⟩ := h
  obtain ⟨hs, rfl⟩ := exec_read_inv hx hreply hr
  exact ⟨hs, h⟩

theorem State.afterReads_one {n : Nat} {s t : State} (hr : s.run = .idle) (h : s.afterReads [n] = some t) :
    s.Serves n ∧ t = s.afterRead n := by
  obtain ⟨hs, h⟩ := State.afterReads_cons hr h
  cases h
  exact ⟨hs, rfl⟩

/-- A sequence of reads moves the cursor by the sum of their widths (40_bitreader.md R121). -/
theorem State.afterReads_bitpos {ns : List Nat} {s t : State} (hr : s.run = .idle) (h : s.afterReads ns = some t) :
    t.rd.bitpos = s.rd.bitpos + ns.sum := by
  induction ns generalizing s with
  | nil =>
    cases h
    rfl
  | cons n ns ih =>
    obtain ⟨-, h⟩ := State.afterReads_cons hr h
    rw [ih (s := s.afterRead n) hr h, State.afterRead_bitpos, List.sum_cons, Nat.add_assoc]

/-- A second peek finds the window ready and the same bits. -/
@[simp] theorem State.afterPeek_afterPeek (n : Nat) (s : State) : (s.afterPeek n).afterPeek n = s.afterPeek n := by
  simp only [State.afterPeek, State.readied, Reader.ready_ready, Reader.ready_bitpos]

/-- A read after a peek of as many bits only moves the reader: the reply stands already. -/
theorem State.afterRead_afterPeek (n : Nat) (s : State) :
    (s.afterPeek n).afterRead n = { s.afterPeek n with rd := ((s.afterPeek n).afterRead n).rd } := by
  simp only [State.afterPeek, State.afterRead, State.readied, State.advanced, Reader.ready_bitpos]

theorem State.Serves.afterPeek {s : State} {n : Nat} (h : s.Serves n) : (s.afterPeek n).Serves n where
  pos := h.pos
  window := by rw [State.afterPeek_bitpos]; exact h.window
  inside := by rw [State.afterPeek_bitpos]; exact h.inside

/-- A peek that has been answered is answered the same again, and by the read after it. -/
theorem exec_after_peek {n : Nat} {s : State} (hs : s.Serves n) (hh : s.run.halted = false) :
    exec (.peek n) (s.afterPeek n) = .next (s.afterPeek n) ∧
      ∃ rd, rd.bitpos = s.rd.bitpos + n ∧ exec (.read n) (s.afterPeek n) = .next { s.afterPeek n with rd := rd } := by
  refine ⟨?_, ((s.afterPeek n).afterRead n).rd, by simp, ?_⟩
  · rw [exec_peek_of_serves hs.afterPeek hh, State.afterPeek_afterPeek]
  · rw [exec_read_of_serves hs.afterPeek hh, ← State.afterRead_afterPeek]

/-- At most 64 bits fit a register whole. -/
theorem Memory.toNat_ofNat_bits (m : Memory) (p : Nat) {n : Nat} (hn : n ≤ 64) :
    (BitVec.ofNat 64 (m.bits p n)).toNat = m.bits p n := by
  rw [BitVec.toNat_ofNat, Nat.mod_eq_of_lt ((m.bits_lt p n).trans_le (Nat.pow_le_pow_right two_pos hn))]

/-- Settles O15: a served peek keeps what the next request needs, reads add up their widths, and the bits of a wide read
are those of its two parts (20_memory.md R54). -/
theorem bitReaderLaws : Obligations.BitReaderLaws := by
  refine ⟨fun n v s t h hv hr => ?_, fun ns s t hr h0 h h8 => ?_, fun a b s t u w hr ht hu hw => ?_⟩
  · obtain ⟨hs, rfl⟩ := exec_peek_inv h hv hr
    exact exec_after_peek hs (Phase.not_halted_of_idle hr)
  · have hpos : t.rd.bitpos = ns.sum := by rw [State.afterReads_bitpos hr h, h0, Nat.zero_add]
    rw [← hpos]
    exact exec_offset_aligned (hpos ▸ h8)
  · obtain ⟨-, rfl⟩ := State.afterReads_one hr ht
    obtain ⟨-, rfl⟩ := State.afterReads_one (s := s.afterRead a) hr hu
    obtain ⟨hab, rfl⟩ := State.afterReads_one hr hw
    refine ⟨_, _, rfl, rfl, ?_, by simp [Nat.add_assoc]⟩
    have hwidth : a + b ≤ 64 := (Nat.le_add_right _ _).trans hab.window
    rw [State.afterRead_env, State.afterRead_bitpos, Memory.toNat_ofNat_bits _ _ (by omega),
      Memory.toNat_ofNat_bits _ _ (by omega), State.afterRead_reply, Memory.bits_add]

/-! ### O58: the demux task is never refused -/

/-- The loop top at an aligned cursor (42_demux_loop.md R141, R142). -/
theorem State.loopTop_eq {s : State} (ha : s.rd.bitpos % 8 = 0) : s.loopTop =
    if s.env.cancel then some (.next { s with run := .cancelled })
    else if s.rd.bitpos / 8 = s.env.src.sizeN then some (.next { s with run := .done })
    else none := by
  rw [State.loopTop, State.off_eq_ok ha]

/-- The start-code fetch at an aligned cursor is not refused (42_demux_loop.md R142). -/
theorem State.fetchStart_answers {s : State} (ha : s.rd.bitpos % 8 = 0) :
    (∃ v s', s.fetchStart = .ok v s') ∨ ∃ e s', s.fetchStart = .raise e s' := by
  have hf := State.fetchStart_sat ha
  cases hx : s.fetchStart with
  | ok v s' => exact .inl ⟨v, s', rfl⟩
  | raise e s' => exact .inr ⟨e, s', rfl⟩
  | refuse x => exact (hx ▸ hf).elim

theorem State.startPacket_answers {s : State} (ha : s.rd.bitpos % 8 = 0) (hr : s.run = .running) (k : PacketKind)
    (first : Rec) : ∃ t, s.startPacket k first = .next t := by
  rw [State.startPacket, if_pos hr]
  obtain ⟨v, s', h⟩ | ⟨e, s', h⟩ := State.fetchStart_answers ha <;> rw [h] <;> exact ⟨_, rfl⟩

theorem State.badStart_answers {s : State} (ha : s.rd.bitpos % 8 = 0) : ∃ t, s.badStart = .next t := by
  rw [State.badStart]
  obtain ⟨v, s', h⟩ | ⟨e, s', h⟩ := State.fetchStart_answers ha <;> rw [h] <;> exact ⟨_, rfl⟩

theorem State.retryEs_answers {s : State} (hr : s.run = .running) : ∃ t, s.retryEs = .next t := by
  rcases Nat.lt_or_ge s.env.esDepthLess1 s.es.length with hfull | hroom
  · exact ⟨_, State.runPart_ok hr (State.pushEs_of_full hfull)⟩
  · exact ⟨_, State.runPart_ok hr (State.pushEs_of_room hroom)⟩

/-- A part that is never refused answers as a step. -/
theorem State.runPart_answers {part : State → Res State Due} {s : State} {P : Due → State → Prop}
    {Q : Err → State → Prop} (hr : s.run = .running) (h : (part s).Sat P Q (fun _ => False)) :
    ∃ t, s.runPart part = .next t :=
  (State.runPart_sat hr h).imp fun _ => And.left

section Running

variable {s : State} (hi : s.TaskInv) (hr : s.run = .running)
include hi hr

/-- Before the end of a packet the cursor is aligned, so no operation there is refused (40_bitreader.md R116 to R118). -/
theorem State.TaskInv.aligned_of_ne_finish (hd : s.work.due ≠ .finish) : s.rd.bitpos % 8 = 0 :=
  hi.aligned hr (hi.not_pending hr hd)

/-- Inside a packet the tree has the fields that what is due reads back (41_field_model.md R133). -/
theorem State.TaskInv.exists_tree (hd : s.work.due ≠ .top) : ∃ t, s.ft = some t ∧ t.Has s.work.due.needs := by
  obtain ⟨t, ht, -, -, hneeds, -, -⟩ := hi.inPacket hr hd
  exact ⟨t, ht, hneeds⟩

/-- In a run the demux task answers whatever is due. -/
theorem State.TaskInv.taskStep_answers : ∃ t, taskStep s = .next t := by
  have haligned := hi.aligned_of_ne_finish hr
  have htree := hi.exists_tree hr
  rw [taskStep, if_pos hr]
  cases hd : s.work.due <;> rw [hd] at haligned htree
  case top =>
    have ha := haligned (by simp)
    rw [State.loopTop_eq ha]
    split_ifs
    · exact ⟨_, rfl⟩
    · exact ⟨_, rfl⟩
    · dsimp only
      cases hdec : decodeWord .startCode (s.env.src.bits s.rd.bitpos 32) with
      | ok i =>
        obtain ⟨k, rfl⟩ := decodeWord_startCode hdec
        dsimp only
        rw [exec_startInstr]
        exact State.startPacket_answers ha hr k (firstRecord k)
      | error e => exact State.badStart_answers ha
  case record r =>
    obtain ⟨t, ht, hneeds⟩ := htree (by simp)
    have hctx := ctx_decodeRecord r (s.env.src.bits s.rd.bitpos r.width)
    dsimp only
    rw [exec_record hctx]
    exact State.runPart_answers hr (partOf_part hctx ht (haligned (by simp)) hneeds)
  case stuffing =>
    obtain ⟨t, ht, hneeds⟩ := htree (by simp)
    exact State.runPart_answers hr (partPesStuffing_part ht (haligned (by simp)) hneeds)
  case payload =>
    obtain ⟨t, ht, hneeds⟩ := htree (by simp)
    exact State.runPart_answers hr (partPesPayload_part ht (haligned (by simp)) hneeds)
  case pushEs => exact State.retryEs_answers hr
  case finish => exact ⟨_, rfl⟩

end Running

/-- Settles O58: in a run the task answers by its invariant, and elsewhere it does not move. -/
theorem taskNeverStops : Obligations.TaskNeverStops := by
  intro s hi hts
  rw [step, hts]
  by_cases hr : s.run = .running
  · exact hi.taskStep_answers hr
  · exact ⟨s, taskStep_eq_self hr⟩

end Sys2Proof.Machine
end

section
/-! PROOFS of the statements of 41_field_model.md: what a record built from field values decodes to, and `decode`,
`decodeNested`, `get` and `skipBytes` as instructions. -/

namespace Sys2Proof.Machine

/-! ### The operands of a decode list -/

@[simp] theorem Memory.length_fields (m : Memory) (p : Nat) (spec : List (NodeName × Nat)) :
    (m.fields p spec).length = spec.length := by
  induction spec generalizing p with
  | nil => rfl
  | cons e spec ih => rw [Memory.fields, List.length_cons, ih, List.length_cons]

/-- The entries take the bits their widths add up to. -/
@[simp] theorem bitsOf_sourceFields (m : Memory) (p : Nat) (spec : List (NodeName × Nat)) :
    bitsOf (m.fields p spec) = (spec.map Prod.snd).sum := by
  induction spec generalizing p with
  | nil => rfl
  | cons e spec ih => rw [Memory.fields, bitsOf_cons, ih, List.map_cons, List.sum_cons]

theorem Memory.fields_append (m : Memory) (p : Nat) (pre post : List (NodeName × Nat)) :
    m.fields p (pre ++ post) = m.fields p pre ++ m.fields (p + (pre.map Prod.snd).sum) post := by
  induction pre generalizing p with
  | nil => rfl
  | cons e pre ih =>
    rw [List.cons_append, Memory.fields, ih, Memory.fields, List.map_cons, List.sum_cons, Nat.add_assoc,
      List.cons_append]

/-- The entry behind `pre` holds the bits at its place (41_field_model.md R131). -/
theorem Memory.fields_append_cons (m : Memory) (p : Nat) (pre : List (NodeName × Nat)) (x : NodeName) (w : Nat)
    (post : List (NodeName × Nat)) :
    m.fields p (pre ++ (x, w) :: post) = m.fields p pre ++
      ⟨x, w, BitVec.ofNat 64 (m.bits (p + (pre.map Prod.snd).sum) w)⟩ ::
        m.fields (p + (pre.map Prod.snd).sum + w) post := by
  rw [Memory.fields_append, Memory.fields]

theorem servedFrom_append (p : Nat) (fs gs : List FieldVal) :
    servedFrom p (fs ++ gs) ↔ servedFrom p fs ∧ servedFrom (p + bitsOf fs) gs := by
  induction fs generalizing p with
  | nil => simp [servedFrom]
  | cons f fs ih => simp only [List.cons_append, servedFrom, ih, bitsOf_cons, Nat.add_assoc, and_assoc]

/-- The entries before one are served where all are. -/
theorem servedFrom_fields_left {m : Memory} {p : Nat} {pre post : List (NodeName × Nat)}
    (h : servedFrom p (m.fields p (pre ++ post))) : servedFrom p (m.fields p pre) := by
  rw [Memory.fields_append, servedFrom_append] at h
  exact h.1

/-- Bits that are fields side by side are cut into those fields by their widths (41_field_model.md R135). -/
theorem Memory.fields_eq_of_bits {m : Memory} {p : Nat} {fs : List FieldVal} (hf : Fits fs)
    (hb : m.bits p (bitsOf fs) = packFields fs) : m.fields p (fs.map fun f => (f.name, f.width)) = fs := by
  induction fs generalizing p with
  | nil => rfl
  | cons f fs ih =>
    obtain ⟨-, hf⟩ := (fits_cons f fs).1 hf
    have hlow := packFields_lt hf
    rw [bitsOf_cons, packFields_cons] at hb
    have hfirst : m.bits p f.width = f.value.toNat := by
      rw [← m.bits_add_div p f.width (bitsOf fs), hb, Nat.mul_comm, Nat.mul_add_div (Nat.two_pow_pos _),
        Nat.div_eq_of_lt hlow, Nat.add_zero]
    have hrest : m.bits (p + f.width) (bitsOf fs) = packFields fs := by
      rw [← m.bits_add_mod, hb, Nat.mul_add_mod', Nat.mod_eq_of_lt hlow]
    rw [List.map_cons, Memory.fields, hfirst, ih hf hrest, BitVec.ofNat_toNat, BitVec.setWidth_eq]

/-! ### Decoding as an instruction -/

/-- An entry that passes the end of the source ends the decoding where the entries before it have led
(41_field_model.md R131). -/
theorem State.decodeFields_entry_pastEnd {place : Place} {m : Memory} {p w : Nat} {pre post : List (NodeName × Nat)}
    {x : NodeName} {s s' : State} (h : State.decodeFields place (m.fields p pre) s = .ok () s')
    (hp : s'.rd.bitpos = p + (pre.map Prod.snd).sum) (hs : servedFrom p (m.fields p (pre ++ (x, w) :: post)))
    (hlt : 8 * s'.env.src.sizeN < p + (pre.map Prod.snd).sum + w) :
    State.decodeFields place (m.fields p (pre ++ (x, w) :: post)) s = .raise .unexpectedEndOfData s' := by
  rw [Memory.fields_append_cons, servedFrom_append, bitsOf_sourceFields] at hs
  obtain ⟨-, hpos, hwindow, -⟩ := hs
  rw [← hp] at hwindow hlt
  rw [Memory.fields_append_cons, State.decodeFields_append, h, Res.bind_ok, State.decodeFields,
    State.read_eq_raise hpos hwindow hlt, Res.bind_raise]

/-- The same for the entries of a nested child (41_field_model.md R132). -/
theorem State.decodeChild_entry_pastEnd {child : NodeName} {m : Memory} {p w : Nat} {pre post : List (NodeName × Nat)}
    {x : NodeName} {s s' : State} (h : State.decodeChild child (m.fields p pre) s = .ok () s')
    (hp : s'.rd.bitpos = p + (pre.map Prod.snd).sum) (hs : servedFrom p (m.fields p (pre ++ (x, w) :: post)))
    (hlt : 8 * s'.env.src.sizeN < p + (pre.map Prod.snd).sum + w) :
    State.decodeChild child (m.fields p (pre ++ (x, w) :: post)) s = .raise .unexpectedEndOfData s' :=
  State.decodeFields_entry_pastEnd h hp hs hlt

section Decode

variable {s : State} {spec pre post : List (NodeName × Nat)} {x : NodeName} {w : Nat}

/-- `decode` of entries that lie inside the source. -/
theorem exec_decode_of_inside (hh : s.run.halted = false)
    (hs : servedFrom s.rd.bitpos (s.env.src.fields s.rd.bitpos spec))
    (he : s.rd.bitpos + (spec.map Prod.snd).sum ≤ 8 * s.env.src.sizeN) :
    ∃ rd, s.rd.MovedTo s.env.src rd (s.rd.bitpos + (spec.map Prod.snd).sum) ∧
      exec (.decode spec) s = .next { s with
        rd := rd, ft := some (s.theTree.withFields (s.env.src.fields s.rd.bitpos spec)), reply := .done } := by
  obtain ⟨rd, hm, h⟩ := State.decodeFields_root_eq_ok s.withTree_ft hs (by simpa using he)
  rw [bitsOf_sourceFields] at hm
  refine ⟨rd, hm, ?_⟩
  rw [exec, execDecode, State.runOp_ok hh h]
  rfl

/-- `decodeNested` of entries that lie inside the source. -/
theorem exec_decodeNested_of_inside (child : NodeName) (hh : s.run.halted = false)
    (hs : servedFrom s.rd.bitpos (s.env.src.fields s.rd.bitpos spec))
    (he : s.rd.bitpos + (spec.map Prod.snd).sum ≤ 8 * s.env.src.sizeN) :
    ∃ rd, s.rd.MovedTo s.env.src rd (s.rd.bitpos + (spec.map Prod.snd).sum) ∧
      exec (.decodeNested spec child) s = .next { s with
        rd := rd, ft := some (s.theTree.withChild child (s.env.src.fields s.rd.bitpos spec)),
        reply := .node ⟨child, 0, (s.env.src.fields s.rd.bitpos spec).map fun f => ⟨f.name, f.value⟩⟩ } := by
  obtain ⟨rd, hm, h⟩ := State.decodeChild_eq_ok child s.withTree_ft hs (by simpa using he)
  rw [bitsOf_sourceFields] at hm
  refine ⟨rd, hm, ?_⟩
  rw [exec, execDecodeNested, State.runOp_ok hh h]
  simp [State.newNode, State.theTree, Tree.withChild]

/-- `decode` whose entry behind `pre` passes the end of the source. -/
theorem exec_decode_pastEnd (hr : s.run = .idle)
    (hs : servedFrom s.rd.bitpos (s.env.src.fields s.rd.bitpos (pre ++ (x, w) :: post)))
    (hpre : s.rd.bitpos + (pre.map Prod.snd).sum ≤ 8 * s.env.src.sizeN)
    (hlt : 8 * s.env.src.sizeN < s.rd.bitpos + (pre.map Prod.snd).sum + w) :
    ∃ rd, s.rd.MovedTo s.env.src rd (s.rd.bitpos + (pre.map Prod.snd).sum) ∧
      exec (.decode (pre ++ (x, w) :: post)) s = .next { s with
        rd := rd, ft := some (s.theTree.withFields (s.env.src.fields s.rd.bitpos pre)),
        reply := .raised .unexpectedEndOfData } := by
  obtain ⟨rd, hm, h⟩ := State.decodeFields_root_eq_ok s.withTree_ft (servedFrom_fields_left hs) (by simpa using hpre)
  rw [bitsOf_sourceFields] at hm
  have hraise := State.decodeFields_entry_pastEnd h hm.1 hs hlt
  refine ⟨rd, hm, ?_⟩
  rw [exec, execDecode, State.runOp_raise hr hraise]
  rfl

/-- `decodeNested` whose entry behind `pre` passes the end of the source. -/
theorem exec_decodeNested_pastEnd (child : NodeName) (hr : s.run = .idle)
    (hs : servedFrom s.rd.bitpos (s.env.src.fields s.rd.bitpos (pre ++ (x, w) :: post)))
    (hpre : s.rd.bitpos + (pre.map Prod.snd).sum ≤ 8 * s.env.src.sizeN)
    (hlt : 8 * s.env.src.sizeN < s.rd.bitpos + (pre.map Prod.snd).sum + w) :
    ∃ rd, s.rd.MovedTo s.env.src rd (s.rd.bitpos + (pre.map Prod.snd).sum) ∧
      exec (.decodeNested (pre ++ (x, w) :: post) child) s = .next { s with
        rd := rd, ft := some (s.theTree.withChild child (s.env.src.fields s.rd.bitpos pre)),
        reply := .raised .unexpectedEndOfData } := by
  obtain ⟨rd, hm, h⟩ := State.decodeChild_eq_ok child s.withTree_ft (servedFrom_fields_left hs) (by simpa using hpre)
  rw [bitsOf_sourceFields] at hm
  have hraise := State.decodeChild_entry_pastEnd h hm.1 hs hlt
  refine ⟨rd, hm, ?_⟩
  rw [exec, execDecodeNested, State.runOp_raise hr hraise]
  rfl

end Decode

/-! ### O5: the round trip -/

/-- The fields of a record at the cursor are cut out of the source again. -/
theorem Memory.fields_eq_of_word {m : Memory} {p : Nat} {i : Instr} {r : Rec} (hc : i.ctx = some (.record r))
    (hb : m.bits p r.width = i.word) : m.fields p (i.fields.map fun f => (f.name, f.width)) = i.fields := by
  by_cases hr : r = .pesPrivateData
  · subst hr
    obtain ⟨r, rfl⟩ := exists_pesPrivateData hc
    rfl
  · refine Memory.fields_eq_of_bits (fits_fields i) ?_
    rw [bitsOf_fields hc hr, hb, word_eq_packFields hc hr]

/-- The fields of a record take no more than the record; PES.private_data has none (30_encoding.md R88). -/
theorem bitsOf_fields_le {i : Instr} {r : Rec} (hc : i.ctx = some (.record r)) : bitsOf i.fields ≤ r.width := by
  by_cases hr : r = .pesPrivateData
  · subst hr
    obtain ⟨r, rfl⟩ := exists_pesPrivateData hc
    exact Nat.zero_le _
  · exact (bitsOf_fields hc hr).le

/-- Settles O5: what `decode` cuts out of the record's bits are the fields the record was built from. -/
theorem fieldModelRoundTrip : Obligations.FieldModelRoundTrip := by
  intro i r s t hc hh _ ht hin hb
  have hfields := Memory.fields_eq_of_word hc hb
  have hsum : ((i.fields.map fun f => (f.name, f.width)).map Prod.snd).sum = bitsOf i.fields := by
    rw [← bitsOf_sourceFields s.env.src s.rd.bitpos, hfields]
  have hle := bitsOf_fields_le hc
  have h := exec_decode_of_inside hh (hfields ▸ (narrow_fields i).servedFrom _) (by rw [hsum]; omega)
  rwa [hsum, hfields, show s.theTree = t by simp [State.theTree, ht]] at h

/-! ### O16 and O17: decode and decodeNested -/

/-- Settles O16: all entries lie inside the source, or one does not; and the value of each entry. -/
theorem decodeRule : Obligations.DecodeRule := by
  intro s
  refine ⟨fun _ => exec_decode_of_inside, fun _ _ _ _ => exec_decode_pastEnd, fun pre x w post => ?_⟩
  rw [Memory.fields_append_cons, List.getElem?_append_right (by simp)]
  simp

/-- Settles O17: as O16, the entries going to the one child. -/
theorem decodeNestedRule : Obligations.DecodeNestedRule := fun _ child =>
  ⟨fun _ => exec_decodeNested_of_inside child, fun _ _ _ _ => exec_decodeNested_pastEnd child⟩

/-! ### O18: get -/

theorem lookupNode_eq_none {name : NodeName} {ns : List Node} (h : ∀ n ∈ ns, n.name ≠ name) :
    lookupNode name ns = none := by
  induction ns with
  | nil => rfl
  | cons n ns ih =>
    obtain ⟨hn, hns⟩ := List.forall_mem_cons.1 h
    rw [lookupNode, if_neg hn, ih hns]

/-- Of the children that bear a name the first is found (log entry 30). -/
theorem lookupNode_eq_some {name : NodeName} {pre post : List Node} {n : Node} (hn : n.name = name)
    (hpre : ∀ m ∈ pre, m.name ≠ name) : lookupNode name (pre ++ n :: post) = some n.value := by
  rw [lookupNode_append, lookupNode_eq_none hpre, Option.none_or, lookupNode, if_pos hn]

theorem exec_get_of_lookup {s : State} {t : Tree} {name : NodeName} {v : Word} (ht : s.ft = some t)
    (h : lookupNode name t.children = some v) : exec (.get name) s = .next { s with reply := .word v } := by
  simp only [exec, execGet, State.get, ht, h]

theorem exec_get_absent {s : State} {t : Tree} {name : NodeName} (ht : s.ft = some t)
    (h : lookupNode name t.children = none) : exec (.get name) s = .refused .absentName := by
  simp only [exec, execGet, State.get, ht, h]

/-- Settles O18: the lookup in the root's children, which the reply is not part of. -/
theorem getRule : Obligations.GetRule := by
  intro s t name ht
  refine ⟨fun pre n post hsplit hn hpre => ?_, fun h => exec_get_absent ht (lookupNode_eq_none h)⟩
  have hlook : lookupNode name t.children = some n.value := hsplit ▸ lookupNode_eq_some hn hpre
  refine ⟨exec_get_of_lookup ht hlook, fun u hu => ?_⟩
  rw [exec_get_of_lookup ht hlook] at hu
  cases hu
  exact exec_get_of_lookup ht hlook

/-! ### O19: skipBytes -/

/-- A skip of no bytes leaves the machine as it was. -/
theorem State.skip_zero {s : State} (he : s.rd.bitpos ≤ 8 * s.env.src.sizeN) : s.skip 0 = .ok () s := by
  rw [State.skip, Reader.skipBytes_eq_ok (by simpa using he), Reader.bulk_zero, Reader.dropBytes, ite_self]
  rfl

/-- Settles O19: no byte, some bytes of the source, or more than it has. -/
theorem skipBytesRule : Obligations.SkipBytesRule := by
  intro n s
  refine ⟨fun he hh => ?_, fun he hr => State.runOp_raise hr (State.skip_eq_raise he)⟩
  rcases Nat.eq_zero_or_pos n with rfl | hpos
  · exact ⟨s.rd, Reader.movedTo_refl _ _, fun _ => rfl, State.runOp_ok hh (State.skip_zero he)⟩
  · obtain ⟨rd, hm, h⟩ := State.skip_eq_ok he
    exact ⟨rd, hm, fun h0 => absurd h0 (Nat.ne_of_gt hpos), State.runOp_ok hh h⟩

end Sys2Proof.Machine
end

section
/-! PROOFS of the statements of 42_demux_loop.md: a step of the demux task by what is due, the start-code fetch and how
it ends, and the end of a packet. -/

namespace Sys2Proof.Machine

/-! ### Start codes in the source -/

/-- The bytes at an aligned cursor are its bits (20_memory.md R52). -/
theorem Memory.beNat_read_aligned (m : Memory) {p : Nat} (ha : p % 8 = 0) (n : Nat) :
    beNat (m.read (p / 8) n) = m.bits p (8 * n) := by
  rw [Memory.beNat_read, Nat.mul_div_cancel' (Nat.dvd_of_mod_eq_zero ha)]

theorem Memory.codeAt_aligned (m : Memory) {p : Nat} (ha : p % 8 = 0) :
    m.codeAt (p / 8) = BitVec.ofNat 32 (m.bits p 32) := by
  rw [Memory.codeAt, m.beNat_read_aligned ha]

/-- Four bytes that are no recognised start code are none of the five (47_pes_payload_resync.md R231). -/
theorem Memory.kindOfCode_of_not_recognised {m : Memory} {a : Nat} (he : a + 4 ≤ m.sizeN)
    (h : m.recognisedAt a = false) : kindOfCode (m.codeAt a) = none := by
  simpa [Memory.recognisedAt, he] using h

theorem decodeWord_startCode_of_none {w : Nat} (h : kindOfCode (BitVec.ofNat 32 w) = none) :
    decodeWord .startCode w = .error (.unknownStartCode (BitVec.ofNat 32 w)) := by
  simp only [decodeWord, h]

/-- Every record is whole bytes (30_encoding.md R72 to R92). -/
theorem eight_mul_width_div (r : Rec) : 8 * (r.width / 8) = r.width := by cases r <;> rfl

/-- What the decoder reads from just the bytes of a context is what their number decodes to. -/
theorem decodeWord_of_decode_read {m : Memory} {p : Nat} {c : Ctx} {i : Instr} (ha : p % 8 = 0)
    (h : decode c (m.read (p / 8) c.bytes) = .ok (i, [])) : decodeWord c (m.bits p (8 * c.bytes)) = .ok i := by
  obtain ⟨-, hword, -⟩ := (decode_eq_ok_iff_word c _ [] i).1 h
  rwa [List.take_of_length_le (Nat.le_of_eq (m.length_read _ _)), m.beNat_read_aligned ha] at hword

/-! ### A step, by what is due -/

/-- CANCEL is sampled before the cursor is looked at, so it needs no alignment (42_demux_loop.md R141). -/
theorem State.loopTop_of_cancel {s : State} (hc : s.env.cancel = true) :
    s.loopTop = some (.next { s with run := .cancelled }) := by
  rw [State.loopTop, if_pos hc]

/-- The end of the source (42_demux_loop.md R142). -/
theorem State.loopTop_at_end {s : State} (hc : s.env.cancel = false) (he : s.rd.bitpos = 8 * s.env.src.sizeN) :
    s.loopTop = some (.next { s with run := .done }) := by
  rw [State.loopTop_eq (by omega), if_neg (by simp [hc]), if_pos (by omega)]

/-- A start code is due (42_demux_loop.md R142). -/
theorem State.loopTop_before_end {s : State} (hc : s.env.cancel = false) (ha : s.rd.bitpos % 8 = 0)
    (he : s.rd.bitpos / 8 ≠ s.env.src.sizeN) : s.loopTop = none := by
  rw [State.loopTop_eq ha, if_neg (by simp [hc]), if_neg he]

section Running

variable {s : State} (hts : s.env.turns = []) (hr : s.run = .running)
include hts hr

theorem step_of_loopTop {o : Host.Outcome State Fault Refusal} (hd : s.work.due = .top) (ho : s.loopTop = some o) :
    step s = o := by
  simp only [step, hts, taskStep, if_pos hr, hd, ho]

theorem step_of_startCode {i : Instr} (hd : s.work.due = .top) (ho : s.loopTop = none)
    (hdec : decodeWord .startCode (s.env.src.bits s.rd.bitpos 32) = .ok i) : step s = exec i s := by
  simp only [step, hts, taskStep, if_pos hr, hd, ho, hdec]

theorem step_of_badStart {e : DecodeError} (hd : s.work.due = .top) (ho : s.loopTop = none)
    (hdec : decodeWord .startCode (s.env.src.bits s.rd.bitpos 32) = .error e) : step s = s.badStart := by
  simp only [step, hts, taskStep, if_pos hr, hd, ho, hdec]

theorem step_of_record {r : Rec} (hd : s.work.due = .record r) :
    step s = exec (decodeRecord r (s.env.src.bits s.rd.bitpos r.width)) s := by
  simp only [step, hts, taskStep, if_pos hr, hd]

theorem step_of_stuffing (hd : s.work.due = .stuffing) : step s = exec .pesStuffing s := by
  simp only [step, hts, taskStep, if_pos hr, hd]

theorem step_of_payload (hd : s.work.due = .payload) : step s = exec .pesPayload s := by
  simp only [step, hts, taskStep, if_pos hr, hd]

theorem step_of_finish (hd : s.work.due = .finish) : step s = .next s.finishPacket := by
  simp only [step, hts, taskStep, if_pos hr, hd]

end Running

/-! ### O6 and O20 -/

/-- Settles O6: the bytes the decoder is given are the bits the task fetches; stuffing and payload are not fetched. -/
theorem stepRunsDecoded : Obligations.StepRunsDecoded := by
  intro s hts hr
  refine ⟨fun i hd hc ha he hdec => ?_, fun r i hd ha hdec => ?_, step_of_stuffing hts hr, step_of_payload hts hr⟩
  · exact step_of_startCode hts hr hd (State.loopTop_before_end hc ha he)
      (decodeWord_of_decode_read (c := .startCode) ha hdec)
  · have hword := decodeWord_of_decode_read (c := .record r) ha hdec
    rw [Ctx.bytes, eight_mul_width_div, decodeWord] at hword
    cases hword
    exact step_of_record hts hr hd

/-- Settles O20: the two answers of the loop top. -/
theorem loopTopRule : Obligations.LoopTopRule := fun _ hts hr hd =>
  ⟨fun hc => step_of_loopTop hts hr hd (State.loopTop_of_cancel hc),
    fun hc he => step_of_loopTop hts hr hd (State.loopTop_at_end hc he)⟩

/-! ### The start-code fetch -/

/-- The machine as the start-code read finds it: PKT_OFFSET is the cursor's byte, PKT_START_CODE is 0 (42_demux_loop.md
R142). -/
def State.fetching (s : State) : State :=
  { s with pkt := { s.pkt with offset := BitVec.ofNat 64 (s.rd.bitpos / 8), startCode := 0 } }

theorem State.fetchStart_eq_read {s : State} (ha : s.rd.bitpos % 8 = 0) : s.fetchStart = s.fetching.read 32 := by
  rw [State.fetchStart, State.off_eq_ok ha, Res.bind_ok]
  rfl

theorem State.fetchStart_of_inside {s : State} (ha : s.rd.bitpos % 8 = 0)
    (he : s.rd.bitpos + 32 ≤ 8 * s.env.src.sizeN) :
    ∃ rd, s.rd.MovedTo s.env.src rd (s.rd.bitpos + 32) ∧
      s.fetchStart = .ok (s.env.src.bits s.rd.bitpos 32) { s.fetching with rd := rd } := by
  rw [State.fetchStart_eq_read ha]
  exact State.read_eq_ok (s := s.fetching) (by omega) (by simp [State.fetching, ha]) he

theorem State.fetchStart_pastEnd {s : State} (ha : s.rd.bitpos % 8 = 0)
    (he : 8 * s.env.src.sizeN < s.rd.bitpos + 32) : s.fetchStart = .raise .unexpectedEndOfData s.fetching := by
  rw [State.fetchStart_eq_read ha]
  exact State.read_eq_raise (s := s.fetching) (by omega) (by simp [State.fetching, ha]) he

theorem State.startPacket_of_fetch {s s' : State} {v : Nat} (hr : s.run = .running) (h : s.fetchStart = .ok v s')
    (k : PacketKind) (first : Rec) : s.startPacket k first = .next (s'.dispatch k first) := by
  rw [State.startPacket, if_pos hr, h]

theorem State.startPacket_of_raise {s s' : State} {e : Err} (hr : s.run = .running) (h : s.fetchStart = .raise e s')
    (k : PacketKind) (first : Rec) : s.startPacket k first = .next (s'.abort e) := by
  rw [State.startPacket, if_pos hr, h]

theorem State.badStart_of_fetch {s s' : State} {v : Nat} (h : s.fetchStart = .ok v s') :
    s.badStart =
      .next (({ s' with pkt := { s'.pkt with startCode := BitVec.ofNat 32 v } } : State).abort .unknownStartCode) := by
  rw [State.badStart, h]

theorem State.badStart_of_raise {s s' : State} {e : Err} (h : s.fetchStart = .raise e s') :
    s.badStart = .next (s'.abort e) := by
  rw [State.badStart, h]

/-- A fetch that fails aborts the run whether the bits, zeros standing for those past the end, are a start code or not
(60_exceptions.md R267). -/
theorem step_of_fetch_raise {s s' : State} {e : Err} (hts : s.env.turns = []) (hr : s.run = .running)
    (hd : s.work.due = .top) (ho : s.loopTop = none) (h : s.fetchStart = .raise e s') :
    step s = .next (s'.abort e) := by
  cases hdec : decodeWord .startCode (s.env.src.bits s.rd.bitpos 32) with
  | ok i =>
    obtain ⟨k, rfl⟩ := decodeWord_startCode hdec
    rw [step_of_startCode hts hr hd ho hdec, exec_startInstr, State.startPacket_of_raise hr h]
  | error x => rw [step_of_badStart hts hr hd ho hdec, State.badStart_of_raise h]

/-! ### O21, O22, O23 -/

/-- The counter of each kind at its decoder's entry (45_program_stream_map.md R181, 46_pes_header.md R200). -/
theorem countEntry_eq (k : PacketKind) (c : Counters) : countEntry k c = { c with
    psmCnt := if k = .programStreamMap then c.psmCnt + 1 else c.psmCnt
    totalVideoFrameCnt := if k = .videoPES then c.totalVideoFrameCnt + 1 else c.totalVideoFrameCnt
    totalAudioFrameCnt := if k = .audioPES then c.totalAudioFrameCnt + 1 else c.totalAudioFrameCnt } := by
  cases k <;> rfl

/-- Settles O21: the fetch finds its 32 bits, and the dispatch follows. -/
theorem startCodeDispatch : Obligations.StartCodeDispatch := by
  intro k s hr ha he
  obtain ⟨rd, hm, hfetch⟩ := State.fetchStart_of_inside ha he
  refine ⟨rd, hm, ?_⟩
  rw [exec_startInstr, State.startPacket_of_fetch hr hfetch, State.dispatch, countEntry_eq]
  rfl

/-- Settles O22: the start-code read passes the end of the source. -/
theorem shortStartCode : Obligations.ShortStartCode := by
  intro s hts hr hd hc ha hlt hshort
  have ho : s.loopTop = none := State.loopTop_before_end hc ha (by omega)
  rw [step_of_fetch_raise hts hr hd ho (State.fetchStart_pastEnd ha hshort)]
  rfl

/-- Settles O23: the four bytes are read, and their code is none of the five. -/
theorem unknownStartCodeAborts : Obligations.UnknownStartCodeAborts := by
  intro s hts hr hd hc ha he hnot
  obtain ⟨rd, hm, hfetch⟩ := State.fetchStart_of_inside ha he
  have ho : s.loopTop = none := State.loopTop_before_end hc ha (by omega)
  have hnone := Memory.kindOfCode_of_not_recognised (by omega) hnot
  rw [Memory.codeAt_aligned _ ha] at hnone ⊢
  refine ⟨rd, hm, ?_⟩
  rw [step_of_badStart hts hr hd ho (decodeWord_startCode_of_none hnone), State.badStart_of_fetch hfetch]
  rfl

/-! ### O43: the end of a packet -/

section PacketEnd

variable {s : State}

theorem State.finishPacket_of_room (hk : s.pkt.kind ≠ .packHeader) (hroom : s.evt.length ≤ s.env.qdepthLess1) :
    s.finishPacket = s.pushEvent.endPacket := by
  rw [State.finishPacket, if_pos (by simp [reportable, hk]), if_pos ((hasRoom_iff _ _).2 hroom)]

theorem State.finishPacket_of_full (hk : s.pkt.kind ≠ .packHeader) (hfull : s.env.qdepthLess1 < s.evt.length) :
    s.finishPacket = { s with work := { s.work with due := .finish } } := by
  rw [State.finishPacket, if_pos (by simp [reportable, hk]), if_neg (by simpa [hasRoom_iff] using hfull)]

theorem State.finishPacket_of_packHeader (hk : s.pkt.kind = .packHeader) : s.finishPacket = s.endPacket := by
  rw [State.finishPacket, if_neg (by simp [reportable, hk])]

end PacketEnd

/-- Settles O43: with room the event is pushed before the pending error is looked at; without, the task waits. -/
theorem packetEnd : Obligations.PacketEnd := by
  intro s
  refine ⟨?_, State.finishPacket_of_full, fun hk hp => ?_, step_of_finish⟩
  · rintro hk hroom _ rfl
    rw [State.finishPacket_of_room hk hroom]
    exact ⟨fun hp => State.endPacket_none (s := s.pushEvent) hp,
      fun _ hp => State.endPacket_some (s := s.pushEvent) hp⟩
  · rw [State.finishPacket_of_packHeader hk, State.endPacket_none hp]

end Sys2Proof.Machine
end

section
/-! PROOFS of the statements of 43_pack_header.md: how the pack header's one part ends, inside the source and past its
end, and how an error inside a packet without an event ends the run. -/

namespace Sys2Proof.Machine

/-! ### A decode and an error that leave no event -/

/-- `decode` of fields that do not all lie inside the source (41_field_model.md R131): it raises, and only the cursor and
the tree have moved. -/
theorem State.decodeFields_root_pastEnd {fs : List FieldVal} {s : State} {t : Tree} (ht : s.ft = some t)
    (hs : servedFrom s.rd.bitpos fs) (hpos : 0 < bitsOf fs)
    (he : 8 * s.env.src.sizeN < s.rd.bitpos + bitsOf fs) :
    ∃ rd tr, State.decodeFields .root fs s = .raise .unexpectedEndOfData { s with rd := rd, ft := some tr } := by
  have h := State.decodeFields_root_sat ht hs
  rcases hd : State.decodeFields .root fs s with ⟨_, s1⟩ | ⟨e, s1⟩ | x <;> rw [hd] at h
  · obtain ⟨hle, -⟩ := h
    omega
  · obtain ⟨rfl, pre, -, -, rd, -, -, -, -, rfl⟩ := h
    exact ⟨rd, t.withFields pre, rfl⟩
  · exact h.elim

/-- An error inside a pack header, which has no event to wait for (60_exceptions.md R267): the run aborts at once. -/
theorem State.raiseFatal_of_packHeader {s : State} (e : Err) (hd : s.work.due ≠ .top) (hk : s.pkt.kind = .packHeader) :
    s.raiseFatal e = ({ s with pkt := { s.pkt with status := .error } } : State).abort e := by
  rw [State.raiseFatal_inPacket e hd, State.finishPacket_of_packHeader (by exact hk),
    State.endPacket_some (e := e) (by rfl)]
  rfl

/-! ### PACK.body -/

section PackBody

variable {r : PackBody} {s : State} {t : Tree}

/-- The fourteen fields are 80 bits, and the stuffing bytes are skipped from behind them (43_pack_header.md R160). -/
theorem partPackBody_of_record (ht : s.ft = some t) (he : s.rd.bitpos + 80 ≤ 8 * s.env.src.sizeN) :
    ∃ rd, s.rd.MovedTo s.env.src rd (s.rd.bitpos + 80) ∧
      partPackBody r s = (State.skip r.pack_stuffing_length.toNat
        { s with rd := rd, ft := some (t.withFields (fieldsOfPackBody r)) }).bind fun _ s' => .ok .finish s' := by
  obtain ⟨rd, hm, h⟩ := State.decodeFields_root_eq_ok ht ((narrow_fieldsOfPackBody r).servedFrom _) he
  exact ⟨rd, hm, by rw [partPackBody, h, Res.bind_ok]⟩

theorem partPackBody_of_inside (ht : s.ft = some t)
    (he : s.rd.bitpos + 80 + 8 * r.pack_stuffing_length.toNat ≤ 8 * s.env.src.sizeN) :
    ∃ rd, s.rd.MovedTo s.env.src rd (s.rd.bitpos + 80 + 8 * r.pack_stuffing_length.toNat) ∧
      partPackBody r s = .ok .finish { s with rd := rd, ft := some (t.withFields (fieldsOfPackBody r)) } := by
  obtain ⟨rd, hm, hpart⟩ := partPackBody_of_record (r := r) ht (by omega)
  obtain ⟨rd', hm', hskip⟩ :=
    State.skip_eq_ok (s := { s with rd := rd, ft := some (t.withFields (fieldsOfPackBody r)) })
      (n := r.pack_stuffing_length.toNat) (by rwa [hm.1])
  rw [hm.1] at hm'
  exact ⟨rd', hm.trans hm', by rw [hpart, hskip, Res.bind_ok]⟩

/-- The end of the source in the fields or in the stuffing (43_pack_header.md R161). -/
theorem partPackBody_pastEnd (ht : s.ft = some t)
    (he : 8 * s.env.src.sizeN < s.rd.bitpos + 80 + 8 * r.pack_stuffing_length.toNat) :
    ∃ rd tr, partPackBody r s = .raise .unexpectedEndOfData { s with rd := rd, ft := some tr } := by
  by_cases hrec : s.rd.bitpos + 80 ≤ 8 * s.env.src.sizeN
  · obtain ⟨rd, hm, hpart⟩ := partPackBody_of_record (r := r) ht hrec
    refine ⟨rd, t.withFields (fieldsOfPackBody r), ?_⟩
    rw [hpart, State.skip_eq_raise (by rwa [hm.1]), Res.bind_raise]
  · obtain ⟨rd, tr, h⟩ := State.decodeFields_root_pastEnd ht ((narrow_fieldsOfPackBody r).servedFrom _)
      (by rw [bitsOf_fieldsOfPackBody]; omega) (by rw [bitsOf_fieldsOfPackBody]; omega)
    exact ⟨rd, tr, by rw [partPackBody, h, Res.bind_raise]⟩

theorem exec_packBody : exec (.packBody r) s = s.runPart (partPackBody r) :=
  exec_record (r := .packBody) rfl s

end PackBody

/-! ### O24, O25 -/

/-- Settles O24: fields and stuffing lie inside the source, and the part's end is the packet's. -/
theorem packBodyRule : Obligations.PackBodyRule := by
  intro r s t hr _ ht he
  obtain ⟨rd, hm, hpart⟩ := partPackBody_of_inside ht he
  refine ⟨rd, hm, ?_⟩
  rw [exec_packBody, State.runPart_ok hr hpart, State.goTo_finish]

/-- Settles O25: wherever the header is cut, the part raises, and a pack header's error goes straight to the abort. -/
theorem packErrors : Obligations.PackErrors := by
  intro r s t hr _ ht hdue hk hcode he
  obtain ⟨rd, tr, hpart⟩ := partPackBody_pastEnd ht he
  refine ⟨rd, ?_⟩
  rw [exec_packBody, State.runPart_raise hr hpart,
    State.raiseFatal_of_packHeader _ (by simp [hdue]) (by exact hk), State.abort, hcode]
  rfl

end Sys2Proof.Machine
end

section
/-! PROOFS of the statements of 44_system_header.md: the loop test inside the source and at its end, and the two parts of
a system header, each a record with the loop test behind it. -/

namespace Sys2Proof.Machine

/-! ### The loop test -/

/-- Inside the source the next bit decides (44_system_header.md R170, R171). -/
theorem sysLoop_of_inside {s : State} (he : s.rd.bitpos + 1 ≤ 8 * s.env.src.sizeN) :
    ∃ rd, s.rd.MovedTo s.env.src rd s.rd.bitpos ∧
      sysLoop s = .ok (if s.env.src.bit s.rd.bitpos then .record .sysStream else .finish) { s with rd := rd } := by
  have hs : s.Serves 1 := ⟨le_rfl, by omega, he⟩
  refine ⟨(s.readied 1).rd, hs.movedTo_readied, ?_⟩
  rw [sysLoop, State.peek_of_serves hs, Res.bind_ok, Memory.bits_one]
  cases s.env.src.bit s.rd.bitpos <;> rfl

/-- At the end of the source the peek fails (44_system_header.md R173). -/
theorem sysLoop_pastEnd {s : State} (he : 8 * s.env.src.sizeN < s.rd.bitpos + 1) :
    sysLoop s = .raise .unexpectedEndOfData s := by
  rw [sysLoop, State.peek_pastEnd le_rfl (by omega) he, Res.bind_raise]

/-! ### A record and the loop test behind it -/

/-- `decodeNested` of fields that do not all lie inside the source (41_field_model.md R132): it raises, and only the cursor
and the tree have moved. -/
theorem State.decodeChild_pastEnd {fs : List FieldVal} {s : State} {t : Tree} (name : NodeName) (ht : s.ft = some t)
    (hs : servedFrom s.rd.bitpos fs) (hpos : 0 < bitsOf fs) (he : 8 * s.env.src.sizeN < s.rd.bitpos + bitsOf fs) :
    ∃ rd tr, State.decodeChild name fs s = .raise .unexpectedEndOfData { s with rd := rd, ft := some tr } := by
  have h := State.decodeChild_sat name ht hs
  rcases hd : State.decodeChild name fs s with ⟨_, s1⟩ | ⟨e, s1⟩ | x <;> rw [hd] at h
  · obtain ⟨hle, -⟩ := h
    omega
  · obtain ⟨rfl, pre, -, -, rd, -, -, -, -, rfl⟩ := h
    exact ⟨rd, t.withChild name pre, rfl⟩
  · exact h.elim

/-- `part` decodes a record of `w` bits and goes on with the loop test, `t` being the tree with the record
(44_system_header.md R170); a record that passes the end of the source is an error (R173). -/
structure State.SysPart (s : State) (part : State → Res State Due) (w : Nat) (t : Tree) : Prop where
  inside : s.rd.bitpos + w ≤ 8 * s.env.src.sizeN → ∃ rd, s.rd.MovedTo s.env.src rd (s.rd.bitpos + w) ∧
    part s = sysLoop { s with rd := rd, ft := some t }
  pastEnd : 8 * s.env.src.sizeN < s.rd.bitpos + w →
    ∃ rd tr, part s = .raise .unexpectedEndOfData { s with rd := rd, ft := some tr }

theorem partSysFixed_sysPart {s : State} {t : Tree} (r : SysFixed) (ht : s.ft = some t) :
    s.SysPart (partSysFixed r) 64 (t.withFields (fieldsOfSysFixed r)) where
  inside he := by
    obtain ⟨rd, hm, h⟩ := State.decodeFields_root_eq_ok ht ((narrow_fieldsOfSysFixed r).servedFrom _) he
    exact ⟨rd, hm, by rw [partSysFixed, h, Res.bind_ok]⟩
  pastEnd he := by
    obtain ⟨rd, tr, h⟩ := State.decodeFields_root_pastEnd ht ((narrow_fieldsOfSysFixed r).servedFrom _) (by simp) he
    exact ⟨rd, tr, by rw [partSysFixed, h, Res.bind_raise]⟩

theorem partSysStream_sysPart {s : State} {t : Tree} (r : SysStream) (ht : s.ft = some t) :
    s.SysPart (partSysStream r) 24 (t.withChild .stream (fieldsOfSysStream r)) where
  inside he := by
    obtain ⟨rd, hm, h⟩ := State.decodeChild_eq_ok .stream ht ((narrow_fieldsOfSysStream r).servedFrom _) he
    exact ⟨rd, hm, by rw [partSysStream, h, Res.bind_ok]⟩
  pastEnd he := by
    obtain ⟨rd, tr, h⟩ := State.decodeChild_pastEnd .stream ht ((narrow_fieldsOfSysStream r).servedFrom _) (by simp) he
    exact ⟨rd, tr, by rw [partSysStream, h, Res.bind_raise]⟩

section SysPart

variable {s : State} {part : State → Res State Due} {w : Nat} {t : Tree}

/-- With a bit behind the record, the part answers what that bit says. -/
theorem State.SysPart.eq_ok (h : s.SysPart part w t) (he : s.rd.bitpos + w + 1 ≤ 8 * s.env.src.sizeN) :
    ∃ rd, s.rd.MovedTo s.env.src rd (s.rd.bitpos + w) ∧
      part s = .ok (if s.env.src.bit (s.rd.bitpos + w) then .record .sysStream else .finish)
        { s with rd := rd, ft := some t } := by
  obtain ⟨rd, hm, hpart⟩ := h.inside (by omega)
  obtain ⟨rd', hm', hloop⟩ := sysLoop_of_inside (s := { s with rd := rd, ft := some t }) (by rwa [hm.1])
  rw [hm.1] at hm' hloop
  exact ⟨rd', hm.trans hm', hpart.trans hloop⟩

/-- The end of the source in the record or right behind it: the part raises (44_system_header.md R173). -/
theorem State.SysPart.eq_raise (h : s.SysPart part w t) (he : 8 * s.env.src.sizeN < s.rd.bitpos + w + 1) :
    ∃ rd tr, part s = .raise .unexpectedEndOfData { s with rd := rd, ft := some tr } := by
  by_cases hrec : s.rd.bitpos + w ≤ 8 * s.env.src.sizeN
  · obtain ⟨rd, hm, hpart⟩ := h.inside hrec
    exact ⟨rd, t, hpart.trans (sysLoop_pastEnd (by rwa [hm.1]))⟩
  · exact h.pastEnd (by omega)

/-- The part as a step: 1 makes a stream-detail record due, 0 ends the packet (44_system_header.md R170, R172). -/
theorem State.SysPart.runPart_of_inside (h : s.SysPart part w t) (hr : s.run = .running)
    (he : s.rd.bitpos + w + 1 ≤ 8 * s.env.src.sizeN) :
    ∃ rd, s.rd.MovedTo s.env.src rd (s.rd.bitpos + w) ∧
      (s.env.src.bit (s.rd.bitpos + w) = true → s.runPart part = .next { s with
        rd := rd, ft := some t, work := { s.work with due := .record .sysStream } }) ∧
      (s.env.src.bit (s.rd.bitpos + w) = false → s.runPart part =
        .next ({ s with rd := rd, ft := some t } : State).finishPacket) := by
  obtain ⟨rd, hm, hpart⟩ := h.eq_ok he
  refine ⟨rd, hm, fun hbit => ?_, fun hbit => ?_⟩ <;> rw [State.runPart_ok hr hpart, hbit]
  · exact congrArg _ (State.goTo_of_ne (by simp))
  · rfl

end SysPart

/-! ### O26, O27 -/

/-- Settles O26: SYS.fixed and SYS.stream are records of 64 and 24 bits with the loop test behind them. -/
theorem systemHeaderRule : Obligations.SystemHeaderRule := by
  intro s t hr _ ht
  refine ⟨fun r he => ?_, fun r he => ?_⟩
  · rw [exec_record (r := .sysFixed) rfl]
    exact (partSysFixed_sysPart r ht).runPart_of_inside hr he
  · rw [exec_record (r := .sysStream) rfl]
    exact (partSysStream_sysPart r ht).runPart_of_inside hr he

/-- Settles O27: wherever the header is cut, the part raises, and EVT has room for the packet's event. -/
theorem systemHeaderErrors : Obligations.SystemHeaderErrors := by
  intro s t i w hr _ ht hk hdue hroom hi he
  obtain ⟨hexec, t', hpart⟩ : exec i s = s.runPart (partOf i) ∧ ∃ t', s.SysPart (partOf i) w t' := by
    obtain ⟨r, rfl, rfl⟩ | ⟨r, rfl, rfl⟩ := hi
    · exact ⟨exec_record (r := .sysFixed) rfl s, _, partSysFixed_sysPart r ht⟩
    · exact ⟨exec_record (r := .sysStream) rfl s, _, partSysStream_sysPart r ht⟩
  obtain ⟨rd, tr, hraise⟩ := hpart.eq_raise he
  have hfailed : exec i s = .next (s.failedPacket 2 rd tr) :=
    hexec.trans (State.runPart_failed (w := s.work) hr hraise hdue (by simp [hk]) hroom)
  refine ⟨_, hfailed, rfl, rfl, ?_, rfl, rfl, rfl, rfl, rfl, rfl⟩
  rw [State.failedPacket, hk]

end Sys2Proof.Machine
end

section
/-! PROOFS of the statements of 45_program_stream_map.md: the loop test of a map in each of its three answers, the parts of
a map up to it, and the errors of an entry and of the reconciliation. -/

namespace Sys2Proof.Machine

/-! ### The records at the two ends of a map -/

section FixedAndCrc

variable {s : State} {t : Tree} (ht : s.ft = some t)
include ht

/-- The length field is decoded first, `psmMark` is taken behind it, the rest of the record follows, and the descriptor
bytes are skipped from behind it (45_program_stream_map.md R182). -/
theorem partPsmFixed_of_record {r : PsmFixed} (ha : s.rd.bitpos % 8 = 0)
    (he : s.rd.bitpos + 48 ≤ 8 * s.env.src.sizeN) :
    ∃ rd, s.rd.MovedTo s.env.src rd (s.rd.bitpos + 48) ∧
      partPsmFixed r s = (State.skip r.program_stream_info_length.toNat { s with
        rd := rd, ft := some (t.withFields (fieldsOfPsmFixed r)),
        work := { s.work with psmMark := s.rd.bitpos / 8 + 2 } }).bind fun _ s' => .ok (.record .psmEsmLength) s' := by
  have hwidth : bitsOf ((fieldsOfPsmFixed r).take 1) = 16 := rfl
  obtain ⟨rd1, hm1, hlength⟩ := State.decodeFields_root_eq_ok ht
    (((narrow_fieldsOfPsmFixed r).take 1).servedFrom _) (by omega)
  have hb1 : rd1.bitpos = s.rd.bitpos + 16 := hm1.1
  have hmark : rd1.bitpos / 8 = s.rd.bitpos / 8 + 2 := by omega
  obtain ⟨rd2, hm2, hrest⟩ := State.decodeFields_root_eq_ok
    (s := { s with
      rd := rd1, ft := some (t.withFields ((fieldsOfPsmFixed r).take 1)),
      work := { s.work with psmMark := s.rd.bitpos / 8 + 2 } })
    rfl (((narrow_fieldsOfPsmFixed r).drop 1).servedFrom _)
    (by show rd1.bitpos + 32 ≤ 8 * s.env.src.sizeN; omega)
  have hend : rd1.bitpos + 32 = s.rd.bitpos + 48 := by omega
  rw [← Tree.withFields_append, List.take_append_drop] at hrest
  refine ⟨rd2, hend ▸ hm1.trans hm2, ?_⟩
  rw [partPsmFixed, hlength, Res.bind_ok, State.off_eq_ok (by dsimp only; omega), Res.bind_ok]
  dsimp only
  rw [hmark, hrest, Res.bind_ok]

theorem partPsmFixed_of_inside {r : PsmFixed} (ha : s.rd.bitpos % 8 = 0)
    (he : s.rd.bitpos + 48 + 8 * r.program_stream_info_length.toNat ≤ 8 * s.env.src.sizeN) :
    ∃ rd, s.rd.MovedTo s.env.src rd (s.rd.bitpos + 48 + 8 * r.program_stream_info_length.toNat) ∧
      partPsmFixed r s = .ok (.record .psmEsmLength) { s with
        rd := rd, ft := some (t.withFields (fieldsOfPsmFixed r)),
        work := { s.work with psmMark := s.rd.bitpos / 8 + 2 } } := by
  obtain ⟨rd, hm, hpart⟩ := partPsmFixed_of_record ht (r := r) ha (by omega)
  obtain ⟨rd', hm', hskip⟩ := State.skip_eq_ok
    (s := { s with
      rd := rd, ft := some (t.withFields (fieldsOfPsmFixed r)),
      work := { s.work with psmMark := s.rd.bitpos / 8 + 2 } })
    (n := r.program_stream_info_length.toNat) (by rwa [hm.1])
  rw [hm.1] at hm'
  exact ⟨rd', hm.trans hm', by rw [hpart, hskip, Res.bind_ok]⟩

/-- The CRC is 32 bits, and nothing is asked of them (45_program_stream_map.md R188). -/
theorem partPsmCrc_of_inside {r : PsmCrc} (he : s.rd.bitpos + 32 ≤ 8 * s.env.src.sizeN) :
    ∃ rd, s.rd.MovedTo s.env.src rd (s.rd.bitpos + 32) ∧
      partPsmCrc r s = .ok .finish { s with rd := rd, ft := some (t.withFields (fieldsOfPsmCrc r)) } := by
  obtain ⟨rd, hm, h⟩ := State.decodeFields_root_eq_ok ht ((narrow_fieldsOfPsmCrc r).servedFrom _) he
  exact ⟨rd, hm, by rw [partPsmCrc, h, Res.bind_ok]⟩

end FixedAndCrc

/-- Settles O28: each record lies inside the source; the first makes the entry loop's length due, the second ends the
packet. -/
theorem psmFixedAndCrc : Obligations.PsmFixedAndCrc := by
  intro s t hr ha ht
  refine ⟨fun r he => ?_, fun r he => ?_⟩
  · obtain ⟨rd, hm, hpart⟩ := partPsmFixed_of_inside ht ha he
    refine ⟨rd, hm, ?_⟩
    rw [exec_record (r := .psmFixed) rfl]
    exact (State.runPart_ok hr hpart).trans (congrArg _ (State.goTo_of_ne (by simp)))
  · obtain ⟨rd, hm, hpart⟩ := partPsmCrc_of_inside (r := r) ht he
    refine ⟨rd, hm, ?_⟩
    rw [exec_record (r := .psmCrc) rfl]
    exact State.runPart_ok hr hpart

/-! ### The loop test as a step -/

section PsmLoop

variable {part : State → Res State Due} {s u : State} {rd : Reader} {t : Tree} {w : Work} {a len : Nat}

/-- With no entry left, the bytes left behind byte `a` decide (45_program_stream_map.md R187, R188). -/
theorem psmLoop_of_no_entry (hw : w.esmRemaining = 0) (hb : rd.bitpos = 8 * a)
    (hl : t.fieldOf .program_stream_map_length = some len) :
    psmLoop { u with rd := rd, ft := some t, work := w } =
      if (len : Int) - ((a : Int) - w.psmMark) = 4
      then .ok (.record .psmCrc) { u with rd := rd, ft := some t, work := w }
      else .raise .formatMismatch { u with rd := rd, ft := some t, work := w } := by
  have ha : rd.bitpos / 8 = a := by omega
  rw [psmLoop_eq rfl (by dsimp only; omega) hl, if_neg (Nat.not_lt.2 hw.le), ha]

/-- Bytes are left for entries (45_program_stream_map.md R184). -/
theorem State.runPart_psmLoop_of_entries (hr : s.run = .running)
    (hpart : part s = psmLoop { u with rd := rd, ft := some t, work := w }) (hw : 0 < w.esmRemaining) :
    s.runPart part = .next { u with rd := rd, ft := some t, work := { w with due := .record .psmEntry } } := by
  rw [psmLoop, if_pos hw] at hpart
  exact (State.runPart_ok hr hpart).trans (congrArg _ (State.goTo_of_ne (by simp)))

/-- No entry is left and 4 bytes are (45_program_stream_map.md R188). -/
theorem State.runPart_psmLoop_of_reconciled (hr : s.run = .running)
    (hpart : part s = psmLoop { u with rd := rd, ft := some t, work := w }) (hw : w.esmRemaining = 0)
    (hb : rd.bitpos = 8 * a) (hl : t.fieldOf .program_stream_map_length = some len)
    (hrec : (len : Int) - ((a : Int) - w.psmMark) = 4) :
    s.runPart part = .next { u with rd := rd, ft := some t, work := { w with due := .record .psmCrc } } := by
  rw [psmLoop_of_no_entry hw hb hl, if_pos hrec] at hpart
  exact (State.runPart_ok hr hpart).trans (congrArg _ (State.goTo_of_ne (by simp)))

/-- No entry is left and the remainder is not 4 bytes: the event, then the abort (45_program_stream_map.md R188, R189). -/
theorem State.runPart_psmLoop_of_mismatch (hr : s.run = .running)
    (hpart : part s = psmLoop { u with rd := rd, ft := some t, work := w }) (hw : w.esmRemaining = 0)
    (hb : rd.bitpos = 8 * a) (hl : t.fieldOf .program_stream_map_length = some len)
    (hrec : (len : Int) - ((a : Int) - w.psmMark) ≠ 4) (hd : w.due ≠ .top) (hk : u.pkt.kind = .programStreamMap)
    (hroom : u.evt.length ≤ u.env.qdepthLess1) :
    s.runPart part = .next (u.failedPacket 5 rd t) := by
  rw [psmLoop_of_no_entry hw hb hl, if_neg hrec] at hpart
  exact State.runPart_failed hr hpart hd (by simp [hk]) hroom

end PsmLoop

/-! ### The parts up to the loop test -/

section Parts

variable {s : State} {t : Tree} (ht : s.ft = some t)
include ht

/-- The length of the entry loop starts the counter (45_program_stream_map.md R183). -/
theorem partPsmEsmLength_of_inside (r : PsmEsmLength) (he : s.rd.bitpos + 16 ≤ 8 * s.env.src.sizeN) :
    ∃ rd, s.rd.MovedTo s.env.src rd (s.rd.bitpos + 16) ∧
      partPsmEsmLength r s = psmLoop { s with
        rd := rd, ft := some (t.withFields (fieldsOfPsmEsmLength r)),
        work := { s.work with esmRemaining := r.elementary_stream_map_length.toNat } } := by
  obtain ⟨rd, hm, h⟩ := State.decodeFields_root_eq_ok ht ((narrow_fieldsOfPsmEsmLength r).servedFrom _) he
  exact ⟨rd, hm, by rw [partPsmEsmLength, h, Res.bind_ok]⟩

/-- An entry larger than the counter is decoded whole before its check fails (45_program_stream_map.md R185). -/
theorem partPsmEntry_of_checkLength {r : PsmEntry} (he : s.rd.bitpos + 32 ≤ 8 * s.env.src.sizeN)
    (hbig : s.work.esmRemaining < r.elementary_stream_info_length.toNat + 4) :
    ∃ rd, s.rd.MovedTo s.env.src rd (s.rd.bitpos + 32) ∧
      partPsmEntry r s = .raise .checkLength
        { s with rd := rd, ft := some (t.withChild .es_map_entry (fieldsOfPsmEntry r)) } := by
  obtain ⟨rd, hm, h⟩ := State.decodeChild_eq_ok .es_map_entry ht ((narrow_fieldsOfPsmEntry r).servedFrom _) he
  exact ⟨rd, hm, by rw [partPsmEntry, h, Res.bind_ok, if_pos hbig]⟩

/-- An entry that passes its check writes its stream type, is skipped to its end and steps the counter by its size
(45_program_stream_map.md R184, R186). -/
theorem partPsmEntry_of_inside {r : PsmEntry} {size : Nat} (hsize : size = r.elementary_stream_info_length.toNat + 4)
    (hle : size ≤ s.work.esmRemaining) (he : s.rd.bitpos + 8 * size ≤ 8 * s.env.src.sizeN) :
    ∃ rd, s.rd.MovedTo s.env.src rd (s.rd.bitpos + 8 * size) ∧
      partPsmEntry r s = psmLoop { setStreamType r.stream_type r.elementary_stream_id s with
        rd := rd, ft := some (t.withChild .es_map_entry (fieldsOfPsmEntry r)),
        work := { s.work with esmRemaining := s.work.esmRemaining - size } } := by
  obtain ⟨rd1, hm1, hfields⟩ := State.decodeChild_eq_ok .es_map_entry ht ((narrow_fieldsOfPsmEntry r).servedFrom _)
    (by rw [bitsOf_fieldsOfPsmEntry]; omega)
  have hend : rd1.bitpos + 8 * r.elementary_stream_info_length.toNat = s.rd.bitpos + 8 * size := by
    have : rd1.bitpos = s.rd.bitpos + 32 := hm1.1
    omega
  obtain ⟨rd2, hm2, hskip⟩ := State.skip_eq_ok
    (s := setStreamType r.stream_type r.elementary_stream_id
      { s with rd := rd1, ft := some (t.withChild .es_map_entry (fieldsOfPsmEntry r)) })
    (n := r.elementary_stream_info_length.toNat) (by rwa [setStreamType_rd, setStreamType_env, hend])
  rw [setStreamType_rd, setStreamType_env, hend] at hm2
  refine ⟨rd2, hm1.trans hm2, ?_⟩
  rw [partPsmEntry, hfields, Res.bind_ok, if_neg (by dsimp only; omega), hskip, Res.bind_ok, hsize,
    Nat.add_comm _ 4, setStreamType_eq, setStreamType_eq]

end Parts

/-! ### O29, O30 -/

/-- Settles O29: the loop test right behind the length, with the counter at that length. -/
theorem psmEsmLengthRule : Obligations.PsmEsmLengthRule := by
  intro r s t len hr ha ht hl he
  obtain ⟨rd, hm, hpart⟩ := partPsmEsmLength_of_inside ht r he
  rw [exec_record (r := .psmEsmLength) rfl]
  refine ⟨rd, hm, fun hpos => State.runPart_psmLoop_of_entries hr hpart hpos, fun hzero hrec => ?_⟩
  rw [hzero] at hpart
  exact State.runPart_psmLoop_of_reconciled hr hpart rfl (by have := hm.1; omega)
    (Tree.fieldOf_withFields hl _) hrec

/-- Settles O30: the loop test behind the entry, with the counter stepped: at 0 the last entry has been decoded. -/
theorem psmEntryRule : Obligations.PsmEntryRule := by
  intro r s t len size hr ha ht hl hsize hle he hrec
  obtain ⟨rd, hm, hpart⟩ := partPsmEntry_of_inside ht hsize hle he
  rw [setStreamType_eq] at hpart
  refine ⟨rd, hm, ?_⟩
  rw [exec_record (r := .psmEntry) rfl]
  by_cases hlast : size = s.work.esmRemaining
  · rw [if_pos hlast]
    exact State.runPart_psmLoop_of_reconciled hr hpart (by dsimp only; omega) (by have := hm.1; omega)
      (Tree.fieldOf_withChild hl _ _) (hrec hlast)
  · rw [if_neg hlast]
    exact State.runPart_psmLoop_of_entries hr hpart (by dsimp only; omega)

/-! ### O31, O32 -/

/-- Settles O31: the check fails before the stream type is written, and EVT has room for the map's event. -/
theorem checkLengthRule : Obligations.CheckLengthRule := by
  intro r s t hr _ ht hdue hk hroom he hbig
  obtain ⟨rd, hm, hpart⟩ := partPsmEntry_of_checkLength ht he hbig
  refine ⟨rd, hm, ?_⟩
  have hfailed : exec (.psmEntry r) s =
      .next (s.failedPacket 4 rd (t.withChild .es_map_entry (fieldsOfPsmEntry r))) := by
    rw [exec_record (r := .psmEntry) rfl]
    exact State.runPart_failed (w := s.work) hr hpart (by simp [hdue]) (by simp [hk]) hroom
  rw [hfailed, State.failedPacket, hk]

/-- Settles O32: the loop test with the counter at 0, behind an empty loop's length and behind the last entry. -/
theorem formatMismatchRule : Obligations.FormatMismatchRule := by
  intro s t len hr ha ht hdue hk hroom hl
  refine ⟨fun r he hzero hrec => ?_, fun r size hsize hlast he hrec => ?_⟩
  · obtain ⟨rd, hm, hpart⟩ := partPsmEsmLength_of_inside ht r he
    refine ⟨rd, hm, ?_⟩
    rw [exec_record (r := .psmEsmLength) rfl]
    exact State.runPart_psmLoop_of_mismatch hr hpart (by simp [hzero]) (by have := hm.1; omega)
      (Tree.fieldOf_withFields hl _) hrec hdue hk hroom
  · obtain ⟨rd, hm, hpart⟩ := partPsmEntry_of_inside ht hsize hlast.le he
    rw [setStreamType_eq] at hpart
    refine ⟨rd, hm, ?_⟩
    rw [exec_record (r := .psmEntry) rfl]
    exact State.runPart_psmLoop_of_mismatch hr hpart (by dsimp only; omega) (by have := hm.1; omega)
      (Tree.fieldOf_withChild hl _ _) hrec hdue hk hroom

end Sys2Proof.Machine
end

section
/-! PROOFS of the statements of 46_pes_header.md: what is due behind a record's gates, the records of the PES header and
the blocks skipped in it, and the header stuffing. -/

namespace Sys2Proof.Machine

/-! ### A part that names what is due next -/

/-- Behind the gates stands a record or the stuffing, never the end of the packet (30_encoding.md R95). -/
theorem dueAfter_ne_finish (gs : List Gate) (t : Tree) : dueAfter gs t ≠ .finish := by
  rw [dueAfter_eq_dueOf]
  cases (t.wanted gs).head? <;> simp [dueOf]

/-- A part that does not end its packet, as a step. -/
theorem State.runPart_of_due {part : State → Res State Due} {s s' : State} {d : Due} (hr : s.run = .running)
    (h : part s = .ok d s') (hd : d ≠ .finish) :
    s.runPart part = .next { s' with work := { s'.work with due := d } } :=
  (State.runPart_ok hr h).trans (congrArg _ (State.goTo_of_ne hd))

/-- A part that ends in gates, as a step. -/
theorem State.runPart_of_gates {part : State → Res State Due} {s s' : State} {gs : List Gate} {t : Tree}
    (hr : s.run = .running) (h : part s = .ok (dueAfter gs t) s') :
    s.runPart part = .next { s' with work := { s'.work with due := dueAfter gs t } } :=
  State.runPart_of_due hr h (dueAfter_ne_finish gs t)

/-- The names kept for the gates hold the flags of those after any record (41_field_model.md R133). -/
theorem Tree.Has.gatesAfter {t : Tree} {ns : List FieldName} {gs : List Gate} (h : t.Has (ns ++ gs.map Gate.flag))
    (r : Rec) : t.Has ((gatesAfter r gs).map Gate.flag) :=
  h.of_subset (List.subset_append_of_subset_right _ (List.map_subset _ (gatesAfter_subset r gs)))

/-! ### The records of the header -/

section Records

variable {s : State} {t : Tree} (ht : s.ft = some t)
include ht

/-- A record whose fields lie inside the source, then the gates whose flags can be read back. -/
theorem State.decodeFields_firstGate {fs : List FieldVal} {gs : List Gate} (hf : Narrow fs)
    (hg : (t.withFields fs).Has (gs.map Gate.flag)) (he : s.rd.bitpos + bitsOf fs ≤ 8 * s.env.src.sizeN) :
    ∃ rd, s.rd.MovedTo s.env.src rd (s.rd.bitpos + bitsOf fs) ∧
      ((State.decodeFields .root fs s).bind fun _ s' => firstGate gs s') =
        .ok (dueAfter gs (t.withFields fs)) { s with rd := rd, ft := some (t.withFields fs) } := by
  obtain ⟨rd, hm, h⟩ := State.decodeFields_root_eq_ok ht (hf.servedFrom _) he
  exact ⟨rd, hm, by rw [h, Res.bind_ok, firstGate_eq_ok rfl hg]⟩

/-- `hdrMark` is taken behind the five bytes of the base record (46_pes_header.md R200). -/
theorem partPesBase_of_inside (r : PesBase) (ha : s.rd.bitpos % 8 = 0)
    (he : s.rd.bitpos + 40 ≤ 8 * s.env.src.sizeN) :
    ∃ rd, s.rd.MovedTo s.env.src rd (s.rd.bitpos + 40) ∧
      partPesBase r s = .ok (dueAfter baseGates (t.withFields (fieldsOfPesBase r))) { s with
        rd := rd, ft := some (t.withFields (fieldsOfPesBase r)),
        work := { s.work with hdrMark := s.rd.bitpos / 8 + 5 } } := by
  obtain ⟨rd, hm, h⟩ := State.decodeFields_root_eq_ok ht ((narrow_fieldsOfPesBase r).servedFrom _)
    (by rwa [bitsOf_fieldsOfPesBase])
  rw [bitsOf_fieldsOfPesBase] at hm
  have hb : rd.bitpos = s.rd.bitpos + 40 := hm.1
  have hmark : rd.bitpos / 8 = s.rd.bitpos / 8 + 5 := by omega
  have hflags : (t.withFields (fieldsOfPesBase r)).Has (baseGates.map Gate.flag) :=
    (has_fieldsOfPesBase t r).of_subset (List.subset_append_right _ _)
  refine ⟨rd, hm, ?_⟩
  rw [partPesBase, h, Res.bind_ok, State.off_eq_ok (by dsimp only; omega), Res.bind_ok]
  dsimp only
  rw [hmark, firstGate_eq_ok rfl hflags]

/-- The extension flags come before their own gates (46_pes_header.md R207). -/
theorem partPesExtFlags_of_inside (r : PesExtFlags) (he : s.rd.bitpos + 8 ≤ 8 * s.env.src.sizeN) :
    ∃ rd, s.rd.MovedTo s.env.src rd (s.rd.bitpos + 8) ∧
      partPesExtFlags r s = .ok (dueAfter extGates (t.withFields (fieldsOfPesExtFlags r)))
        { s with rd := rd, ft := some (t.withFields (fieldsOfPesExtFlags r)) } :=
  State.decodeFields_firstGate ht (narrow_fieldsOfPesExtFlags r) (has_fieldsOfPesExtFlags t r) he

/-- A record gated by the base record, in a tree that holds its flags (46_pes_header.md R201 to R206). -/
theorem baseRecord_of_inside {r : Rec} {fs : List FieldVal} (hn : t.Has pesNames) (hf : Narrow fs)
    (he : s.rd.bitpos + bitsOf fs ≤ 8 * s.env.src.sizeN) :
    ∃ rd, s.rd.MovedTo s.env.src rd (s.rd.bitpos + bitsOf fs) ∧
      baseRecord r fs s = .ok (dueAfter (gatesAfter r baseGates) (t.withFields fs))
        { s with rd := rd, ft := some (t.withFields fs) } :=
  State.decodeFields_firstGate ht hf ((Tree.Has.gatesAfter hn r).withFields fs) he

/-- A record gated by the extension flags, in a tree that holds them (46_pes_header.md R210, R211). -/
theorem extRecord_of_inside {r : Rec} {fs : List FieldVal} (hn : t.Has pesExtNames) (hf : Narrow fs)
    (he : s.rd.bitpos + bitsOf fs ≤ 8 * s.env.src.sizeN) :
    ∃ rd, s.rd.MovedTo s.env.src rd (s.rd.bitpos + bitsOf fs) ∧
      extRecord r fs s = .ok (dueAfter (gatesAfter r extGates) (t.withFields fs))
        { s with rd := rd, ft := some (t.withFields fs) } :=
  State.decodeFields_firstGate ht hf ((Tree.Has.gatesAfter hn r).withFields fs) he

/-- A block gated by the extension flags: its fields, then its bytes skipped from behind them (46_pes_header.md R208,
R209, R212). -/
theorem extBlock_of_inside {r : Rec} {fs : List FieldVal} {n : Nat} (hn : t.Has pesExtNames) (hf : Narrow fs)
    (he : s.rd.bitpos + bitsOf fs + 8 * n ≤ 8 * s.env.src.sizeN) :
    ∃ rd, s.rd.MovedTo s.env.src rd (s.rd.bitpos + bitsOf fs + 8 * n) ∧
      extBlock r fs n s = .ok (dueAfter (gatesAfter r extGates) (t.withFields fs))
        { s with rd := rd, ft := some (t.withFields fs) } := by
  obtain ⟨rd1, hm1, hfields⟩ := State.decodeFields_root_eq_ok ht (hf.servedFrom _) (by omega)
  obtain ⟨rd2, hm2, hskip⟩ := State.skip_eq_ok
    (s := { s with rd := rd1, ft := some (t.withFields fs) }) (n := n) (by rwa [hm1.1])
  rw [hm1.1] at hm2
  refine ⟨rd2, hm1.trans hm2, ?_⟩
  rw [extBlock, hfields, Res.bind_ok, hskip, Res.bind_ok,
    firstGate_eq_ok rfl ((Tree.Has.gatesAfter hn r).withFields fs)]

end Records

/-! ### O33 -/

/-- Settles O33: each flag record lies inside the source, and holds every flag that its gates read back. -/
theorem pesFlagRecords : Obligations.PesFlagRecords := by
  intro s t hr ha ht
  refine ⟨fun r he => ?_, fun r he => ?_⟩
  · obtain ⟨rd, hm, hpart⟩ := partPesBase_of_inside ht r ha he
    refine ⟨rd, hm, ?_⟩
    rw [exec_record (r := .pesBase) rfl]
    exact State.runPart_of_gates hr hpart
  · obtain ⟨rd, hm, hpart⟩ := partPesExtFlags_of_inside ht r he
    refine ⟨rd, hm, ?_⟩
    rw [exec_record (r := .pesExtFlags) rfl]
    exact State.runPart_of_gates hr hpart

/-! ### O34 -/

/-- Every record that the base record gates, but the extension flags, is its fields and the gates after it, whichever of
the trick-mode bytes it is (46_pes_header.md R201 to R206). -/
theorem partOf_baseGated {i : Instr} {r : Rec} (hc : i.ctx = some (.record r))
    (hr : r ∈ [.pesPts, .pesPtsDts, .pesEscr, .pesEsRate, .pesTrick, .pesCopyInfo, .pesCrc]) :
    partOf i = baseRecord r i.fields := by
  cases i <;> simp only [Instr.ctx, Option.some.injEq, Ctx.record.injEq, reduceCtorEq] at hc
  all_goals subst hc
  case pesPts | pesPtsDts | pesEscr | pesEsRate | pesCopyInfo | pesCrc => rfl
  case pesTrick0 | pesTrick1 | pesTrick2 | pesTrick3 | pesTrick4 | pesTrick5 | pesTrick6 | pesTrick7 => rfl
  all_goals simp at hr

/-- Settles O34: the fields of such a record are as wide as the record, and nothing is done with them but recording. -/
theorem pesBaseGatedRule : Obligations.PesBaseGatedRule := by
  intro i r s t hc hmem hr _ ht hn he
  rw [← bitsOf_fields hc (ne_of_mem_of_not_mem hmem (by decide))] at he ⊢
  obtain ⟨rd, hm, hpart⟩ := baseRecord_of_inside (r := r) ht hn (narrow_fields i) he
  refine ⟨rd, hm, ?_⟩
  rw [exec_record hc, partOf_baseGated hc hmem]
  exact State.runPart_of_gates hr hpart

/-! ### O35 -/

/-- Settles O35: three of the five skip what follows their fields, the other two end with them. -/
theorem pesExtGatedRule : Obligations.PesExtGatedRule := by
  intro i rec n s t hi hr _ ht hn he
  have hf := narrow_fields i
  obtain ⟨hc, rd, hm, hpart⟩ : i.ctx = some (.record rec) ∧
      ∃ rd, s.rd.MovedTo s.env.src rd (s.rd.bitpos + bitsOf i.fields + 8 * n) ∧
        partOf i s = .ok (dueAfter (gatesAfter rec extGates) (t.withFields i.fields))
          { s with rd := rd, ft := some (t.withFields i.fields) } := by
    obtain ⟨r, rfl, rfl, rfl⟩ | ⟨r, rfl, rfl, rfl⟩ | ⟨r, rfl, rfl, rfl⟩ | ⟨r, rfl, rfl, rfl⟩ |
      ⟨r, rfl, rfl, rfl⟩ := hi
    · exact ⟨rfl, extBlock_of_inside ht hn hf he⟩
    · exact ⟨rfl, extBlock_of_inside ht hn hf he⟩
    · exact ⟨rfl, extRecord_of_inside ht hn hf he⟩
    · exact ⟨rfl, extRecord_of_inside ht hn hf he⟩
    · exact ⟨rfl, extBlock_of_inside ht hn hf he⟩
  refine ⟨rd, hm, ?_⟩
  rw [exec_record hc]
  exact State.runPart_of_gates hr hpart

/-! ### O37 -/

theorem exec_pesStuffing (s : State) : exec .pesStuffing s = s.runPart partPesStuffing := rfl

/-- The difference is a number of bytes only where it is positive; elsewhere the state stays as it is (46_pes_header.md
R213). -/
theorem partPesStuffing_of_inside {s : State} {t : Tree} {declared : Nat} (ht : s.ft = some t)
    (ha : s.rd.bitpos % 8 = 0) (hl : t.fieldOf .PES_header_data_length = some declared)
    (he : s.rd.bitpos + 8 * (stuffingOf declared (s.rd.bitpos / 8) s.work.hdrMark).toNat ≤ 8 * s.env.src.sizeN) :
    ∃ rd, s.rd.MovedTo s.env.src rd
        (s.rd.bitpos + 8 * (stuffingOf declared (s.rd.bitpos / 8) s.work.hdrMark).toNat) ∧
      partPesStuffing s = .ok .payload { s with rd := rd } := by
  rw [partPesStuffing, State.off_eq_ok ha, Res.bind_ok, State.field_eq_ok ht hl, Res.bind_ok]
  by_cases hpos : 0 < stuffingOf declared (s.rd.bitpos / 8) s.work.hdrMark
  · obtain ⟨rd, hm, hskip⟩ := State.skip_eq_ok he
    exact ⟨rd, hm, by rw [if_pos hpos, hskip, Res.bind_ok]⟩
  · rw [Int.toNat_of_nonpos (Int.not_lt.1 hpos), if_neg hpos]
    exact ⟨s.rd, Reader.movedTo_refl _ _, rfl⟩

/-- Settles O37: `skipped` is the difference cut off at 0, and the payload is due whatever it is. -/
theorem pesStuffingRule : Obligations.PesStuffingRule := by
  rintro s t declared skipped hr ha ht hl rfl he
  obtain ⟨rd, hm, hpart⟩ := partPesStuffing_of_inside ht ha hl he
  refine ⟨rd, hm, ?_⟩
  rw [exec_pesStuffing]
  exact State.runPart_of_due hr hpart (by simp)

end Sys2Proof.Machine
end

section
/-! PROOFS of the statements of 47_pes_payload_resync.md: where a start code is recognised, the resync scan, when a
declared length is trusted, and the payload part on its valid path and in a resync. -/

namespace Sys2Proof.Machine

/-! ### O4: a start code in the source -/

/-- Four bytes, most significant first (20_memory.md R52). -/
theorem Memory.beNat_read_four (m : Memory) (p : Nat) : beNat (m.read p 4) =
    (m.byte p).toNat * 2 ^ 24 + (m.byte (p + 1)).toNat * 2 ^ 16 + (m.byte (p + 2)).toNat * 2 ^ 8 +
      (m.byte (p + 3)).toNat := by
  simp only [Memory.read, beNat, List.foldl, Nat.add_assoc, Nat.reduceAdd]
  omega

/-- Four bytes fit the 32 bits of a start code, so none is lost. -/
theorem Memory.toNat_codeAt (m : Memory) (p : Nat) : (m.codeAt p).toNat = beNat (m.read p 4) := by
  have hlt := beNat_lt (m.read p 4)
  rw [m.length_read] at hlt
  rw [Memory.codeAt, BitVec.toNat_ofNat, Nat.mod_eq_of_lt (hlt.trans_le (by norm_num))]

/-- The five values are the start codes of the five kinds (30_encoding.md R70). -/
theorem exists_codeOfKind_iff (v : Nat) : (∃ k, v = (codeOfKind k).toNat) ↔
    v ∈ [0x000001BA, 0x000001BB, 0x000001BC, 0x000001E0, 0x000001C0] := by
  constructor
  · rintro ⟨k, rfl⟩
    cases k <;> decide
  · intro h
    simp only [List.mem_cons, List.not_mem_nil, or_false] at h
    rcases h with rfl | rfl | rfl | rfl | rfl
    exacts [⟨.packHeader, rfl⟩, ⟨.systemHeader, rfl⟩, ⟨.programStreamMap, rfl⟩, ⟨.videoPES, rfl⟩, ⟨.audioPES, rfl⟩]

/-- `RecognisedAt(p)`: four bytes stand there, and they are the start code of some kind (47_pes_payload_resync.md
R231). -/
theorem Memory.recognisedAt_iff (m : Memory) (p : Nat) :
    m.recognisedAt p = true ↔ p + 4 ≤ m.sizeN ∧ ∃ k, m.codeAt p = codeOfKind k := by
  simp only [Memory.recognisedAt, Bool.and_eq_true, decide_eq_true_eq, Option.isSome_iff_exists,
    kindOfCode_eq_some_iff]

theorem Memory.le_sizeN_of_recognisedAt {m : Memory} {p : Nat} (h : m.recognisedAt p = true) : p + 4 ≤ m.sizeN :=
  ((m.recognisedAt_iff p).1 h).1

/-- The last three positions hold no four bytes (47_pes_payload_resync.md R231). -/
theorem Memory.recognisedAt_pastEnd {m : Memory} {p : Nat} (h : m.sizeN < p + 4) : m.recognisedAt p = false :=
  Bool.eq_false_iff.2 fun hrec => Nat.not_le.2 h (Memory.le_sizeN_of_recognisedAt hrec)

/-- Settles O4: the kinds' codes are the five values, and `codeAt` is the value of the four bytes. -/
theorem recognisedAtRule : Obligations.RecognisedAtRule := by
  intro m p
  rw [← Memory.beNat_read_four, ← exists_codeOfKind_iff, Memory.recognisedAt_iff]
  simp only [← BitVec.toNat_inj, Memory.toNat_codeAt]

/-! ### O42: the resync scan -/

theorem Memory.scan_least {m : Memory} {k q p : Nat} (hk : q + k = m.sizeN) (hq : q ≤ p) (hp : p < m.scan k q) :
    m.recognisedAt p = false := by
  induction k generalizing q with
  | zero =>
    rw [Memory.scan] at hp
    omega
  | succ k ih =>
    rw [Memory.scan] at hp
    split at hp
    next => omega
    next hrec =>
      rcases hq.eq_or_lt with rfl | hlt
      · exact Bool.eq_false_iff.2 hrec
      · exact ih (by omega) hlt hp

theorem Memory.scan_found (m : Memory) (k q : Nat) :
    m.scan k q = m.sizeN ∨ m.recognisedAt (m.scan k q) = true := by
  induction k generalizing q with
  | zero => exact .inl rfl
  | succ k ih =>
    rw [Memory.scan]
    split
    next hrec => exact .inr hrec
    next => exact ih (q + 1)

section Resync

variable {m : Memory} {a : Nat}

/-- The scan goes forward and stays in the source (47_pes_payload_resync.md R233). -/
theorem Memory.resyncFrom_bounds (h : a ≤ m.sizeN) : a ≤ m.resyncFrom a ∧ m.resyncFrom a ≤ m.sizeN :=
  m.scan_le _ _ (Nat.add_sub_of_le h)

theorem Memory.resyncFrom_least (h : a ≤ m.sizeN) {p : Nat} (hp : a ≤ p) (hlt : p < m.resyncFrom a) :
    m.recognisedAt p = false :=
  Memory.scan_least (Nat.add_sub_of_le h) hp hlt

/-- A start code at the current position is found there: a later answer would not be the least. -/
theorem Memory.resyncFrom_of_recognisedAt (hrec : m.recognisedAt a = true) : m.resyncFrom a = a := by
  have ha : a ≤ m.sizeN := by have := Memory.le_sizeN_of_recognisedAt hrec; omega
  refine (Nat.le_of_not_lt fun hlt => ?_).antisymm (Memory.resyncFrom_bounds ha).1
  simp [Memory.resyncFrom_least ha le_rfl hlt] at hrec

end Resync

/-- Settles O42: the scan passes only positions it has looked at, and stops at the first recognised one. -/
theorem resyncFindsLeast : Obligations.ResyncFindsLeast := fun m a ha =>
  ⟨(Memory.resyncFrom_bounds ha).1, (Memory.resyncFrom_bounds ha).2, fun _ => Memory.resyncFrom_least ha,
    m.scan_found _ a, Memory.resyncFrom_of_recognisedAt, fun _ => Memory.recognisedAt_pastEnd⟩

/-! ### O38: when the declared length is trusted -/

theorem trusted_iff (m : Memory) (a : Nat) (len : Int) :
    trusted m a len = true ↔ 0 ≤ len ∧ m.recognisedAt (a + len.toNat) = true := by
  simp only [trusted, Bool.and_eq_true, decide_eq_true_eq]

/-- A length that is not negative is trusted where its end is recognised, and only there. -/
theorem trusted_natCast (m : Memory) (a n : Nat) : trusted m a (n : Int) = m.recognisedAt (a + n) := by
  rw [Bool.eq_iff_iff, trusted_iff]
  simp

theorem trusted_of_neg {m : Memory} {a : Nat} {len : Int} (h : len < 0) : trusted m a len = false :=
  Bool.eq_false_iff.2 fun ht => Int.not_le.2 h ((trusted_iff m a len).1 ht).1

/-- Settles O38: a length is negative, or a number of bytes whose end is looked at. -/
theorem trustedRule : Obligations.TrustedRule := by
  rintro m a packetLength headerLength len rfl
  refine ⟨rfl, trusted_iff m a _, trusted_of_neg, ?_, ?_⟩ <;>
    generalize (packetLength : Int) - 3 - (headerLength : Int) = len
  · intro hshort
    rcases lt_or_ge len 0 with hneg | hnonneg
    · exact trusted_of_neg hneg
    · lift len to Nat using hnonneg
      rw [trusted_natCast]
      exact Memory.recognisedAt_pastEnd (by omega)
  · rintro rfl
    exact trusted_natCast m a 0

/-! ### O40: classification -/

theorem classify_of_short {bs : List Byte} (c : Counters) (h : bs.length < 5) : classify bs c = c := by
  rw [classify, List.getElem?_eq_none (by omega)]

/-- The fifth byte of a video payload decides (47_pes_payload_resync.md R238). -/
theorem classify_of_fifth {bs : List Byte} {b : Byte} (c : Counters) (h : bs[4]? = some b) :
    classify bs c =
      if b = 0x65 then { c with iFrameCnt := c.iFrameCnt + 1 }
      else if b = 0x61 then { c with pFrameCnt := c.pFrameCnt + 1 } else c := by
  rw [classify, h]

/-- Settles O40: a payload of fewer than five bytes has no fifth, and 0x65 and 0x61 are told apart whole. -/
theorem classifyRule : Obligations.ClassifyRule := by
  intro bs c
  refine ⟨classify_of_short c, fun b hb => ?_, rfl, rfl⟩
  rw [classify_of_fifth c hb]
  refine ⟨?_, ?_, fun hi hp => by rw [if_neg hi, if_neg hp]⟩ <;> rintro rfl <;> rfl

/-! ### The payload part -/

theorem exec_pesPayload (s : State) : exec .pesPayload s = s.runPart partPesPayload := rfl

section Payload

variable {s : State} {t : Tree} {packetLength headerLength : Nat}

/-- The part with the two lengths and the offset read: all it still does is to ask whether the length is trusted
(47_pes_payload_resync.md R230). -/
theorem partPesPayload_eq (ht : s.ft = some t) (ha : s.rd.bitpos % 8 = 0)
    (hpl : t.fieldOf .PES_packet_length = some packetLength)
    (hhl : t.fieldOf .PES_header_data_length = some headerLength) :
    partPesPayload s =
      if trusted s.env.src (s.rd.bitpos / 8) (payloadLengthOf packetLength headerLength) then
        (s.readBytes (payloadLengthOf packetLength headerLength).toNat).bind fun bytes s' =>
          State.pushEs { s' with work := { s'.work with payload := bytes } }
      else s.resync (s.rd.bitpos / 8) := by
  rw [partPesPayload, State.field_eq_ok ht hpl, Res.bind_ok, State.field_eq_ok ht hhl, Res.bind_ok,
    State.off_eq_ok ha, Res.bind_ok]

/-- The state with a payload of `n` bytes read into its buffer (47_pes_payload_resync.md R236). -/
def State.buffered (s : State) (n : Nat) : State :=
  { s with rd := s.rd.bulk n, work := { s.work with payload := s.env.src.read (s.rd.bitpos / 8) n } }

/-- The valid path: the start code behind the payload shows that all of it lies inside the source. -/
theorem partPesPayload_of_recognised {n : Nat} (ht : s.ft = some t) (ha : s.rd.bitpos % 8 = 0)
    (hpl : t.fieldOf .PES_packet_length = some (n + 3 + headerLength))
    (hhl : t.fieldOf .PES_header_data_length = some headerLength)
    (hrec : s.env.src.recognisedAt (s.rd.bitpos / 8 + n) = true) :
    s.rd.MovedTo s.env.src (s.rd.bulk n) (s.rd.bitpos + 8 * n) ∧ partPesPayload s = (s.buffered n).pushEs := by
  have hlen : payloadLengthOf (n + 3 + headerLength) headerLength = (n : Int) := by
    unfold payloadLengthOf
    omega
  have he : s.rd.bitpos / 8 + n ≤ s.env.src.sizeN := by
    have := Memory.le_sizeN_of_recognisedAt hrec
    omega
  refine ⟨Reader.movedTo_of_readBytes_ok (Reader.readBytes_eq_ok ha he), ?_⟩
  rw [partPesPayload_eq ht ha hpl hhl, hlen, trusted_natCast, if_pos hrec, Int.toNat_natCast,
    State.readBytes_of_inside ha he, Res.bind_ok]
  rfl

/-- The resync discards the bytes up to the position the scan answers, and counts (47_pes_payload_resync.md R234,
R235). -/
theorem State.resync_of_inside (ha : s.rd.bitpos % 8 = 0) (he : s.rd.bitpos ≤ 8 * s.env.src.sizeN) :
    ∃ rd, s.rd.MovedTo s.env.src rd (8 * s.env.src.resyncFrom (s.rd.bitpos / 8)) ∧
      s.resync (s.rd.bitpos / 8) = .ok .finish ({ s with rd := rd } : State).errored := by
  obtain ⟨hfrom, hto⟩ := Memory.resyncFrom_bounds (m := s.env.src) (a := s.rd.bitpos / 8) (by omega)
  have htarget : s.rd.bitpos + 8 * (s.env.src.resyncFrom (s.rd.bitpos / 8) - s.rd.bitpos / 8) =
      8 * s.env.src.resyncFrom (s.rd.bitpos / 8) := by omega
  obtain ⟨rd, hm, hskip⟩ := State.skip_eq_ok (htarget.trans_le (Nat.mul_le_mul_left 8 hto))
  rw [htarget] at hm
  exact ⟨rd, hm, by rw [State.resync, hskip, Res.bind_ok]; rfl⟩

end Payload

/-! ### O39, O41 -/

/-- Settles O39: with room in ES the payload is pushed and the packet ends; without, the task waits with it. -/
theorem payloadForwarded : Obligations.PayloadForwarded := by
  rintro s t _ headerLength n hr ha ht hpl hhl rfl hrec
  obtain ⟨hm, hpart⟩ := partPesPayload_of_recognised ht ha hpl hhl hrec
  refine ⟨s.rd.bulk n, hm, fun hroom => ?_, fun hfull => ?_⟩
  · have hpush : (s.buffered n).pushEs = .ok .finish (s.buffered n).forwarded := State.pushEs_of_room hroom
    rw [exec_pesPayload, State.runPart_ok hr (hpart.trans hpush), State.goTo_finish]
    rfl
  · have hpush : (s.buffered n).pushEs = .ok .pushEs (s.buffered n) := State.pushEs_of_full hfull
    rw [exec_pesPayload, State.runPart_of_due hr (hpart.trans hpush) (by simp)]
    rfl

/-- The counter of each PES kind on the resync path (47_pes_payload_resync.md R235). -/
theorem countErrored_eq {k : PacketKind} (hk : k = .videoPES ∨ k = .audioPES) (c : Counters) :
    countErrored k c = { c with
      errVideoFrameCnt := if k = .videoPES then c.errVideoFrameCnt + 1 else c.errVideoFrameCnt
      errAudioFrameCnt := if k = .audioPES then c.errAudioFrameCnt + 1 else c.errAudioFrameCnt } := by
  rcases hk with rfl | rfl <;> rfl

/-- Settles O41: the part answers with the packet's end, so nothing is raised and the run goes on. -/
theorem payloadResync : Obligations.PayloadResync := by
  intro s t packetLength headerLength hr ha he ht hpl hhl hk huntrusted
  obtain ⟨rd, hm, hresync⟩ := State.resync_of_inside ha he
  have hpart : partPesPayload s = .ok .finish ({ s with rd := rd } : State).errored := by
    rw [partPesPayload_eq ht ha hpl hhl, payloadLengthOf, huntrusted, if_neg Bool.false_ne_true, hresync]
  refine ⟨rd, hm, ?_⟩
  rw [exec_pesPayload, State.runPart_ok hr hpart, State.goTo_finish, State.errored, countErrored_eq hk]

end Sys2Proof.Machine
end

section
/-! PROOFS of the statements of 48_host_ops.md: the host's and the consumer's operations, which requests are accepted and
how they are answered after an abort, and ParseDetail, which decodes a packet to its end and is never refused. -/

namespace Sys2Proof.Machine

/-! ### O48 to O50: START, RESET, CANCEL, SummaryRead, ConsumerPop -/

/-- Settles O48: START looks at the phase alone, RESET at nothing. -/
theorem startAndReset : Obligations.StartAndReset := fun s =>
  ⟨fun hidle => by rw [exec, execStart, if_pos hidle], fun hne => by rw [exec, execStart, if_neg hne], rfl⟩

/-- Settles O49: both operations are one update of the state. -/
theorem cancelAndSummary : Obligations.CancelAndSummary := fun _ => ⟨fun _ => rfl, rfl⟩

section Pop

variable {s : State}

theorem State.popEvt_of_cons {e : EvtRec} {es : List EvtRec} (h : s.evt = e :: es) :
    s.popEvt = { s with evt := es, tree := s.tree.tail, reply := .event e s.tree.head? } := by
  rw [State.popEvt, h]

theorem State.popEvt_of_nil (h : s.evt = []) : s.popEvt = { s with reply := .empty } := by
  rw [State.popEvt, h]

theorem State.popEs_of_cons {r : EsRec} {rs : List EsRec} (h : s.es = r :: rs) :
    s.popEs = { s with es := rs, reply := .payload r } := by
  rw [State.popEs, h]

theorem State.popEs_of_nil (h : s.es = []) : s.popEs = { s with reply := .empty } := by
  rw [State.popEs, h]

end Pop

/-- Settles O50: with a record at its head a queue loses it, and EVT its tree with it; an empty queue only answers. -/
theorem consumerPopRule : Obligations.ConsumerPopRule := by
  intro s
  refine ⟨fun e es tr trs hevt htree => ?_, fun r rs hes => ?_, fun hevt => ?_, fun hes => ?_⟩ <;>
    rw [exec, execConsumerPop]
  · rw [State.popEvt_of_cons hevt, htree]
    rfl
  · rw [State.popEs_of_cons hes]
  · rw [State.popEvt_of_nil hevt]
  · rw [State.popEs_of_nil hes]

/-! ### O7: requests -/

/-- A request at the head of the agenda is the step (log entry 6). -/
theorem step_of_request {s : State} {i : Instr} {ts : List Turn} (hts : s.env.turns = .request i :: ts) :
    step s = requestStep i (s.withTurns ts) := by
  rw [step, hts]
  rfl

/-- Who may ask for what is a question of the phase alone (log entry 8). -/
theorem State.accepts_withTurns (s : State) (ts : List Turn) (i : Instr) : (s.withTurns ts).accepts i = s.accepts i := by
  cases i <;> rfl

section Accepts

variable {s : State} {i : Instr}

/-- The stream's packets are not requests (48_host_ops.md R257). -/
theorem State.accepts_of_stream (h : i.ctx ≠ none ∨ i = .pesStuffing ∨ i = .pesPayload) : s.accepts i = false := by
  rcases h with h | rfl | rfl
  · cases i <;> simp only [Instr.ctx, ne_eq, not_true_eq_false] at h
    all_goals rfl
  · rfl
  · rfl

/-- In a run the BitReader and the Field Model belong to the demux task (60_exceptions.md R280). -/
theorem State.accepts_of_running (hr : s.run = .running) (h : s.accepts i = true) :
    i = .start ∨ i = .reset ∨ (∃ l, i = .cancel l) ∨ (∃ o k, i = .parseDetail o k) ∨ i = .summaryRead ∨
      ∃ p, i = .consumerPop p := by
  cases i <;> simp [State.accepts, hr] at h ⊢

/-- Outside a run every operation is accepted, but `offset` after an abort (60_exceptions.md R267). -/
theorem State.accepts_of_not_running (hr : s.run ≠ .running) (hctx : i.ctx = none) (hstuffing : i ≠ .pesStuffing)
    (hpayload : i ≠ .pesPayload) (hoffset : s.run = .aborted → i ≠ .offset) : s.accepts i = true := by
  cases i <;> simp only [Instr.ctx, reduceCtorEq] at hctx
  case pesStuffing => exact absurd rfl hstuffing
  case pesPayload => exact absurd rfl hpayload
  case offset =>
    have ha : s.run ≠ .aborted := fun ha => hoffset ha rfl
    simp [State.accepts, hr, ha]
  case start | reset | cancel | parseDetail | summaryRead | consumerPop => rfl
  all_goals simp [State.accepts, hr]

theorem State.accepts_offset_of_aborted (ha : s.run = .aborted) : s.accepts .offset = false := by
  simp [State.accepts, ha]

end Accepts

/-- What a step answers, if it has a next state (log entry 7). -/
def replyOf : Host.Outcome State Fault Refusal → Option Reply
  | .next t => some t.reply
  | .fault _ => none
  | .refused _ => none

theorem replyOf_eq_some {o : Host.Outcome State Fault Refusal} {r : Reply} (h : replyOf o = some r) :
    ∃ u, o = .next u ∧ u.reply = r := by
  cases o with
  | next u => exact ⟨u, rfl, Option.some.inj h⟩
  | fault | refused => cases h

/-- In a halted phase an operation that could change a register answers that it is not accepted (log entry 8). -/
theorem State.replyOf_runOp_halted {α : Type} {op : State → Res State α} {reply : α → State → Reply} {s : State}
    (hh : s.run.halted = true) : replyOf (s.runOp op reply) = some .notAccepted := by
  rw [State.runOp, if_pos hh]
  rfl

/-- ParseDetail has a BitReader context of its own (48_host_ops.md R253). -/
theorem State.detailOf_rd (a : Nat) (k : PacketKind) (s : State) (rd : Reader) :
    ({ s with rd := rd } : State).detailOf a k = s.detailOf a k := rfl

theorem replyOf_execParseDetail (a : Word) (k : PacketKind) (s : State) (rd : Reader) :
    replyOf (execParseDetail a k { s with rd := rd }) = replyOf (execParseDetail a k s) := by
  simp only [execParseDetail, State.detailOf_rd]
  split
  · split <;> rfl
  · rfl

/-- `get` answers with the tree's value alone (41_field_model.md R133). -/
theorem replyOf_execGet (name : NodeName) (s : State) :
    replyOf (execGet name s) = (s.ft.bind fun t => lookupNode name t.children).map .word := by
  rcases hft : s.ft with _ | t
  · simp [execGet, State.get, hft, replyOf]
  · rcases hv : lookupNode name t.children with _ | v <;> simp [execGet, State.get, hft, hv, replyOf]

theorem replyOf_execReadAt (len pos : Nat) (s : State) (rd : Reader) :
    replyOf (execReadAt len pos { s with rd := rd }) = replyOf (execReadAt len pos s) := by
  simp only [execReadAt]
  cases s.env.src.readAt len pos <;> rfl

theorem replyOf_execConsumerPop (p : Port) (s : State) (rd : Reader) :
    replyOf (execConsumerPop p { s with rd := rd }) = replyOf (execConsumerPop p s) := by
  cases p <;> simp only [execConsumerPop, State.popEvt, State.popEs]
  · cases s.evt <;> rfl
  · cases s.es <;> rfl

/-- After an abort no answer depends on the reader (60_exceptions.md R267): what looks at it is not accepted, and what is
accepted looks elsewhere. -/
theorem replyOf_requestStep_aborted (i : Instr) {s : State} (ha : s.run = .aborted) (rd : Reader) :
    replyOf (requestStep i { s with rd := rd }) = replyOf (requestStep i s) := by
  have hh : s.run.halted = true := by rw [ha]; rfl
  have hacc : ({ s with rd := rd } : State).accepts i = s.accepts i := by cases i <;> rfl
  unfold requestStep
  rw [hacc]
  split
  case isFalse => rfl
  case isTrue hok =>
    cases i <;> simp only [State.accepts, Bool.false_eq_true] at hok
    case offset => simp [ha] at hok
    case size | reset | cancel | summaryRead => rfl
    case peek | read | readBytes | skipBytes =>
      exact (State.replyOf_runOp_halted (by exact hh)).trans (State.replyOf_runOp_halted hh).symm
    case decode | decodeNested =>
      simp only [exec, execDecode, execDecodeNested]
      exact (State.replyOf_runOp_halted (by exact hh)).trans (State.replyOf_runOp_halted hh).symm
    case readAt len pos => exact replyOf_execReadAt len pos s rd
    case get name => exact (replyOf_execGet name _).trans (replyOf_execGet name s).symm
    case start => simp only [exec, execStart, ha, reduceCtorEq, if_false]; rfl
    case parseDetail a k => exact replyOf_execParseDetail a k s rd
    case consumerPop p => exact replyOf_execConsumerPop p s rd

/-- Settles O7: acceptance depends on the phase and the request alone, and after an abort so does what an answer may look
at. -/
theorem stepServesRequests : Obligations.StepServesRequests := by
  intro s i ts hts
  have hacc := s.accepts_withTurns ts i
  refine ⟨fun h => ?_, fun h => ?_, State.accepts_of_stream, State.accepts_of_running, State.accepts_of_not_running,
    State.accepts_offset_of_aborted, fun ha rd t h => ?_⟩
  · rw [step_of_request hts, requestStep, hacc, if_pos h]
    rfl
  · rw [step_of_request hts, requestStep, hacc, if_neg (by simp [h])]
    rfl
  · rw [step_of_request hts] at h
    rw [step_of_request (s := { s with rd := rd }) hts]
    refine replyOf_eq_some ((replyOf_requestStep_aborted (s := s.withTurns ts) i ha rd).trans ?_)
    rw [h]
    rfl

/-! ### ParseDetail: the parts one after the other -/

/-- The tree of a packet of kind `k` (10_state.md R29). -/
def Tree.IsOf (t : Tree) (k : PacketKind) : Prop := t.name = .kind k ∧ t.value = (codeOfKind k).setWidth 64

/-- The state has the tree of a packet of kind `k`. -/
def State.HoldsTree (s : State) (k : PacketKind) : Prop := ∃ t, s.ft = some t ∧ t.IsOf k

/-- The decode of a packet of kind `k` stands before `d` and can go on: the cursor is aligned and the tree has what is read
back. -/
def State.StandsBefore (s : State) (k : PacketKind) (d : Due) : Prop :=
  s.rd.bitpos % 8 = 0 ∧ ∃ t, s.ft = some t ∧ t.IsOf k ∧ t.Has d.needs

section Parts

variable {s s' : State} {k : PacketKind} {d d' : Due}

theorem State.Advances.holdsTree (h : s.Advances s') (hs : s.HoldsTree k) : s'.HoldsTree k := by
  obtain ⟨t, ht, hn, hv⟩ := hs
  obtain ⟨t', ht', hn', hv', -⟩ := h.grown t ht
  exact ⟨t', ht', hn'.trans hn, hv'.trans hv⟩

theorem State.StandsBefore.holdsTree (h : s.StandsBefore k d) : s.HoldsTree k := by
  obtain ⟨-, t, ht, hof, -⟩ := h
  exact ⟨t, ht, hof⟩

theorem State.PartOk.standsBefore (h : s.PartOk d d' s') (hs : s.HoldsTree k) : s'.StandsBefore k d' := by
  obtain ⟨hadv, ha, ⟨t, ht, hneeds⟩, -⟩ := h
  obtain ⟨u, hu, hof⟩ := hadv.holdsTree hs
  obtain rfl : u = t := Option.some.inj (hu.symm.trans ht)
  exact ⟨ha, u, hu, hof, hneeds⟩

/-- Behind a payload nothing is read back. -/
theorem State.PayloadOk.standsBefore (h : s.PayloadOk d s') (hs : s.HoldsTree k) : s'.StandsBefore k d := by
  obtain ⟨t, ht, hof⟩ := hs
  rcases h with ⟨rd, p, bs, -, ha, hm, -⟩ | ⟨rd, p, bs, -, ha, hm, -⟩ | ⟨rd, p, -, ha, hm⟩ <;>
    exact ⟨hm.1 ▸ ha, t, ht, hof, List.forall_mem_nil _⟩

/-- Every part that is due answers or raises, and keeps the packet's tree. -/
theorem State.StandsBefore.duePart_sat (hs : s.StandsBefore k d) {r : Res State Due} (h : s.duePart d = some r) :
    r.Sat (fun d' s' => s'.StandsBefore k d') (fun _ s' => s'.HoldsTree k) (fun _ => False) := by
  have htree := hs.holdsTree
  obtain ⟨ha, t, ht, -, hneeds⟩ := hs
  cases d with
  | top | pushEs | finish => cases h
  | record r =>
    cases h
    exact (partOf_part (ctx_decodeRecord r _) ht ha hneeds).mono (fun _ _ hok => hok.standsBefore htree)
      (fun _ _ herr => herr.1.holdsTree htree) (fun _ => id)
  | stuffing =>
    cases h
    exact (partPesStuffing_part ht ha hneeds).mono (fun _ _ hok => hok.standsBefore htree)
      (fun _ _ herr => herr.1.holdsTree htree) (fun _ => id)
  | payload =>
    cases h
    exact (partPesPayload_part ht ha hneeds).mono (fun _ _ hok => hok.standsBefore htree)
      (fun _ _ herr => herr.1.holdsTree htree) (fun _ => id)

end Parts

section DetailLoop

variable {s : State} {d : Due}

theorem State.detailLoop_of_none (fuel : Nat) (h : s.duePart d = none) :
    State.detailLoop fuel d s = .inl (.detail s.ft (detailStatus s)) := by
  cases fuel with
  | zero => rfl
  | succ fuel => rw [State.detailLoop, h]

theorem State.detailLoop_of_ok {fuel : Nat} {d' : Due} {s' : State} (h : s.duePart d = some (.ok d' s')) :
    State.detailLoop (fuel + 1) d s = State.detailLoop fuel d' s' := by
  rw [State.detailLoop, h]

theorem State.detailLoop_of_raise {fuel : Nat} {e : Err} {s' : State} (h : s.duePart d = some (.raise e s')) :
    State.detailLoop (fuel + 1) d s = .inl (.detail s'.ft (some e)) := by
  rw [State.detailLoop, h]

/-- The decode of a packet, however it ends, answers with the packet's tree (48_host_ops.md R253). -/
theorem State.StandsBefore.detailLoop_answers {k : PacketKind} (fuel : Nat) (hs : s.StandsBefore k d) :
    ∃ t status, State.detailLoop fuel d s = .inl (.detail (some t) status) ∧ t.IsOf k := by
  induction fuel generalizing s d with
  | zero =>
    obtain ⟨t, ht, hof⟩ := hs.holdsTree
    exact ⟨t, _, by rw [State.detailLoop, ht], hof⟩
  | succ fuel ih =>
    rcases hr : s.duePart d with _ | ⟨d', s'⟩ | ⟨e, s'⟩ | x
    · obtain ⟨t, ht, hof⟩ := hs.holdsTree
      exact ⟨t, _, by rw [State.detailLoop_of_none _ hr, ht], hof⟩
    · rw [State.detailLoop_of_ok hr]
      exact ih (hs.duePart_sat hr)
    · obtain ⟨t, ht, hof⟩ := hs.duePart_sat hr
      exact ⟨t, _, by rw [State.detailLoop_of_raise hr, ht], hof⟩
    · exact (hs.duePart_sat hr).elim

end DetailLoop

/-! ### ParseDetail: the start code and the answer -/

section Detail

variable {s : State} {a : Nat} {k : PacketKind}

/-- Two start codes are the same where their 32 bits are (20_memory.md R52). -/
theorem Memory.codeAt_eq_iff (m : Memory) (a : Nat) (c : StartCode) : m.codeAt a = c ↔ m.bits (8 * a) 32 = c.toNat := by
  rw [← BitVec.toNat_inj, Memory.toNat_codeAt, Memory.beNat_read]

/-- With 32 bits at the offset, they decide (48_host_ops.md R253). -/
theorem State.detailOf_of_inside (k : PacketKind) (he : a + 4 ≤ s.env.src.sizeN) :
    ∃ rd : Reader, rd.bitpos = 8 * a + 32 ∧ s.detailOf a k =
      if s.env.src.codeAt a = codeOfKind k then
        State.detailLoop (s.env.src.sizeN + 32) (.record (firstRecord k))
          (({ s.scratch a with rd := rd } : State).dispatch k (firstRecord k))
      else .inl (.detail none (some .unknownStartCode)) := by
  obtain ⟨rd, hm, hread⟩ := State.read_eq_ok (s := s.scratch a) (n := 32) (by omega)
    (by rw [State.scratch_rd, Reader.atByte_bitpos]; omega)
    (by rw [State.scratch_rd, Reader.atByte_bitpos, State.scratch_env]; omega)
  refine ⟨rd, hm.1, ?_⟩
  rw [State.detailOf, hread]
  exact if_congr (Memory.codeAt_eq_iff _ _ _).symm rfl rfl

/-- Fewer than four bytes at the offset: the empty tree (log entry 13). -/
theorem State.detailOf_pastEnd (k : PacketKind) (he : s.env.src.sizeN < a + 4) :
    s.detailOf a k = .inl (.detail none (some .unexpectedEndOfData)) := by
  rw [State.detailOf, State.read_eq_raise (by omega)
    (by rw [State.scratch_rd, Reader.atByte_bitpos]; omega)
    (by rw [State.scratch_rd, Reader.atByte_bitpos, State.scratch_env]; omega)]

/-- A packet dispatched on the copy stands before its first record, which reads nothing back. -/
theorem State.standsBefore_dispatch (k : PacketKind) (ha : s.rd.bitpos % 8 = 0) :
    (s.dispatch k (firstRecord k)).StandsBefore k (.record (firstRecord k)) :=
  ⟨ha, _, rfl, ⟨rfl, rfl⟩, by cases k <;> exact List.forall_mem_nil _⟩

/-- ParseDetail always has an answer; with four bytes at the offset it has a tree where they are the kind's start code. -/
theorem State.detailOf_answers (s : State) (a : Nat) (k : PacketKind) :
    ∃ tree status, s.detailOf a k = .inl (.detail tree status) ∧
      (a + 4 ≤ s.env.src.sizeN → s.env.src.codeAt a ≠ codeOfKind k →
        tree = none ∧ status = some .unknownStartCode) ∧
      (a + 4 ≤ s.env.src.sizeN → s.env.src.codeAt a = codeOfKind k → ∃ t, tree = some t ∧ t.IsOf k) := by
  by_cases he : a + 4 ≤ s.env.src.sizeN
  · obtain ⟨rd, hb, h⟩ := State.detailOf_of_inside k he
    by_cases hcode : s.env.src.codeAt a = codeOfKind k
    · have hstands := State.standsBefore_dispatch (s := { s.scratch a with rd := rd }) k (by dsimp only; omega)
      obtain ⟨t, status, hloop, hof⟩ := hstands.detailLoop_answers (s.env.src.sizeN + 32)
      rw [if_pos hcode, hloop] at h
      exact ⟨_, _, h, fun _ hne => absurd hcode hne, fun _ _ => ⟨t, rfl, hof⟩⟩
    · rw [if_neg hcode] at h
      exact ⟨_, _, h, fun _ _ => ⟨rfl, rfl⟩, fun _ heq => absurd heq hcode⟩
  · exact ⟨_, _, State.detailOf_pastEnd k (Nat.lt_of_not_le he), fun h => absurd h he, fun h => absurd h he⟩

/-- ParseDetail leaves its answer and nothing else (48_host_ops.md R253). -/
theorem exec_parseDetail_of_halted {offset : Word} {r : Reply} (hh : s.run.halted = true)
    (h : s.detailOf offset.toNat k = .inl r) : exec (.parseDetail offset k) s = .next { s with reply := r } := by
  rw [exec, execParseDetail, if_pos hh, h]

end Detail

/-! ### O51, O52 -/

/-- Settles O51: no part of the decode is refused, and the copy it runs on does not have the reply. -/
theorem parseDetailRule : Obligations.ParseDetailRule := by
  intro s offset k
  refine ⟨fun hh => by rw [exec, execParseDetail, if_neg (by simp [hh])], fun hh => ?_⟩
  obtain ⟨tree, status, h, hunknown, htree⟩ := s.detailOf_answers offset.toNat k
  exact ⟨tree, status, exec_parseDetail_of_halted hh h,
    exec_parseDetail_of_halted (s := { s with reply := .detail tree status }) hh h, hunknown, htree⟩

/-- A pack header is one part, and its tree holds the fourteen fields (43_pack_header.md R160). -/
theorem State.detailLoop_packBody {s : State} {t : Tree} {r : PackBody} (fuel : Nat) (ht : s.ft = some t)
    (hok : s.pkt.status = .ok) (hr : decodePackBody (s.env.src.bits s.rd.bitpos 80) = r)
    (he : s.rd.bitpos + 80 + 8 * r.pack_stuffing_length.toNat ≤ 8 * s.env.src.sizeN) :
    State.detailLoop (fuel + 1) (.record .packBody) s =
      .inl (.detail (some (t.withFields (fieldsOfPackBody r))) none) := by
  obtain ⟨rd, -, hpart⟩ := partPackBody_of_inside (r := r) ht he
  have hdue : s.duePart (.record .packBody) = some (partPackBody r s) := by
    rw [← hr]
    rfl
  rw [State.detailLoop_of_ok (hdue.trans (congrArg _ hpart)), State.detailLoop_of_none _ rfl, detailStatus,
    if_neg (by simp [hok])]

/-- Settles O52: the one part of a pack header lies inside the source and ends the decode. -/
theorem parseDetailPack : Obligations.ParseDetailPack := by
  intro s offset r hh hcode hr he
  obtain ⟨rd, hb, h⟩ := State.detailOf_of_inside (s := s) (a := offset.toNat) .packHeader (by omega)
  rw [if_pos (show _ = codeOfKind .packHeader from hcode)] at h
  rw [show 8 * (offset.toNat + 4) = rd.bitpos by omega] at hr
  have hloop := State.detailLoop_packBody
    (s := ({ s.scratch offset.toNat with rd := rd } : State).dispatch .packHeader .packBody)
    (s.env.src.sizeN + 31) rfl rfl hr (by show rd.bitpos + _ + _ ≤ 8 * s.env.src.sizeN; omega)
  exact exec_parseDetail_of_halted hh (h.trans hloop)

end Sys2Proof.Machine
end

section
/-! PROOFS of the statements of 60_exceptions.md: how a fatal error is taken, and the end of the source in a record and in a
skip, wherever a packet has one. -/

namespace Sys2Proof.Machine

/-! ### O46: a fatal error -/

/-- An error raised in a run by an operation of the BitReader or the Field Model is taken (60_exceptions.md R267). -/
theorem State.runOp_raise_running {α : Type} {op : State → Res State α} {reply : α → State → Reply} {s s' : State}
    {e : Err} (hr : s.run = .running) (h : op s = .raise e s') : s.runOp op reply = .next (s'.raiseFatal e) := by
  rw [State.runOp, if_neg (by simp [hr, Phase.halted]), h]
  exact if_pos hr

/-- Settles O46: what is due says where the error is taken; a request of more than 64 bits raises one. -/
theorem fatalErrorTaken : Obligations.FatalErrorTaken := by
  intro s e
  refine ⟨fun htop => by rw [State.raiseFatal, if_pos htop]; rfl, State.raiseFatal_inPacket e, fun hr n hn => ?_⟩
  have hpeek := State.peek_tooLong (s := s) hn
  exact ⟨State.runOp_raise_running hr (State.read_of_peek_raise hpeek), State.runOp_raise_running hr hpeek⟩

/-! ### A record cut short -/

/-- The end of the source raised at bit `p`: the cursor is there, the tree is `tr`, and of the rest only working values other
than what is due may differ from those of `u` (60_exceptions.md R267, R268). -/
def State.CutAt (u : State) (p : Nat) (tr : Tree) (r : Res State Due) : Prop :=
  ∃ (rd : Reader) (w : Work), u.rd.MovedTo u.env.src rd p ∧ w.due = u.work.due ∧
    r = .raise .unexpectedEndOfData { u with rd := rd, ft := some tr, work := w }

/-- A part cut short inside a reportable packet, as a step: the event, then the abort (60_exceptions.md R267). -/
theorem State.CutAt.runPart {part : State → Res State Due} {s u : State} {p : Nat} {tr : Tree}
    (h : u.CutAt p tr (part s)) (hr : s.run = .running) (hdue : u.work.due ≠ .top) (hk : u.pkt.kind ≠ .packHeader)
    (hroom : u.evt.length ≤ u.env.qdepthLess1) :
    ∃ rd, u.rd.MovedTo u.env.src rd p ∧ s.runPart part = .next (u.failedPacket 2 rd tr) := by
  obtain ⟨rd, w, hm, hw, hpart⟩ := h
  exact ⟨rd, hm, State.runPart_failed hr hpart (by rwa [hw]) hk hroom⟩

/-- What a part does after an operation that is cut short is not done (00_scope.md R11). -/
theorem State.CutAt.of_raise {α : Type} {s : State} {p : Nat} {tr : Tree} {op : Res State α} {rd : Reader}
    (f : α → State → Res State Due) (hm : s.rd.MovedTo s.env.src rd p)
    (h : op = .raise .unexpectedEndOfData { s with rd := rd, ft := some tr }) : s.CutAt p tr (op.bind f) :=
  ⟨rd, s.work, hm, rfl, by rw [h, Res.bind_raise]⟩

section Record

variable {s : State} {t : Tree} {pre post : List FieldVal} {f : FieldVal} (ht : s.ft = some t)
include ht

/-- A program stream map's length is decoded before `psmMark` is taken, the rest of the record after it
(45_program_stream_map.md R182). -/
theorem partPsmFixed_cutAt {r : PsmFixed} (ha : s.rd.bitpos % 8 = 0) (hfs : fieldsOfPsmFixed r = pre ++ f :: post)
    (hp : pre = [] ∨ s.rd.bitpos + bitsOf pre ≤ 8 * s.env.src.sizeN)
    (he : 8 * s.env.src.sizeN < s.rd.bitpos + bitsOf pre + f.width) :
    s.CutAt (s.rd.bitpos + bitsOf pre) (t.withFields pre) (partPsmFixed r s) := by
  have hn := narrow_fieldsOfPsmFixed r
  rcases pre with _ | ⟨g, pre⟩
  · have htake : (fieldsOfPsmFixed r).take 1 = [] ++ f :: [] := by rw [hfs]; rfl
    obtain ⟨rd, hm, h⟩ := State.decodeFields_root_eq_raise (pre := []) (post := []) ht (htake ▸ hn.take 1) (.inl rfl) he
    rw [← htake] at h
    exact .of_raise _ hm h
  · have htake : (fieldsOfPsmFixed r).take 1 = [g] := by rw [hfs]; rfl
    have hdrop : (fieldsOfPsmFixed r).drop 1 = pre ++ f :: post := by rw [hfs]; rfl
    have hwidth : bitsOf ((fieldsOfPsmFixed r).take 1) = 16 := rfl
    have hbits : bitsOf (g :: pre) = 16 + bitsOf pre := by
      rw [htake, bitsOf_cons, bitsOf_nil] at hwidth
      rw [bitsOf_cons]
      omega
    have hp : s.rd.bitpos + bitsOf (g :: pre) ≤ 8 * s.env.src.sizeN := hp.resolve_left (List.cons_ne_nil _ _)
    rw [hbits, ← Nat.add_assoc] at hp he ⊢
    obtain ⟨rd1, hm1, h1⟩ := State.decodeFields_root_eq_ok ht ((hn.take 1).servedFrom _) (by rw [hwidth]; omega)
    rw [hwidth] at hm1
    obtain ⟨rd2, hm2, h2⟩ := State.decodeFields_root_eq_raise
      (s := { s with
        rd := rd1, ft := some (t.withFields ((fieldsOfPsmFixed r).take 1)),
        work := { s.work with psmMark := rd1.bitpos / 8 } })
      rfl (hdrop ▸ hn.drop 1) (.inr (by rwa [hm1.1])) (by rwa [hm1.1])
    rw [hm1.1] at hm2
    refine ⟨rd2, { s.work with psmMark := rd1.bitpos / 8 }, hm1.trans hm2, rfl, ?_⟩
    rw [partPsmFixed, h1, Res.bind_ok, State.off_eq_ok (by have := hm1.1; dsimp only; omega), Res.bind_ok, hdrop, h2,
      Res.bind_raise, htake, ← Tree.withFields_append]
    rfl

/-- Every record keeps the fields before the one cut short, at the root of the tree or, of a stream-detail record and of a
map entry, in the nested child (41_field_model.md R131, R132). -/
theorem partOf_cutAt {i : Instr} {r : Rec} (hc : i.ctx = some (.record r)) (ha : s.rd.bitpos % 8 = 0)
    (hfs : i.fields = pre ++ f :: post) (hp : pre = [] ∨ s.rd.bitpos + bitsOf pre ≤ 8 * s.env.src.sizeN)
    (he : 8 * s.env.src.sizeN < s.rd.bitpos + bitsOf pre + f.width) :
    s.CutAt (s.rd.bitpos + bitsOf pre)
      (if r = .sysStream then t.withChild .stream pre
        else if r = .psmEntry then t.withChild .es_map_entry pre
        else t.withFields pre) (partOf i s) := by
  have hn := narrow_fields i
  rw [hfs] at hn
  obtain ⟨rd, hm, hroot⟩ := State.decodeFields_root_eq_raise ht hn hp he
  have hchild := fun name => State.decodeChild_eq_raise name ht hn hp he
  rw [← hfs] at hroot hchild
  cases i <;> simp only [Instr.ctx, Option.some.injEq, Ctx.record.injEq, reduceCtorEq] at hc
  all_goals
    subst hc
    simp only [reduceCtorEq, if_true, if_false]
  case sysStream =>
    obtain ⟨rd, hm, h⟩ := hchild .stream
    exact .of_raise _ hm h
  case psmEntry =>
    obtain ⟨rd, hm, h⟩ := hchild .es_map_entry
    exact .of_raise _ hm h
  case psmFixed => exact partPsmFixed_cutAt ht ha hfs hp he
  case pesPrivateData => simp [Instr.fields] at hfs
  all_goals exact .of_raise _ hm hroot

end Record

/-! ### O44 -/

/-- Settles O44: the part raises at the field cut short, and EVT has room for the packet's event. -/
theorem recordPastEnd : Obligations.RecordPastEnd := by
  intro i r s t pre f post hc hr ha ht hdue hk hroom hfs hp he
  rw [exec_record hc]
  exact (partOf_cutAt ht hc ha hfs hp he).runPart hr hdue hk hroom

/-! ### A skip past the end -/

/-- A skip behind what a part has decoded up to bit `p` raises, and leaves the cursor there (41_field_model.md R134). -/
theorem State.CutAt.of_skip {u : State} {p n : Nat} {tr : Tree} {rd : Reader} (w : Work)
    (f : Unit → State → Res State Due) (hm : u.rd.MovedTo u.env.src rd p) (hw : w.due = u.work.due)
    (he : 8 * u.env.src.sizeN < p + 8 * n) :
    u.CutAt p tr ((State.skip n { u with rd := rd, ft := some tr, work := w }).bind f) :=
  ⟨rd, w, hm, hw, by rw [State.skip_eq_raise (by rwa [hm.1]), Res.bind_raise]⟩

section Skip

variable {s : State} {t : Tree} (ht : s.ft = some t)
include ht

/-- The descriptor bytes behind a program stream map's fixed record (45_program_stream_map.md R180, R182). -/
theorem partPsmFixed_cutAt_skip {r : PsmFixed} (ha : s.rd.bitpos % 8 = 0)
    (hin : s.rd.bitpos + 48 ≤ 8 * s.env.src.sizeN)
    (he : 8 * s.env.src.sizeN < s.rd.bitpos + 48 + 8 * r.program_stream_info_length.toNat) :
    s.CutAt (s.rd.bitpos + 48) (t.withFields (fieldsOfPsmFixed r)) (partPsmFixed r s) := by
  obtain ⟨rd, hm, hpart⟩ := partPsmFixed_of_record (r := r) ht ha hin
  rw [hpart]
  exact .of_skip { s.work with psmMark := s.rd.bitpos / 8 + 2 } _ hm rfl he

/-- The descriptor bytes of an entry, its stream type written already (45_program_stream_map.md R180, R186). -/
theorem partPsmEntry_cutAt_skip {r : PsmEntry} (hle : r.elementary_stream_info_length.toNat + 4 ≤ s.work.esmRemaining)
    (hin : s.rd.bitpos + 32 ≤ 8 * s.env.src.sizeN)
    (he : 8 * s.env.src.sizeN < s.rd.bitpos + 32 + 8 * r.elementary_stream_info_length.toNat) :
    (setStreamType r.stream_type r.elementary_stream_id s).CutAt (s.rd.bitpos + 32)
      (t.withChild .es_map_entry (fieldsOfPsmEntry r)) (partPsmEntry r s) := by
  obtain ⟨rd, hm, h⟩ := State.decodeChild_eq_ok .es_map_entry ht ((narrow_fieldsOfPsmEntry r).servedFrom _) hin
  rw [partPsmEntry, h, Res.bind_ok, if_neg (by dsimp only; omega), setStreamType_eq, setStreamType_eq]
  exact .of_skip s.work _ hm rfl he

/-- The bytes of a block gated by the extension flags (46_pes_header.md R208, R209, R212). -/
theorem extBlock_cutAt_skip {r : Rec} {fs : List FieldVal} {n : Nat} (hf : Narrow fs)
    (hin : s.rd.bitpos + bitsOf fs ≤ 8 * s.env.src.sizeN)
    (he : 8 * s.env.src.sizeN < s.rd.bitpos + bitsOf fs + 8 * n) :
    s.CutAt (s.rd.bitpos + bitsOf fs) (t.withFields fs) (extBlock r fs n s) := by
  obtain ⟨rd, hm, h⟩ := State.decodeFields_root_eq_ok ht (hf.servedFrom _) hin
  rw [extBlock, h, Res.bind_ok]
  exact .of_skip s.work _ hm rfl he

/-- The header stuffing, of which there is some (46_pes_header.md R213). -/
theorem partPesStuffing_cutAt_skip {declared : Nat} (ha : s.rd.bitpos % 8 = 0)
    (hl : t.fieldOf .PES_header_data_length = some declared) (hin : s.rd.bitpos ≤ 8 * s.env.src.sizeN)
    (he : 8 * s.env.src.sizeN <
      s.rd.bitpos + 8 * (stuffingOf declared (s.rd.bitpos / 8) s.work.hdrMark).toNat) :
    s.CutAt s.rd.bitpos t (partPesStuffing s) := by
  have hpos : 0 < stuffingOf declared (s.rd.bitpos / 8) s.work.hdrMark := by omega
  have hs : s = { s with rd := s.rd, ft := some t, work := s.work } := by rw [← ht]
  rw [partPesStuffing, State.off_eq_ok ha, Res.bind_ok, State.field_eq_ok ht hl, Res.bind_ok, if_pos hpos]
  have hcut := State.CutAt.of_skip (tr := t) s.work (fun _ s' => .ok .payload s') (Reader.movedTo_refl s.env.src s.rd)
    rfl he
  rwa [← hs] at hcut

end Skip

/-! ### O45 -/

/-- Settles O45: each of the six parts has decoded its record where it comes to its skip. -/
theorem skipPastEnd : Obligations.SkipPastEnd := by
  intro i n s u t tr hi hr ha ht hdue hk hroom hin he
  rcases hi with ⟨r, rfl, rfl, hle, rfl, rfl⟩ | ⟨rfl, rfl, hi⟩
  · rw [exec_record (r := .psmEntry) rfl]
    have hcut := partPsmEntry_cutAt_skip ht hle hin he
    rw [setStreamType_eq] at hcut
    exact hcut.runPart hr hdue hk hroom
  · obtain ⟨part, hexec, hcut⟩ : ∃ part, exec i u = u.runPart part ∧
        u.CutAt (u.rd.bitpos + bitsOf i.fields) (t.withFields i.fields) (part u) := by
      rcases hi with ⟨r, rfl, rfl⟩ | ⟨r, rfl, rfl⟩ | ⟨r, rfl, rfl⟩ | ⟨r, rfl, rfl⟩ | ⟨declared, rfl, hl, rfl⟩
      · exact ⟨_, exec_record (r := .psmFixed) rfl u, partPsmFixed_cutAt_skip ht ha hin he⟩
      · exact ⟨_, exec_record (r := .pesPrivateData) rfl u, extBlock_cutAt_skip ht narrow_nil hin he⟩
      · exact ⟨_, exec_record (r := .pesPackField) rfl u,
          extBlock_cutAt_skip ht (narrow_fieldsOfPesPackField r) hin he⟩
      · exact ⟨_, exec_record (r := .pesExt2) rfl u, extBlock_cutAt_skip ht (narrow_fieldsOfPesExt2 r) hin he⟩
      · refine ⟨_, exec_pesStuffing u, ?_⟩
        have hcut := partPesStuffing_cutAt_skip ht ha hl hin he
        rwa [← Tree.withFields_nil t] at hcut
    rw [hexec]
    exact hcut.runPart hr hdue hk hroom

end Sys2Proof.Machine
end

section
/-! PROOFS of the statements of 70_reset_and_hazards.md: the values after RESET, a push that waits, and the counters under
every step. -/

namespace Sys2Proof.Machine

/-! ### O53: the state after RESET -/

/-- Settles O53: RESET is the reset state, but for the inputs and the reply. -/
theorem resetValues : Obligations.ResetValues := by
  refine fun s => ⟨{ State.reset with env := s.env, reply := .done }, rfl, ?_⟩
  rintro u (rfl | rfl) <;> exact ⟨rfl, rfl, rfl, rfl, rfl, rfl, rfl, rfl, rfl, rfl, rfl, rfl, rfl⟩

/-! ### O47: a push that waits -/

/-- The state in which the task is already where it is sent. -/
theorem State.withDue_self {s : State} {d : Due} (hd : s.work.due = d) :
    ({ s with work := { s.work with due := d } } : State) = s := by
  rw [← hd]

theorem State.retryEs_of_full {s : State} (hr : s.run = .running) (hd : s.work.due = .pushEs)
    (hfull : s.env.esDepthLess1 < s.es.length) : s.retryEs = .next s := by
  rw [State.retryEs, State.runPart_of_due hr (State.pushEs_of_full hfull) (by simp), State.withDue_self hd]

theorem State.retryEs_of_room {s : State} (hr : s.run = .running) (hroom : s.es.length ≤ s.env.esDepthLess1) :
    s.retryEs = .next s.forwarded.finishPacket := by
  rw [State.retryEs, State.runPart_ok hr (State.pushEs_of_room hroom), State.goTo_finish]

/-- The task that waits for room in ES tries its push again (10_state.md R49). -/
theorem step_of_pushEs {s : State} (hts : s.env.turns = []) (hr : s.run = .running) (hd : s.work.due = .pushEs) :
    step s = s.retryEs := by
  simp only [step, hts, taskStep, if_pos hr, hd]

/-- Settles O47: a full queue sends the task where it already is. -/
theorem waitingPush : Obligations.WaitingPush := by
  intro s hts hr
  refine ⟨fun hd hk hfull => ?_, fun hd hfull => ?_, fun hd hroom => ?_⟩
  · rw [step_of_finish hts hr hd, State.finishPacket_of_full hk hfull, State.withDue_self hd]
  · rw [step_of_pushEs hts hr hd, State.retryEs_of_full hr hd hfull]
  · rw [step_of_pushEs hts hr hd, State.retryEs_of_room hr hroom, State.forwarded]

/-! ### The counters of a packet -/

/-- What `CountInv` says of the counters, the rest of the state being seen as numbers: the events logged, the cursor, and how
many packets, video packets and audio packets are open. -/
structure Counters.Fit (c : Counters) (log pos packet video audio : Nat) : Prop where
  started : 32 * (c.totalVideoFrameCnt.toNat + c.totalAudioFrameCnt.toNat + c.psmCnt.toNat) ≤ pos
  events : 32 * (c.pktCnt.toNat + packet) ≤ pos
  logged : c.pktCnt.toNat = log
  video : c.errVideoFrameCnt.toNat + c.iFrameCnt.toNat + c.pFrameCnt.toNat + video ≤ c.totalVideoFrameCnt.toNat
  audio : c.errAudioFrameCnt.toNat + audio ≤ c.totalAudioFrameCnt.toNat

theorem State.countInv_iff (s : State) : s.CountInv ↔
    s.cnt.Fit s.evtLog.length s.rd.bitpos s.openPacket (s.openPes .videoPES) (s.openPes .audioPES) :=
  ⟨fun ⟨h1, h2, h3, h4, h5⟩ => ⟨h1, h2, h3, h4, h5⟩, fun ⟨h1, h2, h3, h4, h5⟩ => ⟨h1, h2, h3, h4, h5⟩⟩

/-- A counter below `2 ^ 64 - 1` steps without overflow (10_state.md R35). -/
theorem Word.toNat_succ {w : Word} (h : w.toNat + 1 < 2 ^ 64) : (w + 1).toNat = w.toNat + 1 :=
  BitVec.toNat_add_of_lt h

section Fit

variable {c : Counters} {log pos packet video audio : Nat}

/-- The cursor goes on, and packets may close without being counted as anything. -/
theorem Counters.Fit.mono (h : c.Fit log pos packet video audio) {pos' packet' video' audio' : Nat} (hpos : pos ≤ pos')
    (hpacket : packet' ≤ packet) (hvideo : video' ≤ video) (haudio : audio' ≤ audio) :
    c.Fit log pos' packet' video' audio' := by
  obtain ⟨started, events, logged, hv, ha⟩ := h
  exact ⟨by omega, by omega, logged, by omega, by omega⟩

/-- The event of the open packet is counted (42_demux_loop.md R146). -/
theorem Counters.Fit.pushEvent (h : c.Fit log pos 1 video audio) (hpos : pos < 2 ^ 68) :
    ({ c with pktCnt := c.pktCnt + 1 } : Counters).Fit (log + 1) pos 0 video audio := by
  obtain ⟨started, events, logged, hv, ha⟩ := h
  have hsucc := Word.toNat_succ (w := c.pktCnt) (by omega)
  exact ⟨started, by dsimp only; omega, by dsimp only; omega, hv, ha⟩

/-- A packet of kind `k` is opened and takes its 32-bit start code (45_program_stream_map.md R181, 46_pes_header.md R200). -/
theorem Counters.Fit.countEntry (h : c.Fit log pos 0 0 0) (k : PacketKind) (hpos : pos < 2 ^ 68) :
    (countEntry k c).Fit log (pos + 32) 1 (if k = .videoPES then 1 else 0) (if k = .audioPES then 1 else 0) := by
  obtain ⟨started, events, logged, hv, ha⟩ := h
  have hvideo := Word.toNat_succ (w := c.totalVideoFrameCnt) (by omega)
  have haudio := Word.toNat_succ (w := c.totalAudioFrameCnt) (by omega)
  have hpsm := Word.toNat_succ (w := c.psmCnt) (by omega)
  cases k <;> constructor <;> simp only [Machine.countEntry, reduceCtorEq, if_true, if_false] <;> omega

/-- An open video packet's payload is classified: at most one of the two counters steps (47_pes_payload_resync.md R238). -/
theorem Counters.Fit.classify (h : c.Fit log pos packet 1 audio) (bs : List Byte) :
    (classify bs c).Fit log pos packet 0 audio := by
  have hclosed : c.Fit log pos packet 0 audio := h.mono le_rfl le_rfl (Nat.zero_le _) le_rfl
  obtain ⟨started, events, logged, hv, ha⟩ := h
  have hlt := c.totalVideoFrameCnt.isLt
  have hi := Word.toNat_succ (w := c.iFrameCnt) (by omega)
  have hp := Word.toNat_succ (w := c.pFrameCnt) (by omega)
  unfold Machine.classify
  split
  · split_ifs
    · exact ⟨started, events, logged, by dsimp only; omega, ha⟩
    · exact ⟨started, events, logged, by dsimp only; omega, ha⟩
    · exact hclosed
  · exact hclosed

/-- An open PES packet is counted as errored (47_pes_payload_resync.md R235). -/
theorem Counters.Fit.countErrored {k : PacketKind} (hk : k = .videoPES ∨ k = .audioPES)
    (h : c.Fit log pos packet (if k = .videoPES then 1 else 0) (if k = .audioPES then 1 else 0)) :
    (countErrored k c).Fit log pos packet 0 0 := by
  obtain ⟨started, events, logged, hv, ha⟩ := h
  have hvlt := c.totalVideoFrameCnt.isLt
  have halt := c.totalAudioFrameCnt.isLt
  rcases hk with rfl | rfl <;> simp only [reduceCtorEq, if_true, if_false] at hv ha
  · have herr := Word.toNat_succ (w := c.errVideoFrameCnt) (by omega)
    exact ⟨started, events, logged, by dsimp only [Machine.countErrored]; omega, ha⟩
  · have herr := Word.toNat_succ (w := c.errAudioFrameCnt) (by omega)
    exact ⟨started, events, logged, hv, by dsimp only [Machine.countErrored]; omega⟩

end Fit

/-! ### Which packets are open -/

section Open

variable {s : State}

theorem State.openPacket_le_one (s : State) : s.openPacket ≤ 1 := by
  unfold State.openPacket
  split <;> simp

theorem State.openPacket_eq_one (hr : s.run = .running) (hd : s.work.due ≠ .top) : s.openPacket = 1 :=
  if_pos ⟨hr, hd⟩

theorem State.openPacket_eq_zero (h : s.run = .running → s.work.due = .top) : s.openPacket = 0 :=
  if_neg fun ⟨hr, hd⟩ => hd (h hr)

/-- A PES packet that is open is an open packet. -/
theorem State.openPes_le_openPacket (s : State) (k : PacketKind) : s.openPes k ≤ s.openPacket := by
  unfold State.openPes
  split
  next h =>
    obtain ⟨hr, -, hpes⟩ := h
    rw [State.openPacket_eq_one hr fun htop => by rw [htop] at hpes; cases hpes]
  next => exact Nat.zero_le _

theorem State.openPes_le_kind (s : State) (k : PacketKind) : s.openPes k ≤ if s.pkt.kind = k then 1 else 0 := by
  unfold State.openPes
  split
  next h => rw [if_pos h.2.1]
  next => exact Nat.zero_le _

theorem State.openPes_eq_zero (k : PacketKind) (h : s.work.due.inPes = false) : s.openPes k = 0 :=
  if_neg fun ⟨_, _, hpes⟩ => by simp [h] at hpes

theorem kindOfRec_ne_audioPES (r : Rec) : kindOfRec r ≠ .audioPES := by cases r <;> simp [kindOfRec]

/-- What is due inside a PES packet is due before its payload is disposed of, or is its end. -/
theorem Due.inPes_of_ofKind {d : Due} {k : PacketKind} (hk : k = .videoPES ∨ k = .audioPES) (h : d.ofKind k = true)
    (htop : d ≠ .top) (hfin : d ≠ .finish) : d.inPes = true := by
  cases d with
  | top => exact absurd rfl htop
  | finish => exact absurd rfl hfin
  | record r => rcases hk with rfl | rfl <;> simpa [Due.ofKind, Due.inPes, kindOfRec_ne_audioPES] using h
  | stuffing | payload | pushEs => rfl

/-- Before the end of a packet that is a PES packet, it is open as one. -/
theorem State.TaskInv.openPes_eq (hi : s.TaskInv) (hr : s.run = .running) (htop : s.work.due ≠ .top)
    (hfin : s.work.due ≠ .finish) {k : PacketKind} (hk : k = .videoPES ∨ k = .audioPES) :
    s.openPes k = if s.pkt.kind = k then 1 else 0 := by
  obtain ⟨-, -, -, -, -, -, hof⟩ := hi.inPacket hr htop
  unfold State.openPes
  by_cases hkind : s.pkt.kind = k
  · rw [if_pos ⟨hr, hkind, Due.inPes_of_ofKind hk (hkind ▸ hof) htop hfin⟩, if_pos hkind]
  · rw [if_neg (fun h => hkind h.2.1), if_neg hkind]

/-- The invariant with no packet open. -/
theorem State.CountInv.of_closed (h : s.cnt.Fit s.evtLog.length s.rd.bitpos 0 0 0)
    (hclosed : s.run = .running → s.work.due = .top) : s.CountInv := by
  have hpacket := State.openPacket_eq_zero hclosed
  exact s.countInv_iff.2 (h.mono le_rfl hpacket.le ((s.openPes_le_openPacket _).trans hpacket.le)
    ((s.openPes_le_openPacket _).trans hpacket.le))

/-- With no packet open the counters are as they stand. -/
theorem State.CountInv.fit_of_closed (h : s.CountInv) : s.cnt.Fit s.evtLog.length s.rd.bitpos 0 0 0 :=
  (s.countInv_iff.1 h).mono le_rfl (Nat.zero_le _) (Nat.zero_le _) (Nat.zero_le _)

/-- A packet whose payload, if it has one, is disposed of or given up. -/
theorem State.CountInv.fit_of_open (h : s.CountInv) (hr : s.run = .running) (hd : s.work.due ≠ .top) :
    s.cnt.Fit s.evtLog.length s.rd.bitpos 1 0 0 :=
  (s.countInv_iff.1 h).mono le_rfl (State.openPacket_eq_one hr hd).ge (Nat.zero_le _) (Nat.zero_le _)

end Open

/-! ### The end of a packet -/

theorem Counters.Fit.endPacket {s : State} (h : s.cnt.Fit s.evtLog.length s.rd.bitpos 0 0 0) : s.endPacket.CountInv := by
  rcases hp : s.work.pending with _ | e
  · rw [State.endPacket_none hp]
    exact .of_closed h fun _ => rfl
  · rw [State.endPacket_some hp]
    exact .of_closed h fun hr => nomatch hr

/-- The end of a packet, waiting or taken: the event that closes it is counted when it is pushed (42_demux_loop.md R146). -/
theorem Counters.Fit.finishPacket {s : State} (h : s.cnt.Fit s.evtLog.length s.rd.bitpos 1 0 0)
    (hpos : s.rd.bitpos < 2 ^ 68) : s.finishPacket.CountInv := by
  rcases s.finishPacket_cases with ⟨-, -, heq⟩ | ⟨-, -, heq⟩ | ⟨-, heq⟩ <;> rw [heq]
  · exact (State.countInv_iff _).2 (h.mono le_rfl (State.openPacket_le_one _)
      (State.openPes_eq_zero _ rfl).le (State.openPes_eq_zero _ rfl).le)
  · exact Counters.Fit.endPacket (s := s.pushEvent) (by simpa using h.pushEvent hpos)
  · exact (h.mono le_rfl (Nat.zero_le _) le_rfl le_rfl).endPacket

/-! ### The moves of the demux task -/

section Moves

variable {s : State} (hi : s.TaskInv) (hc : s.CountInv) (hr : s.run = .running)
include hi hc hr

/-- Before the end of a packet, a PES packet is open as one. -/
theorem State.CountInv.fit_of_kind (htop : s.work.due ≠ .top) (hfin : s.work.due ≠ .finish) :
    s.cnt.Fit s.evtLog.length s.rd.bitpos 1 (if s.pkt.kind = .videoPES then 1 else 0)
      (if s.pkt.kind = .audioPES then 1 else 0) :=
  (s.countInv_iff.1 hc).mono le_rfl (State.openPacket_eq_one hr htop).ge (hi.openPes_eq hr htop hfin (.inl rfl)).ge
    (hi.openPes_eq hr htop hfin (.inr rfl)).ge

/-- A record or the stuffing decoded: no counter steps before the packet's end. -/
theorem State.CountInv.goTo_of_partOk {d : Due} {s' : State} (htop : s.work.due ≠ .top) (hfin : s.work.due ≠ .finish)
    (h : s.PartOk s.work.due d s') (hpos : s'.rd.bitpos < 2 ^ 68) : (s'.goTo d).CountInv := by
  obtain ⟨hadv, -⟩ := h
  have hfit := (hc.fit_of_kind hi hr htop hfin).mono hadv.forward le_rfl le_rfl le_rfl
  rw [← hadv.cnt, ← hadv.evtLog, ← hadv.pkt] at hfit
  by_cases hd : d = .finish
  · subst hd
    exact (hfit.mono le_rfl le_rfl (Nat.zero_le _) (Nat.zero_le _)).finishPacket hpos
  · rw [State.goTo_of_ne hd]
    exact (State.countInv_iff _).2
      (hfit.mono le_rfl (State.openPacket_le_one _) (State.openPes_le_kind _ _) (State.openPes_le_kind _ _))

omit hi in
/-- An error raised inside a packet closes it (60_exceptions.md R267). -/
theorem State.CountInv.raiseFatal {e : Err} {s' : State} (htop : s.work.due ≠ .top) (h : s.PartErr e s')
    (hpos : s'.rd.bitpos < 2 ^ 68) : (s'.raiseFatal e).CountInv := by
  obtain ⟨hadv, -⟩ := h
  have hfit := (hc.fit_of_open hr htop).mono hadv.forward le_rfl le_rfl le_rfl
  rw [← hadv.cnt, ← hadv.evtLog] at hfit
  rw [State.raiseFatal_inPacket e (by rwa [hadv.due])]
  exact Counters.Fit.finishPacket hfit hpos

/-- A payload pushed: a video payload is classified once, in the packet it closes (47_pes_payload_resync.md R238). -/
theorem State.CountInv.finish_forwarded {s' : State} {rd : Reader} {bs : List Byte} (htop : s.work.due ≠ .top)
    (hfin : s.work.due ≠ .finish) (hs : s' = { s with rd := rd, work := { s.work with payload := bs } })
    (hforward : s.rd.bitpos ≤ rd.bitpos) (hpos : rd.bitpos < 2 ^ 68) : s'.forwarded.finishPacket.CountInv := by
  subst hs
  have hfit := (hc.fit_of_kind hi hr htop hfin).mono hforward le_rfl le_rfl (Nat.zero_le _)
  refine Counters.Fit.finishPacket ?_ hpos
  dsimp only [State.forwarded]
  by_cases hk : s.pkt.kind = .videoPES
  · rw [if_pos hk] at hfit ⊢
    exact hfit.classify bs
  · rw [if_neg hk] at hfit ⊢
    exact hfit

/-- The payload read, forwarded or waiting, or discarded (47_pes_payload_resync.md R230). -/
theorem State.CountInv.goTo_of_payloadOk {d : Due} {s' : State} (hd : s.work.due = .payload) (h : s.PayloadOk d s')
    (hpos : s'.rd.bitpos < 2 ^ 68) : (s'.goTo d).CountInv := by
  have htop : s.work.due ≠ .top := by simp [hd]
  have hfin : s.work.due ≠ .finish := by simp [hd]
  have hfit := hc.fit_of_kind hi hr htop hfin
  rcases h with ⟨rd, p, bs, hp, -, hm, -⟩ | ⟨rd, p, bs, hp, -, hm, -⟩ | ⟨rd, p, hp, -, hm⟩ <;>
    rw [← hm.1] at hp
  · exact hc.finish_forwarded hi hr htop hfin rfl hp hpos
  · rw [State.goTo_of_ne (by simp)]
    exact (State.countInv_iff _).2
      (hfit.mono hp (State.openPacket_le_one _) (State.openPes_le_kind _ _) (State.openPes_le_kind _ _))
  · obtain ⟨-, -, -, -, -, -, hkind⟩ := hi.inPacket hr htop
    have hpes : s.pkt.kind = .videoPES ∨ s.pkt.kind = .audioPES := by simpa [hd, Due.ofKind] using hkind
    exact Counters.Fit.finishPacket (s := ({ s with rd := rd } : State).errored)
      ((hfit.countErrored hpes).mono hp le_rfl le_rfl le_rfl) hpos

/-- Every move of the demux task keeps the counters. -/
theorem State.TaskMove.countInv {t : State} (h : s.TaskMove t) (hpos : t.rd.bitpos < 2 ^ 68) : t.CountInv := by
  cases h with
  | cancelled | done => exact .of_closed hc.fit_of_closed fun h => nomatch h
  | dispatched k rd hd hm =>
    have hb : rd.bitpos = s.rd.bitpos + 32 := hm.1
    have hpos : rd.bitpos < 2 ^ 68 := hpos
    have hfit := hc.fit_of_closed.countEntry k (by omega)
    rw [← hb] at hfit
    exact (State.countInv_iff _).2
      (hfit.mono le_rfl (State.openPacket_le_one _) (State.openPes_le_kind _ _) (State.openPes_le_kind _ _))
  | aborted e p rd q hd hq hm he =>
    rw [← hm.1] at hq
    exact .of_closed (hc.fit_of_closed.mono hq le_rfl le_rfl le_rfl) fun h => nomatch h
  | part d s' hd hf h => exact hc.goTo_of_partOk hi hr hd hf h (by simpa using hpos)
  | raised e s' hd h => exact hc.raiseFatal hr hd h (by simpa using hpos)
  | payload d s' hd h => exact hc.goTo_of_payloadOk hi hr hd h (by simpa using hpos)
  | pushed hd hroom =>
    exact hc.finish_forwarded hi hr (by simp [hd]) (by simp [hd]) rfl le_rfl (by simpa [State.forwarded] using hpos)
  | blocked => exact hc
  | finished hd => exact (hc.fit_of_open hr (by simp [hd])).finishPacket (by simpa using hpos)

end Moves

/-! ### O57 -/

/-- The invariant looks at the counters, the event log, the cursor and whether a packet is open only. -/
theorem State.CountInv.of_eq {s t : State} (h : s.CountInv) (hcnt : t.cnt = s.cnt) (hlog : t.evtLog = s.evtLog)
    (hrd : t.rd = s.rd) (hrun : t.run = s.run) (hpkt : t.pkt = s.pkt) (hwork : t.work = s.work) : t.CountInv := by
  obtain ⟨h1, h2, h3, h4, h5⟩ := h
  constructor <;> simp only [State.openPacket, State.openPes, hcnt, hlog, hrd, hrun, hpkt, hwork] <;> assumption

/-- Every request keeps the counters. -/
theorem State.RequestMove.countInv {s t : State} (hc : s.CountInv) (h : s.RequestMove t) : t.CountInv := by
  cases h with
  | op _ hr h =>
    have hfit := hc.fit_of_closed.mono h.forward le_rfl le_rfl le_rfl
    rw [← h.cnt, ← h.evtLog] at hfit
    exact .of_closed hfit fun hrun => absurd (h.run.symm.trans hrun) hr
  | started | reset => exact .of_closed reset_countInv.fit_of_closed fun _ => rfl
  | answered | cancel | popEvt | popEs => exact hc.of_eq rfl rfl rfl rfl rfl rfl

/-- The cursor stands inside a source whose SIZE is a 64-bit number, so no counter can overflow (10_state.md R35). -/
theorem State.ReaderInv.bitpos_lt {s : State} (h : s.ReaderInv) : s.rd.bitpos < 2 ^ 68 := by
  have hle := Reader.Coherent.bitpos_le h
  have hsize : s.env.src.sizeN < 2 ^ 64 := s.env.src.size.isLt
  omega

theorem taskStep_countInv {s t : State} (hread : s.ReaderInv) (hi : s.TaskInv) (hc : s.CountInv)
    (h : taskStep s = .next t) : t.CountInv := by
  by_cases hr : s.run = .running
  · exact (taskStep_inv hi hr h).countInv hi hc hr ((taskStep_readsOn h).coherent hread).bitpos_lt
  · rw [taskStep_eq_self hr] at h
    cases h
    exact hc

/-- Settles O57: every move keeps the counters; the reader's invariant bounds the cursor, and so each counter. -/
theorem countInvKept : Obligations.CountInvKept := by
  intro s t hread hi hc h
  obtain ⟨ts, h⟩ := step_inv h
  have hc : (s.withTurns ts).CountInv := hc.of_eq rfl rfl rfl rfl rfl rfl
  rcases h with h | ⟨i, h⟩
  · exact taskStep_countInv (s := s.withTurns ts) hread (hi.of_eq rfl rfl rfl rfl rfl) hc h
  · exact (requestStep_inv h).countInv hc

end Sys2Proof.Machine
end
